-- ==== Sys2Proof/Word.lean ====
section
/-! DEFINITION. The plain types of the block: bytes, bus addresses, command words, and a sparse map held as a sorted list. -/

namespace Sys2Proof

/-- A byte: every access of the block is one byte wide (R15, R52). -/
abbrev Byte := BitVec 8

/-- A bus address, 16 bits (R15, R46). -/
abbrev Addr := BitVec 16

/-- A command word, 32 bits (R70). -/
abbrev Word := BitVec 32

/-- Sparse data by number: a list of key and value pairs. In canonical form its keys rise strictly; a key that is
not listed has no value here. The operations stand in Machine/Sparse.lean. -/
abbrev Sparse (α : Type) := List (Nat × α)

end Sys2Proof
end

