-- ==== Sys2Proof/Config.lean ====
section
/-! DEFINITION. The parameters of the block (00_scope.md section 3), what makes them legal, their defaults, and the
free values: constants without a body, which stand for what the spec leaves open. -/

namespace Sys2Proof

/-- The parameters fixed at construction. No command writes one; the state carries them, so that every statement holds
for every legal choice (R7-R10, R13, R14). START_BANK is a register (R31) and stands in the state. -/
structure Config where
  /-- `S`, the size of the ROM image in bytes (R7). -/
  romSize : Nat
  /-- `PAGE_SHIFT`, the page-size exponent (R8). -/
  pageShift : Nat
  /-- `WINDOW_BASE`, the bus address of the cartridge window (R9). -/
  windowBase : Nat
  /-- `HS_BASE`, the bus address of the hot-spot range (R10). -/
  hsBase : Nat
  /-- `HS_SIZE`, the size of the hot-spot range (R10). -/
  hsSize : Nat
  /-- `HS_ROM`, the local offset whose write selects a ROM bank (R10). -/
  hsRom : Nat
  /-- `HS_RAM`, the local offset whose write selects a RAM bank-pair (R10). -/
  hsRam : Nat
  /-- `L`, the number of buckets of the delay queue (R13). -/
  horizon : Nat
  /-- `C`, how many entries one bucket holds at most (R13). -/
  capacity : Nat
  /-- `TAG`, the type tag of a saved state (R14). -/
  tag : String
  deriving DecidableEq, Repr

namespace Config

/-- `PAGE_SIZE = 2^PAGE_SHIFT` (R8). -/
def pageSize (c : Config) : Nat := 2 ^ c.pageShift

/-- `NPAGES = 2^(16 - PAGE_SHIFT)` (R8). -/
def pageCount (c : Config) : Nat := 2 ^ (16 - c.pageShift)

/-- `R = S / 2048`, the ROM bank count (R7). -/
def romBanks (c : Config) : Nat := c.romSize / 2048

/-- The lowest bus address at or above `HS_BASE` whose local offset is `o` (`hsAddr` of R88). -/
def hsAddr (c : Config) (o : Nat) : Nat := c.hsBase + (o + 4096 - c.hsBase % 4096) % 4096

/-- `S` is a multiple of 2048 and at least 2048 (R7, D39). -/
abbrev RomValid (c : Config) : Prop := c.romSize % 2048 = 0 ∧ 2048 ≤ c.romSize

/-- `0 <= PAGE_SHIFT <= 10`, and the page size divides the window base and the hot-spot range (R8, D4). -/
abbrev PageValid (c : Config) : Prop :=
  c.pageShift ≤ 10 ∧ c.windowBase % c.pageSize = 0 ∧ c.hsBase % c.pageSize = 0 ∧ c.hsSize % c.pageSize = 0

/-- The window starts at a multiple of 4096 and lies on the 16-bit bus (R9, D5). -/
abbrev WindowValid (c : Config) : Prop := c.windowBase % 4096 = 0 ∧ c.windowBase + 4096 ≤ 65536

/-- The hot-spot range holds at least one page and lies below the window; the two offsets are distinct 12-bit offsets,
each the local offset of an address in the range (R10, D6, D7). -/
abbrev HotSpotValid (c : Config) : Prop :=
  c.pageSize ≤ c.hsSize ∧ c.hsBase + c.hsSize ≤ c.windowBase ∧
  c.hsRom < 4096 ∧ c.hsRam < 4096 ∧ c.hsRom ≠ c.hsRam ∧
  c.hsAddr c.hsRom < c.hsBase + c.hsSize ∧ c.hsAddr c.hsRam < c.hsBase + c.hsSize

/-- `1 <= L <= 255` and `C >= 1` (R13, D27). -/
abbrev QueueValid (c : Config) : Prop := 1 ≤ c.horizon ∧ c.horizon ≤ 255 ∧ 1 ≤ c.capacity

/-- The parameters meet every constraint of 00_scope.md section 3. -/
abbrev Valid (c : Config) : Prop :=
  c.RomValid ∧ c.PageValid ∧ c.WindowValid ∧ c.HotSpotValid ∧ c.QueueValid

/-- The defaults the spec suggests (R8-R10, R13, R14), and for `S`, which has no default in its rule, the 8192 bytes
every test vector uses (95_test_vectors.md). DESIGN CHOICE, log 2. -/
def default : Config where
  romSize := 8192
  pageShift := 6
  windowBase := 0x1000
  hsBase := 0x0000
  hsSize := 0x40
  hsRom := 0x03F
  hsRam := 0x03E
  horizon := 16
  capacity := 16
  tag := "Cartridge3E"

end Config

/-! ## Free values

Each is a constant without a body: nothing can evaluate it or prove a value of it, so a statement holds whatever it is. -/

/-- Byte `i` of the ROM image: `IMAGE0[i]`, supplied at construction, for `n = 0` (R14, R161), and nothing of that image once
IMAGE was released `n` times (R159). Logs 3 and 6. -/
opaque Config.romByte : (n i : Nat) → Byte

/-- Byte `i` of RAM after the `n`-th time all of RAM was given values the spec does not fix: construction (`n = 0`), the
draws `RNG` of a CRST, or what a partly failed CLOAD left (R161, R117, R123). Log 4. -/
opaque Config.ramByte : (n i : Nat) → Byte

/-- `FB`, the floating-bus value of the `n`-th free draw (R59, R106). Log 7. -/
opaque Config.floatingBus : (n : Nat) → Byte

/-- `EXTVAL(k, addr)`, the byte external device `k` returns at the `n`-th free draw (R59). Log 7. -/
opaque Config.extVal : (n k : Nat) → Addr → Byte

/-- `EXTHANDLED(k, addr, value)`, the handled flag external device `k` returns at the `n`-th free draw (R59). Log 7. -/
opaque Config.extHandled : (n k : Nat) → Addr → Byte → Bool

/-- The number of fields of a saved state: tag, selector, length and 32768 bytes (R86). -/
abbrev saveFieldCount : Nat := 32771

/-- `SERFAULT`, whether the serializer raises a fault and at which field, at the `n`-th free draw (R59). Log 7. -/
opaque Config.serFault : (n : Nat) → Option (Fin saveFieldCount)

/-- The selector a partly failed CLOAD leaves, before normalisation, at the `n`-th free draw (R123). Log 9. -/
opaque Config.partialSelector : (n : Nat) → Nat

end Sys2Proof
end

