-- ==== Sys2Proof/Syntax.lean ====
section
/-! DEFINITION. The commands of the block as syntax: the 17 rows of the opcode table, the side-band operands, and the
request that carries a command to the block. -/

namespace Sys2Proof

/-- The two buffers a direct reference can name (R23). -/
inductive Buf where
  | image
  | ram
  deriving DecidableEq, Repr

/-- A direct reference `(buf, base)`: the page's bytes start at `base` in `buf` (R26). -/
structure DirectRef where
  buf : Buf
  base : Nat
  deriving DecidableEq, Repr

/-- The owning device of a page (R27). -/
inductive Device where
  /-- No device. -/
  | none
  /-- This block's cartridge handlers. -/
  | cart
  /-- External device number `k`. -/
  | ext (k : Nat)
  deriving DecidableEq, Repr

/-- A page descriptor (R25); it is also the side-band operand of PTSET (R76). -/
structure Descriptor where
  /-- The direct reference bus reads use, if any. -/
  rd : Option DirectRef
  /-- The direct reference bus writes use, if any. -/
  wr : Option DirectRef
  /-- The device whose handler serves a direction without a reference. -/
  dev : Device
  deriving DecidableEq, Repr

/-- `UNMAPPED = {rd: NONE, wr: NONE, dev: NONE}` (R27). -/
def Descriptor.unmapped : Descriptor := { rd := none, wr := none, dev := .none }

/-- A field handed to the serializer (R58, R86). Integers are naturals: the block saves and loads no other (D40). -/
inductive SerField where
  | str (s : String)
  | int (n : Nat)
  | byte (b : Byte)
  deriving DecidableEq, Repr

/-- An item of the stream CLOAD reads: a typed field, or FAULT (R77). -/
inductive SerItem where
  | field (f : SerField)
  | fault
  deriving DecidableEq, Repr

/-- A request: one command word with its side-band operands (R70). Only PTSET uses `desc` (R76) and only CLOAD uses
`stream` (R77); every other command ignores both. -/
structure Request where
  word : Word
  desc : Descriptor := Descriptor.unmapped
  stream : List SerItem := []
  deriving DecidableEq, Repr

/-- The commands, one constructor per row of the opcode table (R74), with their operands as R72, R76 and R77 give them. -/
inductive Instr where
  /-- BRD: bus read through the page table (R96). -/
  | brd (addr : Addr)
  /-- BWR: bus write through the page table (R97). -/
  | bwr (addr : Addr) (data : Byte)
  /-- CRD: the cartridge read handler (R105). -/
  | crd (addr : Addr)
  /-- CWR: the cartridge write handler (R110). -/
  | cwr (addr : Addr) (data : Byte)
  /-- PTSET: install one page descriptor (R99). -/
  | ptset (page : BitVec 16) (desc : Descriptor)
  /-- CINST: install the cartridge in the page table (R114). -/
  | cinst
  /-- CRST: reset the cartridge (R116). -/
  | crst
  /-- CSEL: request a bank selection (R107). -/
  | csel (sel : BitVec 9)
  /-- CPAT: override the byte the window shows (R118). -/
  | cpat (addr : Addr) (data : Byte)
  /-- CSAVE: save the cartridge state (R120). -/
  | csave
  /-- CLOAD: restore the cartridge state from a stream (R122). -/
  | cload (stream : List SerItem)
  /-- CLOCK: write the lock flag (R124). -/
  | clock (lk : Bool)
  /-- CCLR: clear the changed flag (R125). -/
  | cclr
  /-- CSTAT: read SEL, LOCKED and CHANGED (R126). -/
  | cstat
  /-- QPUSH: schedule a deferred write (R131). -/
  | qpush (qaddr : Byte) (value : Byte) (delay : BitVec 8)
  /-- QEXEC: advance one cycle and deliver what is due (R133). -/
  | qexec
  /-- QRST: clear the queue (R136). -/
  | qrst
  deriving DecidableEq, Repr

/-- The mnemonic of a command, as the opcode table spells it (R74). -/
def Instr.mnemonic : Instr → String
  | .brd _ => "BRD"
  | .bwr _ _ => "BWR"
  | .crd _ => "CRD"
  | .cwr _ _ => "CWR"
  | .ptset _ _ => "PTSET"
  | .cinst => "CINST"
  | .crst => "CRST"
  | .csel _ => "CSEL"
  | .cpat _ _ => "CPAT"
  | .csave => "CSAVE"
  | .cload _ => "CLOAD"
  | .clock _ => "CLOCK"
  | .cclr => "CCLR"
  | .cstat => "CSTAT"
  | .qpush _ _ _ => "QPUSH"
  | .qexec => "QEXEC"
  | .qrst => "QRST"

end Sys2Proof
end

