-- ==== Sys2Proof/WellFormed.lean ====
section
/-! DEFINITION. Which commands as syntax a command word can carry: the types bound every field but the page number. -/

namespace Sys2Proof

/-- A PTSET page is below NPAGES (R73, R85); every other field is bounded by its own width (R72). Whether a PTSET
descriptor may be installed is the command's own check (R99), not a matter of form. -/
def Instr.wellFormed (c : Config) : Instr → Bool
  | .ptset page _ => decide (page.toNat < c.pageCount)
  | .brd _ => true
  | .bwr _ _ => true
  | .crd _ => true
  | .cwr _ _ => true
  | .cinst => true
  | .crst => true
  | .csel _ => true
  | .cpat _ _ => true
  | .csave => true
  | .cload _ => true
  | .clock _ => true
  | .cclr => true
  | .cstat => true
  | .qpush _ _ _ => true
  | .qexec => true
  | .qrst => true

/-- The command is well formed under the parameters. -/
abbrev Instr.WellFormed (c : Config) (i : Instr) : Prop := i.wellFormed c = true

end Sys2Proof
end

