-- ==== Sys2Proof/Decode.lean ====
section
/-! DEFINITION. The decoder, total on every 32-bit word and rejecting by name (R85), the encoder written from the same
formats (R72, R74), the pseudo-commands (R88) and the assembly text (R87). -/

namespace Sys2Proof

/-- The operand formats of R72. -/
inductive Format where
  | n
  | a
  | ad
  | p
  | s
  | k
  | q
  deriving DecidableEq, Repr

/-- The bits of a word that a format marks `r`: they must be 0 (R72, R82). -/
def Format.reserved : Format → Word
  | .n => 0x00FFFFFF#32
  | .a => 0x000000FF#32
  | .ad => 0#32
  | .p => 0x000000FF#32
  | .s => 0x00FFFE00#32
  | .k => 0x00FFFFFE#32
  | .q => 0#32

/-- Why the decoder rejects a word; each is status ILLEGAL (R85, R140). -/
inductive DecodeError where
  /-- The opcode is not in the table (R82). -/
  | unassignedOpcode
  /-- A reserved bit of the format is 1 (R82). -/
  | reservedBit
  /-- A P-format page is at or above NPAGES (R85). -/
  | pageOutOfRange
  deriving DecidableEq, Repr

/-! ## Fields (R71-R73): unsigned, neither scaled nor shifted -/

/-- `w[31:24]`, the opcode (R71). -/
def opField (w : Word) : BitVec 8 := w.extractLsb' 24 8

/-- `w[23:8]`, an address or a page number (formats A, AD, P). -/
def addrField (w : Word) : BitVec 16 := w.extractLsb' 8 16

/-- `w[7:0]`, the data of format AD and the delay of format Q. -/
def lowField (w : Word) : BitVec 8 := w.extractLsb' 0 8

/-- `w[15:8]`, the value of format Q. -/
def valueField (w : Word) : BitVec 8 := w.extractLsb' 8 8

/-- `w[23:16]`, the queue address of format Q. -/
def qaddrField (w : Word) : BitVec 8 := w.extractLsb' 16 8

/-- `w[8:0]`, the selector of format S. -/
def selField (w : Word) : BitVec 9 := w.extractLsb' 0 9

/-- `w[0]`, the lock bit of format K. -/
def lockField (w : Word) : Bool := w.getLsbD 0

/-- A row of the opcode table: its format, and the command its fields make. -/
structure OpRow where
  format : Format
  build : Request → Instr

/-- The opcode map (R74); `none` for the reserved opcodes 0x00 and 0x12-0xFF. -/
def opRow (op : Nat) : Option OpRow :=
  match op with
  | 0x01 => some ⟨.a, fun r => .brd (addrField r.word)⟩
  | 0x02 => some ⟨.ad, fun r => .bwr (addrField r.word) (lowField r.word)⟩
  | 0x03 => some ⟨.a, fun r => .crd (addrField r.word)⟩
  | 0x04 => some ⟨.ad, fun r => .cwr (addrField r.word) (lowField r.word)⟩
  | 0x05 => some ⟨.p, fun r => .ptset (addrField r.word) r.desc⟩
  | 0x06 => some ⟨.n, fun _ => .cinst⟩
  | 0x07 => some ⟨.n, fun _ => .crst⟩
  | 0x08 => some ⟨.s, fun r => .csel (selField r.word)⟩
  | 0x09 => some ⟨.ad, fun r => .cpat (addrField r.word) (lowField r.word)⟩
  | 0x0A => some ⟨.n, fun _ => .csave⟩
  | 0x0B => some ⟨.n, fun r => .cload r.stream⟩
  | 0x0C => some ⟨.k, fun r => .clock (lockField r.word)⟩
  | 0x0D => some ⟨.n, fun _ => .cclr⟩
  | 0x0E => some ⟨.n, fun _ => .cstat⟩
  | 0x0F => some ⟨.q, fun r => .qpush (qaddrField r.word) (valueField r.word) (lowField r.word)⟩
  | 0x10 => some ⟨.n, fun _ => .qexec⟩
  | 0x11 => some ⟨.n, fun _ => .qrst⟩
  | _ => none

/-- The decoding procedure of R85, its checks in the written order. -/
def decode (c : Config) (r : Request) : Except DecodeError Instr :=
  match opRow (opField r.word).toNat with
  | none => .error .unassignedOpcode
  | some row =>
    if r.word &&& row.format.reserved ≠ 0#32 then .error .reservedBit
    else if row.format = .p ∧ c.pageCount ≤ (addrField r.word).toNat then .error .pageOutOfRange
    else .ok (row.build r)

/-! ## Encoder -/

/-- A word of format N. -/
def wordN (op : BitVec 8) : Word := op ++ 0#24

/-- A word of format A or P. -/
def wordA (op : BitVec 8) (a : BitVec 16) : Word := op ++ (a ++ 0#8 : BitVec 24)

/-- A word of format AD. -/
def wordAD (op : BitVec 8) (a : BitVec 16) (d : BitVec 8) : Word := op ++ (a ++ d : BitVec 24)

/-- A word of format S. -/
def wordS (op : BitVec 8) (sel : BitVec 9) : Word := op ++ (0#15 ++ sel : BitVec 24)

/-- A word of format K. -/
def wordK (op : BitVec 8) (lk : Bool) : Word := op ++ (0#23 ++ BitVec.ofBool lk : BitVec 24)

/-- A word of format Q. -/
def wordQ (op : BitVec 8) (qaddr value delay : BitVec 8) : Word := op ++ (qaddr ++ (value ++ delay : BitVec 16) : BitVec 24)

/-- The request that carries a command: its word (R72, R74) and its side-band operand (R76, R77). -/
def encode : Instr → Request
  | .brd addr => { word := wordA 0x01#8 addr }
  | .bwr addr data => { word := wordAD 0x02#8 addr data }
  | .crd addr => { word := wordA 0x03#8 addr }
  | .cwr addr data => { word := wordAD 0x04#8 addr data }
  | .ptset page desc => { word := wordA 0x05#8 page, desc := desc }
  | .cinst => { word := wordN 0x06#8 }
  | .crst => { word := wordN 0x07#8 }
  | .csel sel => { word := wordS 0x08#8 sel }
  | .cpat addr data => { word := wordAD 0x09#8 addr data }
  | .csave => { word := wordN 0x0A#8 }
  | .cload stream => { word := wordN 0x0B#8, stream := stream }
  | .clock lk => { word := wordK 0x0C#8 lk }
  | .cclr => { word := wordN 0x0D#8 }
  | .cstat => { word := wordN 0x0E#8 }
  | .qpush qaddr value delay => { word := wordQ 0x0F#8 qaddr value delay }
  | .qexec => { word := wordN 0x10#8 }
  | .qrst => { word := wordN 0x11#8 }

/-! ## The opcode table's word -/

/-- The request whose word the opcode table numbers as `w`: one 32-bit word, bits above `nbits` 0, its side-band
operands UNMAPPED and the empty stream. A word number that does not fit 32 bits is none (R83). -/
def tableRequest (nbits w : Nat) : Option Request :=
  if w % 2 ^ nbits < 2 ^ 32 then some { word := BitVec.ofNat 32 (w % 2 ^ nbits) } else none

/-- The command the decoder reads, under the default parameters, from an opcode-table word. -/
def decodeTableWord (nbits w : Nat) : Option Instr :=
  match tableRequest nbits w with
  | none => none
  | some r =>
    match decode Config.default r with
    | .ok i => some i
    | .error _ => none

/-! ## Pseudo-commands (R88) -/

/-- `SELROM v`: a bus write of `v` at the hot-spot address of `HS_ROM`. -/
def pseudoSelRom (c : Config) (v : Byte) : Instr := .bwr (BitVec.ofNat 16 (c.hsAddr c.hsRom)) v

/-- `SELRAM v`: a bus write of `v` at the hot-spot address of `HS_RAM`. -/
def pseudoSelRam (c : Config) (v : Byte) : Instr := .bwr (BitVec.ofNat 16 (c.hsAddr c.hsRam)) v

/-- `LOCK`. -/
def pseudoLock : Instr := .clock true

/-- `UNLOCK`. -/
def pseudoUnlock : Instr := .clock false

/-- `CYCLE`. -/
def pseudoCycle : Instr := .qexec

/-- `NOP`. -/
def pseudoNop : Instr := .cstat

/-! ## Assembly text (R87), numbers in decimal -/

/-- A reference in a descriptor's text. -/
def asmRef : Option DirectRef → String
  | none => "NONE"
  | some ⟨.image, base⟩ => "IMAGE:" ++ base.repr
  | some ⟨.ram, base⟩ => "RAM:" ++ base.repr

/-- A device in a descriptor's text. -/
def asmDevice : Device → String
  | .none => "NONE"
  | .cart => "CART"
  | .ext k => "EXT:" ++ k.repr

/-- A descriptor's text, in the braces of R87 (characters 123 and 125). -/
def asmDescriptor (d : Descriptor) : String :=
  String.singleton (Char.ofNat 123) ++ "rd=" ++ asmRef d.rd ++ ", wr=" ++ asmRef d.wr ++ ", dev=" ++ asmDevice d.dev ++
    String.singleton (Char.ofNat 125)

/-- The operands' text. R87 gives the stream of CLOAD no text of its own, so it is the word `stream`. -/
def asmOperands : Instr → String
  | .brd addr => " " ++ addr.toNat.repr
  | .bwr addr data => " " ++ addr.toNat.repr ++ ", " ++ data.toNat.repr
  | .crd addr => " " ++ addr.toNat.repr
  | .cwr addr data => " " ++ addr.toNat.repr ++ ", " ++ data.toNat.repr
  | .ptset page desc => " " ++ page.toNat.repr ++ ", " ++ asmDescriptor desc
  | .cinst => ""
  | .crst => ""
  | .csel sel => " " ++ sel.toNat.repr
  | .cpat addr data => " " ++ addr.toNat.repr ++ ", " ++ data.toNat.repr
  | .csave => ""
  | .cload _ => " stream"
  | .clock lk => " " ++ lk.toNat.repr
  | .cclr => ""
  | .cstat => ""
  | .qpush qaddr value delay => " " ++ qaddr.toNat.repr ++ ", " ++ value.toNat.repr ++ ", " ++ delay.toNat.repr
  | .qexec => ""
  | .qrst => ""

/-- One command as a line of assembly text (R87). -/
def asmText (i : Instr) : String := i.mnemonic ++ asmOperands i

end Sys2Proof
end

