-- ==== Sys2Proof/Machine/Operands.lean ====
section
/-! DEFINITION. What commands compute from their operands: address fields, selector normalisation, slice bases and the
page descriptors of a mapping. -/

namespace Sys2Proof.Machine

/-! ## Bus addresses (R18, R81) -/

/-- `pageOf(addr) = addr >> PAGE_SHIFT` (R18). -/
def pageOf (c : Config) (a : Addr) : Nat := a.toNat / c.pageSize

/-- `inPage(addr) = addr & PAGE_MASK` (R18). -/
def inPage (c : Config) (a : Addr) : Nat := a.toNat % c.pageSize

/-- `pageBase(p) = p << PAGE_SHIFT` (R18). -/
def pageBase (c : Config) (p : Nat) : Nat := p * c.pageSize

/-- The local offset `addr & 0x0FFF` (R11, R104). -/
def localOffset (a : Addr) : Nat := a.toNat % 4096

/-- The page numbers `p` with `base <= pageBase(p) < base + size`. -/
def pagesIn (c : Config) (base size : Nat) : List Nat :=
  (List.range ((base + size + c.pageSize - 1) / c.pageSize - (base + c.pageSize - 1) / c.pageSize)).map
    (fun i => (base + c.pageSize - 1) / c.pageSize + i)

/-- The pages of the banked segment, window offsets 0x000-0x7FF (R37). -/
def lowerPages (c : Config) : List Nat := pagesIn c c.windowBase 0x800

/-- The pages of the fixed slice, window offsets 0x800-0xFFF (R37). -/
def upperPages (c : Config) : List Nat := pagesIn c (c.windowBase + 0x800) 0x800

/-- The pages of the hot-spot range (R37). -/
def hotSpotPages (c : Config) : List Nat := pagesIn c c.hsBase c.hsSize

/-! ## Buffers (R23, R35) -/

/-- The size of RAM in bytes (R12, R22). -/
def ramSize : Nat := 32768

/-- `size(buf)` (R23). -/
def bufSize (c : Config) : Buf → Nat
  | .image => c.romSize
  | .ram => ramSize

/-- The base of the fixed slice (R35). -/
def fixedBase (c : Config) : Nat := c.romSize - 2048

/-! ## Selectors (R34-R36, R80) -/

/-- `norm(n)` (R36). -/
def norm (c : Config) (n : Nat) : Nat :=
  if n < 256 then n % c.romBanks else 256 + (n - 256) % 32

/-- The 9-bit SEL a requested selector leaves: `norm(n)` (R29, R36). -/
def normSel (c : Config) (n : Nat) : BitVec 9 := BitVec.ofNat 9 (norm c n)

/-- The selector a hot-spot write of `v` at `HS_RAM` requests: `v + 256` (R80). -/
def ramRequest (v : Byte) : Nat := v.toNat + 256

/-- `romBase(SEL)` (R35). -/
def romBase (sel : Nat) : Nat := sel * 2048

/-- `ramBase(SEL)` (R35). -/
def ramBase (sel : Nat) : Nat := (sel - 256) * 1024

/-! ## The cell behind a window offset (R105, R118) -/

/-- What stands behind a local offset, for a given SEL. -/
inductive Shown where
  /-- Byte `i` of a buffer, readable as it stands. -/
  | cell (buf : Buf) (i : Nat)
  /-- The RAM write port, over RAM cell `i`. -/
  | writePort (i : Nat)
  deriving DecidableEq, Repr

/-- The byte a local offset shows: banked segment below 0x800, in a RAM selection the read port below 0x400 and the write
port above it, and the fixed slice from 0x800 (R11, R105; C2). -/
def shownAt (c : Config) (sel : Nat) (off : Nat) : Shown :=
  if off < 0x800 then
    if sel < 256 then .cell .image (romBase sel + off % 0x800)
    else if off < 0x400 then .cell .ram (ramBase sel + off % 0x400)
    else .writePort (ramBase sel + off % 0x400)
  else .cell .image (fixedBase c + off % 0x800)

/-- The buffer cell CPAT changes for the same offset: on the write port, the cell behind it (R118, R119). -/
def patchTarget (c : Config) (sel : Nat) (off : Nat) : Buf × Nat :=
  match shownAt c sel off with
  | .cell b i => (b, i)
  | .writePort i => (.ram, i)

/-! ## Mappings (R37) -/

/-- `lowerMap(s, p)`. -/
def lowerMap (c : Config) (s p : Nat) : Descriptor :=
  let o := pageBase c p - c.windowBase
  if s < 256 then { rd := some ⟨.image, romBase s + o⟩, wr := none, dev := .cart }
  else if o < 0x400 then { rd := some ⟨.ram, ramBase s + o⟩, wr := none, dev := .cart }
  else { rd := none, wr := some ⟨.ram, ramBase s + (o - 0x400)⟩, dev := .cart }

/-- `upperMap(p)`. -/
def upperMap (c : Config) (p : Nat) : Descriptor :=
  { rd := some ⟨.image, fixedBase c + (pageBase c p - c.windowBase - 0x800)⟩, wr := none, dev := .cart }

/-- `hsMap(p)`: fully indirect, device CART. -/
def hsMap (_p : Nat) : Descriptor := { rd := none, wr := none, dev := .cart }

/-! ## Descriptors a PTSET may install (R99) -/

/-- A present reference leaves its buffer. -/
def refLeavesBuffer (c : Config) : Option DirectRef → Bool
  | none => false
  | some r => decide (bufSize c r.buf < r.base + c.pageSize)

/-- A reference names IMAGE. -/
def refIntoImage : Option DirectRef → Bool
  | some ⟨.image, _⟩ => true
  | some ⟨.ram, _⟩ => false
  | none => false

/-- The checks of PTSET, in the order written (R99): a reference without a device, a reference leaving its buffer, a write
reference into IMAGE. -/
def descriptorIllFormed (c : Config) (d : Descriptor) : Bool :=
  (d.dev = .none && (d.rd.isSome || d.wr.isSome)) ||
  (refLeavesBuffer c d.rd || refLeavesBuffer c d.wr) ||
  refIntoImage d.wr

end Sys2Proof.Machine
end

