-- ==== Sys2Proof/Machine/Sparse.lean ====
section
/-! DEFINITION. Operations on sparse maps: lists of key and value pairs whose keys rise strictly. -/

namespace Sys2Proof.Machine

/-- The value listed for key `k`, if any. -/
def Sparse.lookup {α : Type} (k : Nat) : Sparse α → Option α
  | [] => none
  | (k', v) :: rest => if k = k' then some v else Sparse.lookup k rest

/-- The map with `v` listed for key `k`, every other key as before. -/
def Sparse.insert {α : Type} (k : Nat) (v : α) : Sparse α → Sparse α
  | [] => [(k, v)]
  | (k', v') :: rest =>
    if k < k' then (k, v) :: (k', v') :: rest
    else if k = k' then (k, v) :: rest
    else (k', v') :: Sparse.insert k v rest

/-- The map with nothing listed for key `k`, every other key as before. -/
def Sparse.erase {α : Type} (k : Nat) : Sparse α → Sparse α
  | [] => []
  | (k', v') :: rest => if k = k' then Sparse.erase k rest else (k', v') :: Sparse.erase k rest

/-- The keys rise strictly: the canonical order. -/
abbrev Sparse.Sorted {α : Type} (m : Sparse α) : Prop := m.Pairwise (fun x y => x.1 < y.1)

/-- Every key is below `n`. -/
abbrev Sparse.Below {α : Type} (n : Nat) (m : Sparse α) : Prop := ∀ x ∈ m, x.1 < n

/-- The map that lists the values `vs` at the keys `k`, `k + 1`, and so on. -/
def Sparse.ofList {α : Type} (k : Nat) : List α → Sparse α
  | [] => []
  | v :: vs => (k, v) :: Sparse.ofList (k + 1) vs

end Sys2Proof.Machine
end

