-- ==== Sys2Proof/Machine/State.lean ====
section
/-! DEFINITION. The state of the block (R19), its port and the model's own fields; why a step can stop; construction and
reset. -/

namespace Sys2Proof.Machine

/-- A buffer's contents: the bytes listed, in rising order of address. A byte that is not listed holds a value the spec
leaves open, one free constant of Config for each byte (`State.bufByte`; logs 3 and 4). -/
abbrev Memory := List Host.Cell

/-- The canonical form of a buffer of `size` bytes: addresses rise strictly and lie inside the buffer. No entry can equal
what an unlisted byte reads as by being written down, since that value is free. -/
abbrev Memory.wf (size : Nat) (m : Memory) : Prop :=
  m.Pairwise (fun x y => x.1 < y.1) ∧ ∀ x ∈ m, x.1 < size

/-- An entry of a bucket: a deferred write (R39). -/
structure Entry where
  addr : BitVec 8
  value : Byte
  deriving DecidableEq, Repr

/-- The status codes of a response (R78). -/
inductive Status where
  | ok
  | illegal
  | unmapped
  | qRange
  | qFull
  | fail
  deriving DecidableEq, Repr

/-- The output events (R58). -/
inductive Event where
  /-- A write forwarded to the chip-register path. -/
  | chipPoke (addr : Addr) (value : Byte)
  /-- One call of the QEXEC handler. -/
  | fire (qaddr : BitVec 8) (value : Byte)
  /-- A read passed to external device `k`. -/
  | extRead (k : Nat) (addr : Addr)
  /-- A write passed to external device `k`. -/
  | extWrite (k : Nat) (addr : Addr) (value : Byte)
  /-- A field handed to the serializer. -/
  | serPut (f : SerField)
  deriving DecidableEq, Repr

/-- A response: status, 16-bit data field, ordered event list (R70). -/
structure Response where
  status : Status
  data : BitVec 16
  events : List Event
  deriving DecidableEq, Repr

/-- What a model treats as a fault of the command stream (R145, R123): the command answers its status, the model records
the fault, and the state is as the rule of the status says. -/
inductive CommandFault where
  | illegal
  | unmapped
  | qRange
  | qFull
  | failPartial
  deriving DecidableEq, Repr

/-- What waits at the port. -/
inductive Arrival where
  /-- A command of the requester, issued while no other is in progress (R60). -/
  | command (r : Request)
  /-- A command issued while another is in progress, as from the handling of a FIRE or CHIP_POKE (R61). -/
  | nested (r : Request)
  /-- The destruction of the block (R159). -/
  | teardown
  deriving DecidableEq, Repr

/-- What the collaborators are set to answer, oldest first, and the number of free draws taken. A draw takes the oldest
value set for it; where none is set, it takes a free constant of Config, a fresh one for every draw (R59, R117). Log 7. -/
structure Draws where
  /-- Floating-bus values, `FB`. -/
  fb : List Byte := []
  /-- Random bytes, `RNG`. -/
  rng : List Byte := []
  /-- Bytes external devices return, `EXTVAL`. -/
  extVal : List Byte := []
  /-- Handled flags external devices return, `EXTHANDLED`. -/
  extHandled : List Bool := []
  /-- Serializer faults of CSAVE, `SERFAULT`: none, or the field it stands at. -/
  serFault : List (Option (Fin saveFieldCount)) := []
  /-- How many free draws were taken. -/
  taken : Nat := 0
  deriving DecidableEq, Repr

/-- The state: what R19 gives the block, the parameters (00_scope.md section 3), the port (R70) and the model's own
fields (logs 1, 4, 6, 7). -/
structure State where
  /-- The parameters, fixed at construction. -/
  cfg : Config
  /-- IMAGE (R21). -/
  image : Memory
  /-- How many times IMAGE was released (R159); the model's own. -/
  imagesReleased : Nat
  /-- RAM (R22). -/
  ram : Memory
  /-- How many times all of RAM was given open values; the model's own. -/
  ramFill : Nat
  /-- PT (R24): the pages that are not UNMAPPED, by page number. -/
  pt : Sparse Descriptor
  /-- SEL, 9 bits (R29). -/
  sel : BitVec 9
  /-- START_BANK (R31). -/
  startBank : Nat
  /-- LOCKED (R32). -/
  locked : Bool
  /-- CHANGED (R33). -/
  changed : Bool
  /-- BUCKET[0..L-1] (R39), each in insertion order. -/
  buckets : List (List Entry)
  /-- CURSOR (R40). -/
  cursor : Nat
  /-- INDEX (R41): the slots that are not NONE, by queue address. -/
  index : Sparse Nat
  /-- What waits at the port, oldest first (R60, R70). -/
  inbox : List Arrival
  /-- The last response, none before the first command ended (R70). -/
  response : Option Response
  /-- Whether the block was destroyed (R159). -/
  tornDown : Bool
  /-- The command faults recorded, oldest first; the model's own (R145). -/
  faults : List CommandFault
  /-- The collaborators' answers; the model's own (R59). -/
  draws : Draws
  deriving DecidableEq, Repr

/-- Why the machine stops with a fault. -/
inductive Fault where
  /-- An access to byte `i` of a buffer that has no such byte. Raised by BRD, BWR, CRD and CPAT. The spec gives no effect:
  R26 and R30 keep every reference and every selection inside its buffer, so only a state that breaks them gets here, and
  no run from construction does. Safe: the machine stops. Log 8. -/
  | outsideBuffer (buf : Buf) (i : Nat)
  deriving DecidableEq, Repr

/-- Why the machine gives no meaning. -/
inductive Refusal where
  /-- A command of the opcode table without a meaning yet, raised by `exec`; no arm raises it. Safe: the machine stops. -/
  | notModelled (mnemonic : String)
  /-- A command issued while another is in progress, raised by `step`: "the model refuses it" (R61). Safe. -/
  | commandInProgress
  /-- A command after teardown, raised by `step`: "after teardown no command is defined" (R159). Safe. -/
  | afterTeardown
  deriving DecidableEq, Repr

/-- The block right after construction with parameters `c`, the image `image0`, RAM holding `ram0` and the start bank
`startBank` (R161). -/
def State.construct (c : Config) (image0 ram0 : Memory) (startBank : Nat) : State where
  cfg := c
  image := image0
  imagesReleased := 0
  ram := ram0
  ramFill := 0
  pt := []
  sel := normSel c startBank
  startBank := startBank
  locked := false
  changed := false
  buckets := List.replicate c.horizon []
  cursor := 0
  index := []
  inbox := []
  response := none
  tornDown := false
  faults := []
  draws := {}

/-- The machine right after reset: the block constructed with the default parameters and START_BANK 0, no byte of IMAGE
or RAM listed (R161, R14; logs 2, 3, 4, 5). -/
def State.reset : State := State.construct Config.default [] [] 0

end Sys2Proof.Machine
end

