-- ==== Sys2Proof/Machine/Flags.lean ====
section
/-! DEFINITION. The block's two flags LOCKED and CHANGED (R43), the word CSTAT packs, and the status codes. -/

namespace Sys2Proof.Machine

/-- `LOCKED <- lk` (R32, R124). -/
def State.setLocked (lk : Bool) (s : State) : State := { s with locked := lk }

/-- `CHANGED <- 1` (R33). -/
def State.markChanged (s : State) : State := { s with changed := true }

/-- `CHANGED <- 0` (R33, R125). -/
def State.clearChanged (s : State) : State := { s with changed := false }

/-- `zext_16({CHANGED, LOCKED, SEL})`: SEL in data[8:0], LOCKED in data[9], CHANGED in data[10] (R126, R75). -/
def State.statWord (s : State) : BitVec 16 :=
  (BitVec.ofBool s.changed ++ (BitVec.ofBool s.locked ++ s.sel : BitVec 10) : BitVec 11).setWidth 16

/-- The 3-bit status code (R78). -/
def Status.code : Status → BitVec 3
  | .ok => 0#3
  | .illegal => 1#3
  | .unmapped => 2#3
  | .qRange => 3#3
  | .qFull => 4#3
  | .fail => 5#3

/-- Which rejections count as faults of the command stream (R145): a rejection with FAIL is a normal step. -/
def Status.commandFault : Status → List CommandFault
  | .ok => []
  | .illegal => [.illegal]
  | .unmapped => [.unmapped]
  | .qRange => [.qRange]
  | .qFull => [.qFull]
  | .fail => []

end Sys2Proof.Machine
end

