-- ==== Sys2Proof/Machine/Ops.lean ====
section
/-! DEFINITION. The shared operations over buffers, the page table, the queue, draws and responses. The block takes no
exception and returns from none (R138, R149, R150); what stands in its place is the rejection with a status. -/

namespace Sys2Proof.Machine

/-! ## Buffers (R17) -/

/-- The contents listed for a buffer. -/
def State.buffer (b : Buf) (s : State) : Memory :=
  match b with
  | .image => s.image
  | .ram => s.ram

/-- Byte `i` of a buffer: the byte listed, or the free value an unlisted byte holds (logs 3, 4). -/
def State.bufByte (b : Buf) (i : Nat) (s : State) : Byte :=
  match b with
  | .image => (Sparse.lookup i s.image).getD (Config.romByte s.imagesReleased i)
  | .ram => (Sparse.lookup i s.ram).getD (Config.ramByte s.ramFill i)

/-- `buf[i] <- v`, for a byte inside the buffer. -/
def State.setBufByte (b : Buf) (i : Nat) (v : Byte) (s : State) : State :=
  match b with
  | .image => { s with image := Sparse.insert i v s.image }
  | .ram => { s with ram := Sparse.insert i v s.ram }

/-- `BufRead(b, i)`. -/
def bufRead (b : Buf) (i : Nat) (s : State) : Except Fault Byte :=
  if i < bufSize s.cfg b then .ok (s.bufByte b i) else .error (.outsideBuffer b i)

/-- `BufWrite(b, i, v)`. -/
def bufWrite (b : Buf) (i : Nat) (v : Byte) (s : State) : Except Fault State :=
  if i < bufSize s.cfg b then .ok (s.setBufByte b i v) else .error (.outsideBuffer b i)

/-- All of RAM holds `bs` from index 0 up, and open values after its end. -/
def State.fillRam (bs : List Byte) (s : State) : State :=
  { s with ram := Sparse.ofList 0 (bs.take ramSize), ramFill := s.ramFill + 1 }

/-- The bytes of RAM in index order (R86). -/
def State.ramBytes (s : State) : List Byte := (List.range ramSize).map (fun i => s.bufByte .ram i)

/-! ## Page table -/

/-- `PT[p]`: a page that is not listed is UNMAPPED (R24, R27). -/
def State.page (p : Nat) (s : State) : Descriptor := (Sparse.lookup p s.pt).getD Descriptor.unmapped

/-- `PT[p] <- d`, on the table. -/
def setPage (p : Nat) (d : Descriptor) (pt : Sparse Descriptor) : Sparse Descriptor :=
  if d = Descriptor.unmapped then Sparse.erase p pt else Sparse.insert p d pt

/-- `PT[p] <- f(p)` for each page `p` of a list, in order. -/
def setPages (f : Nat → Descriptor) : List Nat → Sparse Descriptor → Sparse Descriptor
  | [], pt => pt
  | p :: ps, pt => setPages f ps (setPage p (f p) pt)

/-- A descriptor without its direct references; its device stays. -/
def withoutRefs (d : Descriptor) : Descriptor := { d with rd := none, wr := none }

/-- The table without any direct reference. -/
def dropRefs (pt : Sparse Descriptor) : Sparse Descriptor := pt.map (fun x => (x.1, withoutRefs x.2))

/-- The lower-window pages publish the mapping of `sel` (R37, R108, R122). -/
def State.publishLower (sel : BitVec 9) (s : State) : State :=
  { s with pt := setPages (lowerMap s.cfg sel.toNat) (lowerPages s.cfg) s.pt }

/-! ## Responses (R17, R70) -/

/-- `return (OK, data)` with the events of the command. -/
def State.respond (data : BitVec 16) (events : List Event) (s : State) : State :=
  { s with response := some { status := .ok, data := data, events := events } }

/-- `reject S`: status S, data 0, no event and no change of the block's state; a command fault is recorded (R17, R145). -/
def State.reject (st : Status) (s : State) : State :=
  { s with
    response := some { status := st, data := 0#16, events := [] }
    faults := s.faults ++ st.commandFault }

/-- A result, or the fault that kept it from being. -/
def settle (r : Except Fault State) : Host.Outcome State Fault Refusal :=
  match r with
  | .ok s => .next s
  | .error e => .fault e

/-! ## Draws (R59): the oldest value set, else a fresh free value -/

/-- `draw FB`. -/
def drawFloatingBus (s : State) : Byte × State :=
  match s.draws.fb with
  | v :: rest => (v, { s with draws := { s.draws with fb := rest } })
  | [] => (Config.floatingBus s.draws.taken, { s with draws := { s.draws with taken := s.draws.taken + 1 } })

/-- `draw EXTVAL(k, addr)`. -/
def drawExtVal (k : Nat) (a : Addr) (s : State) : Byte × State :=
  match s.draws.extVal with
  | v :: rest => (v, { s with draws := { s.draws with extVal := rest } })
  | [] => (Config.extVal s.draws.taken k a, { s with draws := { s.draws with taken := s.draws.taken + 1 } })

/-- `draw EXTHANDLED(k, addr, value)`. -/
def drawExtHandled (k : Nat) (a : Addr) (v : Byte) (s : State) : Bool × State :=
  match s.draws.extHandled with
  | h :: rest => (h, { s with draws := { s.draws with extHandled := rest } })
  | [] => (Config.extHandled s.draws.taken k a v, { s with draws := { s.draws with taken := s.draws.taken + 1 } })

/-- `draw SERFAULT`. -/
def drawSerFault (s : State) : Option (Fin saveFieldCount) × State :=
  match s.draws.serFault with
  | f :: rest => (f, { s with draws := { s.draws with serFault := rest } })
  | [] => (Config.serFault s.draws.taken, { s with draws := { s.draws with taken := s.draws.taken + 1 } })

/-- `draw RNG` for every byte of RAM, index 0 upward (R116, D37): the values set fill the low cells, and the rest hold
open values. -/
def drawRamFill (s : State) : State :=
  { s.fillRam s.draws.rng with draws := { s.draws with rng := s.draws.rng.drop ramSize } }

/-- The open selector and RAM a partly failed CLOAD leaves (R123). -/
def drawPartial (s : State) : Nat × State :=
  (Config.partialSelector s.draws.taken,
    { s.fillRam [] with draws := { s.draws with taken := s.draws.taken + 1 } })

/-! ## The cartridge's inner functions -/

/-- `Select(n)` (R108). -/
def select (n : Nat) (s : State) : State :=
  if s.locked then s
  else ({ s with sel := normSel s.cfg n }.publishLower (normSel s.cfg n)).markChanged

/-- `CartRead(addr)`: the byte read and the state after (R105). A write-port read returns the floating-bus draw and,
unless LOCKED, stores it (R106). -/
def cartRead (addr : Addr) (s : State) : Except Fault (Byte × State) :=
  match shownAt s.cfg s.sel.toNat (localOffset addr) with
  | .cell b i =>
    match bufRead b i s with
    | .ok v => .ok (v, s)
    | .error e => .error e
  | .writePort i =>
    let (v, t) := drawFloatingBus s
    if t.locked then .ok (v, t)
    else
      match bufWrite .ram i v t with
      | .ok u => .ok (v, u)
      | .error e => .error e

/-- The selection a cartridge write requests: ROM bank `data` at `HS_ROM`, RAM bank-pair `data + 256` at `HS_RAM`
(R110, R80); the comparison is on the local offset (R111). `Select` is a no-op under LOCKED (R108). -/
def hotSpotSelect (addr : Addr) (data : Byte) (s : State) : State :=
  if localOffset addr = s.cfg.hsRom then select data.toNat s
  else if localOffset addr = s.cfg.hsRam then select (ramRequest data) s
  else s

/-- `CartWrite(addr, data)`: the selection first, then CHIP_POKE with the address as received; handled = 0 (R110-R112). -/
def cartWrite (addr : Addr) (data : Byte) (s : State) : State :=
  (hotSpotSelect addr data s).respond 0#16 [.chipPoke addr data]

/-- A cartridge read as a response: the byte in data[7:0] (R75). -/
def cartReadResponse (addr : Addr) (s : State) : Except Fault State :=
  match cartRead addr s with
  | .ok (v, t) => .ok (t.respond (v.setWidth 16) [])
  | .error e => .error e

/-! ## The serializer's stream (R77): a read past the end, a FAULT or an item of the wrong type is none -/

/-- `get string`. -/
def getStr : List SerItem → Option (String × List SerItem)
  | .field (.str s) :: rest => some (s, rest)
  | _ => none

/-- `get integer`. -/
def getInt : List SerItem → Option (Nat × List SerItem)
  | .field (.int n) :: rest => some (n, rest)
  | _ => none

/-- The byte an item holds, if it is one. -/
def itemByte : SerItem → Option Byte
  | .field (.byte b) => some b
  | _ => none

/-- `get n bytes`. -/
def getBytes (n : Nat) (items : List SerItem) : Option (List Byte) :=
  let bs := (items.take n).filterMap itemByte
  if bs.length = n then some bs else none

/-- The fields of a saved state, in order (R86, R120). -/
def State.saveFields (s : State) : List SerField :=
  .str s.cfg.tag :: .int s.sel.toNat :: .int ramSize :: s.ramBytes.map .byte

/-! ## The delay queue -/

/-- `INDEX[a]`: a slot that is not listed is NONE (R41). -/
def State.slot (a : BitVec 8) (s : State) : Option Nat := Sparse.lookup a.toNat s.index

/-- `BUCKET[j]`. -/
def State.bucket (j : Nat) (s : State) : List Entry := (s.buckets[j]?).getD []

/-- The bucket a push of delay `d` lands in: `(CURSOR + d - 1) mod L` (R84). -/
def State.targetBucket (d : BitVec 8) (s : State) : Nat := (s.cursor + d.toNat - 1) % s.cfg.horizon

/-- A bucket without its entry for address `a`, the others in order (R132). -/
def dropAddr (a : BitVec 8) (b : List Entry) : List Entry := b.filter (fun e => e.addr ≠ a)

/-- The buckets with bucket `j` changed by `f`. -/
def changeBucket (j : Nat) (f : List Entry → List Entry) (bs : List (List Entry)) : List (List Entry) :=
  bs.modify j f

/-- The pending entry for address `a`, if any, is removed from its bucket (R131, R132). -/
def State.unschedule (a : BitVec 8) (s : State) : State :=
  match s.slot a with
  | none => s
  | some old => { s with buckets := changeBucket old (dropAddr a) s.buckets }

/-- `append (a, v) to the tail of BUCKET[j]; INDEX[a] <- j` (R131). -/
def State.schedule (a : BitVec 8) (v : Byte) (j : Nat) (s : State) : State :=
  { s with
    buckets := changeBucket j (fun b => b ++ [{ addr := a, value := v }]) s.buckets
    index := Sparse.insert a.toNat j s.index }

/-- How many entries bucket `j` would hold beside a new entry for `a`: `length(BUCKET[j]) - (1 if old = j else 0)` (R131). -/
def State.countBeside (a : BitVec 8) (j : Nat) (s : State) : Nat :=
  (s.bucket j).length - (if s.slot a = some j then 1 else 0)

/-- `INDEX[a] <- NONE` for the address of each entry (R133). -/
def clearSlots : List Entry → Sparse Nat → Sparse Nat
  | [], idx => idx
  | e :: es, idx => clearSlots es (Sparse.erase e.addr.toNat idx)

/-- `FIRE(a, v)` for each entry, head to tail (R133). -/
def fireEvents (b : List Entry) : List Event := b.map (fun e => .fire e.addr e.value)

/-- The current bucket delivered: emptied, its slots NONE, CURSOR advanced by one modulo L (R133). -/
def State.drain (s : State) : State :=
  { s with
    index := clearSlots (s.bucket s.cursor) s.index
    buckets := changeBucket s.cursor (fun _ => []) s.buckets
    cursor := (s.cursor + 1) % s.cfg.horizon }

end Sys2Proof.Machine
end

