-- ==== Sys2Proof/Machine/Bus.lean ====
section
/-! DEFINITION. The meanings of the page-table commands: BRD, BWR, PTSET (40_pagetable.md). -/

namespace Sys2Proof.Machine

/-- BRD (R96): the direct reference, else the device's read handler, else UNMAPPED (R98). -/
def execBrd (addr : Addr) (s : State) : Host.Outcome State Fault Refusal :=
  match (s.page (pageOf s.cfg addr)).rd with
  | some ref =>
    match bufRead ref.buf (ref.base + inPage s.cfg addr) s with
    | .ok v => .next (s.respond (v.setWidth 16) [])
    | .error e => .fault e
  | none =>
    match (s.page (pageOf s.cfg addr)).dev with
    | .cart => settle (cartReadResponse addr s)
    | .ext k =>
      let (v, t) := drawExtVal k addr s
      .next (t.respond (v.setWidth 16) [.extRead k addr])
    | .none => .next (s.reject .unmapped)

/-- BWR (R97): the direct reference with handled = 1 (D14), else the device's write handler, else UNMAPPED (R98). -/
def execBwr (addr : Addr) (data : Byte) (s : State) : Host.Outcome State Fault Refusal :=
  match (s.page (pageOf s.cfg addr)).wr with
  | some ref =>
    match bufWrite ref.buf (ref.base + inPage s.cfg addr) data s with
    | .ok t => .next (t.respond 1#16 [])
    | .error e => .fault e
  | none =>
    match (s.page (pageOf s.cfg addr)).dev with
    | .cart => .next (cartWrite addr data s)
    | .ext k =>
      let (h, t) := drawExtHandled k addr data s
      .next (t.respond ((BitVec.ofBool h).setWidth 16) [.extWrite k addr data])
    | .none => .next (s.reject .unmapped)

/-- PTSET (R99): ILLEGAL for an ill-formed descriptor, else `PT[page] <- desc`. -/
def execPtset (page : BitVec 16) (desc : Descriptor) (s : State) : Host.Outcome State Fault Refusal :=
  if descriptorIllFormed s.cfg desc then .next (s.reject .illegal)
  else .next ({ s with pt := setPage page.toNat desc s.pt }.respond 0#16 [])

end Sys2Proof.Machine
end

