-- ==== Sys2Proof/Machine/Cartridge.lean ====
section
/-! DEFINITION. The meanings of the cartridge commands: CRD, CWR, CINST, CRST, CSEL, CPAT, CSAVE, CLOAD, CLOCK, CCLR, CSTAT
(41_cartridge.md). -/

namespace Sys2Proof.Machine

/-- CRD: `return CartRead(addr)` (R105). -/
def execCrd (addr : Addr) (s : State) : Host.Outcome State Fault Refusal := settle (cartReadResponse addr s)

/-- CWR: `return CartWrite(addr, data)` (R110). -/
def execCwr (addr : Addr) (data : Byte) (s : State) : Host.Outcome State Fault Refusal := .next (cartWrite addr data s)

/-- CINST: the hot-spot pages, the fixed slice, then `Select(START_BANK)` (R114). -/
def execCinst (s : State) : Host.Outcome State Fault Refusal :=
  let installed := setPages (upperMap s.cfg) (upperPages s.cfg) (setPages hsMap (hotSpotPages s.cfg) s.pt)
  .next ((select s.startBank { s with pt := installed }).respond 0#16 [])

/-- CRST: every RAM byte a random draw, then `Select(START_BANK)` (R116). -/
def execCrst (s : State) : Host.Outcome State Fault Refusal :=
  .next ((select s.startBank (drawRamFill s)).respond 0#16 [])

/-- CSEL: `Select(sel)`, always OK (R107). -/
def execCsel (sel : BitVec 9) (s : State) : Host.Outcome State Fault Refusal :=
  .next ((select sel.toNat s).respond 0#16 [])

/-- CPAT: the byte the window shows at the offset, or the cell behind the write port, becomes `data`; CHANGED <- 1 (R118). -/
def execCpat (addr : Addr) (data : Byte) (s : State) : Host.Outcome State Fault Refusal :=
  match bufWrite (patchTarget s.cfg s.sel.toNat (localOffset addr)).1
      (patchTarget s.cfg s.sel.toNat (localOffset addr)).2 data s with
  | .ok t => .next (t.markChanged.respond 0#16 [])
  | .error e => .fault e

/-- The end of a CSAVE: all fields as SER_PUT events, or, with a serializer fault at field `j`, FAIL after the fields before
`j` (R120). -/
def endSave (fault : Option (Fin saveFieldCount)) (fields : List SerField) (s : State) : State :=
  match fault with
  | none => s.respond 0#16 (fields.map .serPut)
  | some j => { s with response := some { status := .fail, data := 0#16, events := (fields.take j.val).map .serPut } }

/-- CSAVE: the fields of the saved state, handed to a serializer that may fault (R120). -/
def execCsave (s : State) : Host.Outcome State Fault Refusal :=
  .next (endSave (drawSerFault s).1 s.saveFields (drawSerFault s).2)

/-- The end of a CLOAD that failed after its tag matched: status FAIL, SEL any legal value, RAM any bytes, the lower window
republished, the fault recorded (R123). -/
def loadFailPartial (s : State) : State :=
  let (n, t) := drawPartial s
  let u := { t with sel := normSel t.cfg n }.publishLower (normSel t.cfg n)
  { u with
    response := some { status := .fail, data := 0#16, events := [] }
    faults := u.faults ++ [.failPartial] }

/-- The end of a CLOAD that succeeds: SEL, RAM, and the lower window also under LOCKED (R122). -/
def loadComplete (n : Nat) (bytes : List Byte) (s : State) : State :=
  ({ s with sel := normSel s.cfg n, ram := Sparse.ofList 0 bytes }.publishLower (normSel s.cfg n)).respond 0#16 []

/-- CLOAD (R122), its checks in the order written: the tag, the selector, the length, the bytes. -/
def execCload (stream : List SerItem) (s : State) : Host.Outcome State Fault Refusal :=
  match getStr stream with
  | none => .next (s.reject .fail)
  | some (t, afterTag) =>
    if t ≠ s.cfg.tag then .next (s.reject .fail)
    else
      match getInt afterTag with
      | none => .next (loadFailPartial s)
      | some (n, afterSel) =>
        match getInt afterSel with
        | none => .next (loadFailPartial s)
        | some (len, afterLen) =>
          if len ≠ ramSize then .next (loadFailPartial s)
          else
            match getBytes len afterLen with
            | none => .next (loadFailPartial s)
            | some bytes => .next (loadComplete n bytes s)

/-- CLOCK: `LOCKED <- lk` (R124). -/
def execClock (lk : Bool) (s : State) : Host.Outcome State Fault Refusal := .next ((s.setLocked lk).respond 0#16 [])

/-- CCLR: `CHANGED <- 0` (R125). -/
def execCclr (s : State) : Host.Outcome State Fault Refusal := .next (s.clearChanged.respond 0#16 [])

/-- CSTAT: SEL, LOCKED and CHANGED in data (R126). -/
def execCstat (s : State) : Host.Outcome State Fault Refusal := .next (s.respond s.statWord [])

end Sys2Proof.Machine
end

