-- ==== Sys2Proof/Machine/Queue.lean ====
section
/-! DEFINITION. The meanings of the delay-queue commands: QPUSH, QEXEC, QRST (42_delayqueue.md). -/

namespace Sys2Proof.Machine

/-- QPUSH (R131): QRANGE outside `1..L`, QFULL when the bucket would hold more than C, else the older entry for the address
is replaced (R132). -/
def execQpush (qaddr : Byte) (value : Byte) (delay : BitVec 8) (s : State) : Host.Outcome State Fault Refusal :=
  if delay.toNat < 1 ∨ s.cfg.horizon < delay.toNat then .next (s.reject .qRange)
  else if s.cfg.capacity < s.countBeside qaddr (s.targetBucket delay) + 1 then .next (s.reject .qFull)
  else .next (((s.unschedule qaddr).schedule qaddr value (s.targetBucket delay)).respond 0#16 [])

/-- QEXEC: FIRE for every entry of the current bucket, then the bucket is emptied and CURSOR advances (R133). -/
def execQexec (s : State) : Host.Outcome State Fault Refusal :=
  .next (s.drain.respond 0#16 (fireEvents (s.bucket s.cursor)))

/-- QRST: every bucket empty, every slot NONE, CURSOR unchanged (R136). -/
def execQrst (s : State) : Host.Outcome State Fault Refusal :=
  .next ({ s with buckets := s.buckets.map (fun _ => []), index := [] }.respond 0#16 [])

end Sys2Proof.Machine
end

