-- ==== Sys2Proof/Machine/Dispatch.lean ====
section
/-! DEFINITION. One arm per command of the opcode table. -/

namespace Sys2Proof.Machine

def exec (i : Instr) (s : State) : Host.Outcome State Fault Refusal :=
  match i with
  | .brd addr => Sys2Proof.Machine.execBrd addr s
  | .bwr addr data => Sys2Proof.Machine.execBwr addr data s
  | .crd addr => Sys2Proof.Machine.execCrd addr s
  | .cwr addr data => Sys2Proof.Machine.execCwr addr data s
  | .ptset page desc => Sys2Proof.Machine.execPtset page desc s
  | .cinst => Sys2Proof.Machine.execCinst s
  | .crst => Sys2Proof.Machine.execCrst s
  | .csel sel => Sys2Proof.Machine.execCsel sel s
  | .cpat addr data => Sys2Proof.Machine.execCpat addr data s
  | .csave => Sys2Proof.Machine.execCsave s
  | .cload stream => Sys2Proof.Machine.execCload stream s
  | .clock lk => Sys2Proof.Machine.execClock lk s
  | .cclr => Sys2Proof.Machine.execCclr s
  | .cstat => Sys2Proof.Machine.execCstat s
  | .qpush qaddr value delay => Sys2Proof.Machine.execQpush qaddr value delay s
  | .qexec => Sys2Proof.Machine.execQexec s
  | .qrst => Sys2Proof.Machine.execQrst s

end Sys2Proof.Machine
end

