-- ==== Sys2Proof/Machine/Fetch.lean ====
section
/-! DEFINITION. How a command comes to the block: the inbox, the teardown, and the placing of an opcode-table word. -/

namespace Sys2Proof.Machine

/-- The oldest arrival, and the state without it; none where nothing waits. -/
def fetch (s : State) : Option (Arrival × State) :=
  match s.inbox with
  | [] => none
  | a :: rest => some (a, { s with inbox := rest })

/-- The block is destroyed: IMAGE is released, every direct reference is dead, and after this no command is defined (R159,
R168). Log 6. -/
def tearDown (s : State) : State :=
  { s with
    image := []
    imagesReleased := s.imagesReleased + 1
    pt := dropRefs s.pt
    tornDown := true }

/-- A word the decoder rejects: status ILLEGAL, no change (R82, R140). -/
def illegalWord (s : State) : State := s.reject .illegal

/-- The state whose next arrival is the opcode-table word `w`. A number that does not fit a command word stands for the word 0,
which is ILLEGAL. In a destroyed block the word stays undefined (R159). -/
def placeWord (s : State) (nbits w : Nat) : State :=
  { s with inbox := .command ((tableRequest nbits w).getD { word := 0#32 }) :: s.inbox }

end Sys2Proof.Machine
end

