-- ==== Sys2Proof/Machine/Step.lean ====
section
/-! DEFINITION. One step: the oldest arrival at the port, as one atomic transition (R61, R180). -/

namespace Sys2Proof.Machine

/-- A command of the requester runs: decoded and executed, or rejected as ILLEGAL (R85, R61). -/
def runRequest (r : Request) (s : State) : Host.Outcome State Fault Refusal :=
  match decode s.cfg r with
  | .ok i => exec i s
  | .error _ => .next (illegalWord s)

/-- One step. With nothing waiting the block stays as it is: it acts only on commands (R159). A command issued inside
another is refused (R61), and so is a command after teardown (R159). -/
def step (s : State) : Host.Outcome State Fault Refusal :=
  match fetch s with
  | none => .next s
  | some (.teardown, t) => .next (tearDown t)
  | some (.nested _, _) => .refused .commandInProgress
  | some (.command r, t) => if t.tornDown then .refused .afterTeardown else runRequest r t

/-- The state whose next step runs the opcode-table word `w`; in a destroyed block no command is defined (R159). -/
def State.withFetchWord (s : State) (nbits w : Nat) : State := placeWord s nbits w

end Sys2Proof.Machine
end

