-- ==== Sys2Proof/Safety.lean ====
section
/-! DEFINITION. What claims about the block speak of: the invariant of its state, the published mapping, what counts as no
change, and runs of commands. -/

namespace Sys2Proof.Machine

/-- SEL holds a legal value: a ROM bank below R, or a RAM bank-pair 256..287 (R30). -/
def SelLegal (c : Config) (sel : BitVec 9) : Prop :=
  (sel.toNat < 256 ∧ sel.toNat < c.romBanks) ∨ (256 ≤ sel.toNat ∧ sel.toNat ≤ 287)

/-- A direct reference serves a whole page inside its buffer (R26). -/
def RefInside (c : Config) (r : DirectRef) : Prop := r.base + c.pageSize ≤ bufSize c r.buf

/-- A descriptor a page may hold: references inside their buffers, no write reference into IMAGE, and a device unless the
page is UNMAPPED (R26, R28, R51). -/
structure DescriptorOk (c : Config) (d : Descriptor) : Prop where
  readInside : ∀ r, d.rd = some r → RefInside c r
  writeInside : ∀ r, d.wr = some r → RefInside c r
  writeNotImage : ∀ r, d.wr = some r → r.buf ≠ .image
  owned : d.dev = .none → d = Descriptor.unmapped

/-- The page table in canonical form: pages below NPAGES, rising, none of them UNMAPPED, each descriptor as it may be (R24,
R28). -/
structure PageTableOk (c : Config) (pt : Sparse Descriptor) : Prop where
  sorted : Sparse.Sorted pt
  below : Sparse.Below c.pageCount pt
  mapped : ∀ x ∈ pt, x.2 ≠ Descriptor.unmapped
  descriptors : ∀ x ∈ pt, DescriptorOk c x.2

/-- The queue invariants (R39-R42). -/
structure QueueOk (s : State) : Prop where
  /-- There are L buckets (R39). -/
  bucketCount : s.buckets.length = s.cfg.horizon
  /-- Every bucket holds at most C entries (R42 c). -/
  capacity : ∀ b ∈ s.buckets, b.length ≤ s.cfg.capacity
  /-- CURSOR is one of 0..L-1 (R40). -/
  cursorBelow : s.cursor < s.cfg.horizon
  /-- INDEX is in canonical form, with 256 slots (R41). -/
  indexSorted : Sparse.Sorted s.index
  indexBelow : Sparse.Below 256 s.index
  /-- `INDEX[a] = j` exactly when BUCKET[j] holds an entry with address a (R42 a). -/
  indexExact : ∀ a j, s.slot a = some j ↔ ∃ e ∈ s.bucket j, e.addr = a
  /-- At most one entry with a given address exists across all buckets (R42 b). -/
  onePending : ∀ a, (s.buckets.flatten.filter (fun e => e.addr = a)).length ≤ 1

/-- The invariant of the block: legal parameters, canonical memories of the right sizes (R21, R22), a legal SEL (R30), a
well-formed page table (R24-R28) and the queue invariants (R42). -/
structure State.Inv (s : State) : Prop where
  params : s.cfg.Valid
  image : Memory.wf s.cfg.romSize s.image
  ram : Memory.wf ramSize s.ram
  sel : SelLegal s.cfg s.sel
  pages : PageTableOk s.cfg s.pt
  queue : QueueOk s

/-! ## What a command leaves unchanged -/

/-- The pieces of the state a command may change or keep; the response is not among them, since every command gives one. -/
inductive Piece where
  | params
  | startBank
  | image
  | ram
  | pages
  | sel
  | locked
  | changed
  | buckets
  | cursor
  | index
  | inbox
  | tornDown
  | faults
  | draws
  deriving DecidableEq, Repr

/-- A piece is the same in two states; the buffers and the tables are compared by what they read as. -/
def Unchanged (s t : State) : Piece → Prop
  | .params => t.cfg = s.cfg
  | .startBank => t.startBank = s.startBank
  | .image => ∀ i, t.bufByte .image i = s.bufByte .image i
  | .ram => ∀ i, t.bufByte .ram i = s.bufByte .ram i
  | .pages => ∀ p, t.page p = s.page p
  | .sel => t.sel = s.sel
  | .locked => t.locked = s.locked
  | .changed => t.changed = s.changed
  | .buckets => ∀ j, t.bucket j = s.bucket j
  | .cursor => t.cursor = s.cursor
  | .index => ∀ a, t.slot a = s.slot a
  | .inbox => t.inbox = s.inbox
  | .tornDown => t.tornDown = s.tornDown
  | .faults => t.faults = s.faults
  | .draws => t.draws = s.draws

/-- Every piece is unchanged, but perhaps the pieces named. -/
def UnchangedBut (named : List Piece) (s t : State) : Prop := ∀ p, p ∉ named → Unchanged s t p

/-- No piece of the block's own state (R19) and no parameter is changed. -/
def SameBlock (s t : State) : Prop := UnchangedBut [.inbox, .tornDown, .faults, .draws] s t

/-- Every byte of both buffers reads as before. -/
def SameBytes (s t : State) : Prop := ∀ b i, t.bufByte b i = s.bufByte b i

/-- Every byte of both buffers reads as before, but perhaps byte `i` of `b`. -/
def SameBytesBut (b : Buf) (i : Nat) (s t : State) : Prop :=
  ∀ b' i', (b' ≠ b ∨ i' ≠ i) → t.bufByte b' i' = s.bufByte b' i'

/-- A successful selection of `n` led from `s` to `t`: SEL is `norm(n)`, the lower-window pages hold its mapping and no other
page changed, CHANGED is 1 (R108). -/
structure Selected (n : Nat) (s t : State) : Prop where
  sel : t.sel.toNat = norm s.cfg n
  lower : ∀ p ∈ lowerPages s.cfg, t.page p = lowerMap s.cfg (norm s.cfg n) p
  others : ∀ p, p ∉ lowerPages s.cfg → t.page p = s.page p
  changed : t.changed = true

/-- `Select(n)` led from `s` to `t`: a successful selection with LOCKED = 0, no change with LOCKED = 1 (R108). -/
def SelectRan (n : Nat) (s t : State) : Prop :=
  (s.locked = false → Selected n s t) ∧ (s.locked = true → ∀ p ∈ [Piece.sel, .pages, .changed], Unchanged s t p)

/-- The response of a command. -/
def Answered (t : State) (st : Status) (data : BitVec 16) (events : List Event) : Prop :=
  t.response = some { status := st, data := data, events := events }

/-- The rows of the opcode table as (match, mask), in its order (opcode_table.json). -/
def tableRows : List (Word × Word) :=
  [(0x01000000#32, 0xFF0000FF#32), (0x02000000#32, 0xFF000000#32), (0x03000000#32, 0xFF0000FF#32),
   (0x04000000#32, 0xFF000000#32), (0x05000000#32, 0xFF0000FF#32), (0x06000000#32, 0xFFFFFFFF#32),
   (0x07000000#32, 0xFFFFFFFF#32), (0x08000000#32, 0xFFFFFE00#32), (0x09000000#32, 0xFF000000#32)] ++
  [(0x0A000000#32, 0xFFFFFFFF#32), (0x0B000000#32, 0xFFFFFFFF#32), (0x0C000000#32, 0xFFFFFFFE#32),
   (0x0D000000#32, 0xFFFFFFFF#32), (0x0E000000#32, 0xFFFFFFFF#32), (0x0F000000#32, 0xFF000000#32),
   (0x10000000#32, 0xFFFFFFFF#32), (0x11000000#32, 0xFFFFFFFF#32)]

/-- A word some row of the opcode table matches: its opcode is assigned and its reserved bits are 0 (R72, R74). -/
def MatchesRow (w : Word) : Prop := ∃ row ∈ tableRows, w &&& row.2 = row.1

/-- The pages the cartridge claims: the lower window, the fixed slice and the hot-spot range (R37). -/
def claimedPages (c : Config) : List Nat := lowerPages c ++ upperPages c ++ hotSpotPages c

/-- The pages are as the cartridge publishes them: the lower window for SEL, the fixed slice, the hot-spot range (R38). -/
structure State.Mapped (s : State) : Prop where
  lower : ∀ p ∈ lowerPages s.cfg, s.page p = lowerMap s.cfg s.sel.toNat p
  upper : ∀ p ∈ upperPages s.cfg, s.page p = upperMap s.cfg p
  hotSpot : ∀ p ∈ hotSpotPages s.cfg, s.page p = hsMap p

/-- The descriptor the cartridge publishes for a page it claims, with SEL as it stands (R37). -/
def publishedFor (s : State) (p : Nat) : Descriptor :=
  if p ∈ lowerPages s.cfg then lowerMap s.cfg s.sel.toNat p
  else if p ∈ upperPages s.cfg then upperMap s.cfg p
  else hsMap p

/-! ## Runs -/

/-- The premise "no such status" of R145: no command fault was recorded. -/
def State.NoCommandFault (s : State) : Prop := s.faults = []

/-- The status of the last response. -/
def State.status (t : State) : Option Status := t.response.map Response.status

/-- Whether a command, having led to state `t`, discards what was pending for queue address `a`: a QRST, or an accepted
QPUSH for `a` (R134). -/
def cancels (a : BitVec 8) (i : Instr) (t : State) : Bool :=
  match i with
  | .qrst => true
  | .qpush a' _ _ => decide (a' = a) && decide (t.status = some .ok)
  | _ => false

/-- Commands executed in order, none of which discards what is pending for queue address `a`. -/
def runWithoutCancel (a : BitVec 8) : List Instr → State → Option State
  | [], s => some s
  | i :: is, s =>
    match exec i s with
    | .next t => if cancels a i t then none else runWithoutCancel a is t
    | .fault _ => none
    | .refused _ => none

/-- How many of the commands are QEXEC: the cycles that pass (R153). -/
def cyclesIn (is : List Instr) : Nat := (is.filter (fun i => i = .qexec)).length

/-- The event is a FIRE for queue address `a`. -/
def Event.isFireOf (a : BitVec 8) : Event → Bool
  | .fire a' _ => decide (a' = a)
  | .chipPoke _ _ => false
  | .extRead _ _ => false
  | .extWrite _ _ _ => false
  | .serPut _ => false

/-- The events of the last response. -/
def State.events (s : State) : List Event := (s.response.map Response.events).getD []

end Sys2Proof.Machine
end

