-- ==== Sys2Proof/Certificates/Slice0/Obligations.lean ====
section
/-! DEFINITION. The statements about the block, for the provers. Each docstring names the rule it formalises; where a clause
rests on a choice of the model, it says so. -/

open Sys2Proof Sys2Proof.Machine

/-! ## Encoding -/

/-- Words written out from R72 and R74 (the spec's own in 95_test_vectors.md) decode to the commands they stand for, and words
with an unassigned opcode, a nonzero reserved bit or a page at NPAGES are rejected for that reason. -/
def Obligations.DecodesWordsWrittenFromTheSpec : Prop :=
  decode Config.default { word := 0x01100500#32 } = .ok (.brd 0x1005#16) ∧
  decode Config.default { word := 0x02003F02#32 } = .ok (.bwr 0x003F#16 0x02#8) ∧
  decode Config.default { word := 0x03180500#32 } = .ok (.crd 0x1805#16) ∧
  decode Config.default { word := 0x05000200#32, desc := ⟨none, none, .ext 1⟩ } = .ok (.ptset 2#16 ⟨none, none, .ext 1⟩) ∧
  decode Config.default { word := 0x0800012C#32 } = .ok (.csel 300#9) ∧
  decode Config.default { word := 0x0C000001#32 } = .ok (.clock true) ∧
  decode Config.default { word := 0x0F2C0702#32 } = .ok (.qpush 0x2C#8 0x07#8 2#8) ∧
  decode Config.default { word := 0x10000000#32 } = .ok .qexec ∧
  decode Config.default { word := 0x12000000#32 } = .error .unassignedOpcode ∧
  decode Config.default { word := 0x08000200#32 } = .error .reservedBit ∧
  decode Config.default { word := 0x05040000#32 } = .error .pageOutOfRange

/-- Decoding the request of a well-formed command gives the command back, with every operand at every value the encoding
admits (R72, R74, R76, R77). -/
def Obligations.DecodeOfEncodeIsTheCommand : Prop :=
  ∀ (c : Config) (i : Instr), i.WellFormed c → decode c (encode i) = .ok i

/-- Every word has one meaning: a word the decoder accepts is the word of the command it answers, which is well formed, and
the side-band operand of a PTSET or a CLOAD is the command's (R72, R73, R85). -/
def Obligations.EncodeOfDecodeIsTheWord : Prop :=
  ∀ (c : Config) (r : Request) (i : Instr), decode c r = .ok i →
    (encode i).word = r.word ∧ i.WellFormed c ∧
    (∀ page desc, i = .ptset page desc → desc = r.desc) ∧ (∀ stream, i = .cload stream → stream = r.stream)

/-- The decoder accepts exactly the words a row of the opcode table matches, less a PTSET whose page is not below NPAGES
(R85); `tableRows` is the table's own list of match and mask. -/
def Obligations.DecoderAcceptsExactlyTheTableRows : Prop :=
  ∀ (c : Config) (r : Request),
    (∃ i, decode c r = .ok i) ↔
      MatchesRow r.word ∧ (r.word.extractLsb' 24 8 = 0x05#8 → (r.word.extractLsb' 8 16).toNat < c.pageCount)

/-! ## The port and the step -/

/-- When the oldest arrival is a command that decodes to `i`, a step is `exec i` on the state without that arrival (R61, R85). -/
def Obligations.StepRunsTheDecodedCommand : Prop :=
  ∀ (s : State) (r : Request) (rest : List Arrival) (i : Instr),
    s.inbox = .command r :: rest → s.tornDown = false → decode s.cfg r = .ok i →
    step s = exec i { s with inbox := rest }

/-- The decoder rejects exactly the words that no row of the opcode table matches (an unassigned opcode or a nonzero reserved
bit) and the PTSET words whose page is at or above NPAGES (R85). A step on a rejected word changes no state, emits no event and
returns status ILLEGAL with data 0 (R82, R140); the model also records the fault (log 1), and the arrival is used up. -/
def Obligations.UnassignedWordAnswersIllegal : Prop :=
  ∀ (s : State) (r : Request) (rest : List Arrival), s.inbox = .command r :: rest → s.tornDown = false →
    ((∃ e, decode s.cfg r = .error e) ↔
      (¬ MatchesRow r.word ∨
        (r.word.extractLsb' 24 8 = 0x05#8 ∧ s.cfg.pageCount ≤ (r.word.extractLsb' 8 16).toNat))) ∧
    ∀ e, decode s.cfg r = .error e →
      ∃ t, step s = .next t ∧ Answered t .illegal 0#16 [] ∧ UnchangedBut [.inbox, .faults] s t ∧ t.inbox = rest ∧
        t.faults = s.faults ++ [.illegal]

/-- A command issued while another is in progress is refused (R61), and so is a command after teardown (R159). A teardown
releases IMAGE, whose bytes are from then on free values of their own, takes the direct references from every page, and changes
nothing else; no later step ends the teardown or brings a reference back (R159; that the references are gone from pages of other
devices too, and that the rest stays, is log 6). With nothing waiting nothing changes (log 6). -/
def Obligations.StepRefusesNestedAndLateCommands : Prop :=
  (∀ (s : State) (r : Request) (rest : List Arrival), s.inbox = .nested r :: rest → step s = .refused .commandInProgress) ∧
  (∀ (s : State) (r : Request) (rest : List Arrival), s.inbox = .command r :: rest → s.tornDown = true →
    step s = .refused .afterTeardown) ∧
  (∀ (s : State) (rest : List Arrival), s.inbox = .teardown :: rest →
    ∃ t, step s = .next t ∧ t.tornDown = true ∧ t.inbox = rest ∧ t.response = s.response ∧
      (∀ i, t.bufByte .image i = Config.romByte (s.imagesReleased + 1) i) ∧
      (∀ p, t.page p = { s.page p with rd := none, wr := none }) ∧ UnchangedBut [.inbox, .tornDown, .image, .pages] s t) ∧
  (∀ (s t : State), s.tornDown = true → (∀ p, (s.page p).rd = none ∧ (s.page p).wr = none) → step s = .next t →
    t.tornDown = true ∧ ∀ p, (t.page p).rd = none ∧ (t.page p).wr = none) ∧
  (∀ (s : State), s.inbox = [] → step s = .next s)

/-! ## Construction and the invariant -/

/-- What construction leaves, for every choice of parameters, image, RAM contents and start bank (R161). -/
def Obligations.ConstructionLeavesTheStatedValues : Prop :=
  ∀ (c : Config) (image0 ram0 : Memory) (startBank : Nat),
    let s := State.construct c image0 ram0 startBank
    s.cfg = c ∧ s.startBank = startBank ∧ s.image = image0 ∧ s.ram = ram0 ∧
    s.sel.toNat = (if startBank < 256 then startBank % c.romBanks else 256 + (startBank - 256) % 32) ∧
    s.locked = false ∧ s.changed = false ∧ (∀ p, s.page p = ⟨none, none, .none⟩) ∧
    s.buckets.length = c.horizon ∧ (∀ j, s.bucket j = []) ∧ s.cursor = 0 ∧ (∀ a, s.slot a = none)

/-- The invariant holds after construction with legal parameters, whatever canonical image and RAM it is given (R161, R162). -/
def Obligations.ConstructionMeetsTheInvariant : Prop :=
  ∀ (c : Config) (image0 ram0 : Memory) (startBank : Nat),
    c.Valid → Memory.wf c.romSize image0 → Memory.wf 32768 ram0 → (State.construct c image0 ram0 startBank).Inv

/-- The invariant holds at reset, which is a construction with the parameters of log 2 and nothing listed in either buffer. -/
def Obligations.ResetMeetsTheInvariant : Prop :=
  State.reset.Inv ∧ State.reset.image = [] ∧ State.reset.ram = []

/-- From every state that meets the invariant, a step that answers a next state leaves one that meets it. -/
def Obligations.EveryStepKeepsTheInvariant : Prop :=
  ∀ (s t : State), s.Inv → step s = .next t → t.Inv

/-- In a state that meets the invariant, every command ends with a status in its response and a next state: none aborts, hangs
or is refused, and so does every command word, one the decoder rejects too (R138). -/
def Obligations.EveryCommandEndsWithAStatus : Prop :=
  (∀ (s : State) (i : Instr), s.Inv → ∃ t r, exec i s = .next t ∧ t.response = some r) ∧
  (∀ (s : State) (w : Request) (rest : List Arrival), s.Inv → s.inbox = .command w :: rest → s.tornDown = false →
    ∃ t r, step s = .next t ∧ t.response = some r)

/-- SEL never holds an illegal value (R30): construction leaves a ROM bank below R or a RAM bank-pair 256..287, and every command
keeps one. -/
def Obligations.SelectorStaysLegal : Prop :=
  (∀ (c : Config) (image0 ram0 : Memory) (startBank : Nat), c.Valid →
    let sel := (State.construct c image0 ram0 startBank).sel
    (sel.toNat < 256 ∧ sel.toNat < c.romBanks) ∨ (256 ≤ sel.toNat ∧ sel.toNat ≤ 287)) ∧
  ∀ (s t : State) (i : Instr), s.cfg.Valid → exec i s = .next t →
    ((s.sel.toNat < 256 ∧ s.sel.toNat < s.cfg.romBanks) ∨ (256 ≤ s.sel.toNat ∧ s.sel.toNat ≤ 287)) →
    (t.sel.toNat < 256 ∧ t.sel.toNat < t.cfg.romBanks) ∨ (256 ≤ t.sel.toNat ∧ t.sel.toNat ≤ 287)

/-- Every command keeps the queue invariants (R42): a slot names a bucket exactly when that bucket holds an entry with its
address, at most one entry with a given address exists across all buckets, and no bucket holds more than C entries. -/
def Obligations.QueueInvariantsAreKept : Prop :=
  ∀ (s t : State) (i : Instr), QueueOk s → exec i s = .next t →
    (∀ a j, t.slot a = some j ↔ ∃ e ∈ t.bucket j, e.addr = a) ∧
    (∀ a, (t.buckets.flatten.filter (fun e => e.addr = a)).length ≤ 1) ∧
    (∀ j, (t.bucket j).length ≤ t.cfg.capacity)

/-- The mapping invariant (R38): CINST with LOCKED = 0 publishes every page the cartridge claims, and every command keeps a claimed
page as the cartridge publishes it for SEL as it then stands, unless it is a PTSET of that page. -/
def Obligations.MappingInvariantIsKept : Prop :=
  (∀ (s t : State), s.cfg.Valid → s.locked = false → exec .cinst s = .next t → t.Mapped) ∧
  (∀ (s t : State) (i : Instr) (p : Nat), s.cfg.Valid → p ∈ claimedPages s.cfg → s.page p = publishedFor s p →
    (∀ page desc, i = .ptset page desc → page.toNat ≠ p) → exec i s = .next t → t.page p = publishedFor t p)

/-! ## Bus commands -/

/-- BRD on a page with a read reference answers the byte the reference serves, emits no event and changes nothing (R96, R49). -/
def Obligations.BrdAnswersTheReferencedByte : Prop :=
  ∀ (s : State) (addr : Addr) (ref : DirectRef),
    (s.page (pageOf s.cfg addr)).rd = some ref → ref.base + inPage s.cfg addr < bufSize s.cfg ref.buf →
    exec (.brd addr) s =
      .next { s with
        response := some {
          status := .ok
          data := (s.bufByte ref.buf (ref.base + inPage s.cfg addr)).setWidth 16
          events := [] } }

/-- BRD on an external page without a read reference emits EXT_READ and answers the byte the device returns: the oldest value
set for it, or, where none is set, any value (R96, R102; the two sources are log 7). Nothing but the draw is used up. -/
def Obligations.BrdAsksTheExternalDevice : Prop :=
  ∀ (s : State) (addr : Addr) (k : Nat),
    (s.page (pageOf s.cfg addr)).rd = none → (s.page (pageOf s.cfg addr)).dev = .ext k →
    ∃ t v, exec (.brd addr) s = .next t ∧ Answered t .ok (BitVec.setWidth 16 (v : Byte)) [.extRead k addr] ∧
      (∀ x xs, s.draws.extVal = x :: xs → v = x ∧ t.draws = { s.draws with extVal := xs }) ∧ UnchangedBut [.draws] s t

/-- A BRD of a CART page without a read reference is a CRD, and a BWR of a CART page without a write reference is a CWR, of the
same operands (R96, R97). -/
def Obligations.BusAccessToACartridgePageRunsItsHandler : Prop :=
  (∀ (s : State) (addr : Addr), (s.page (pageOf s.cfg addr)).rd = none → (s.page (pageOf s.cfg addr)).dev = .cart →
    exec (.brd addr) s = exec (.crd addr) s) ∧
  (∀ (s : State) (addr : Addr) (data : Byte), (s.page (pageOf s.cfg addr)).wr = none →
    (s.page (pageOf s.cfg addr)).dev = .cart → exec (.bwr addr data) s = exec (.cwr addr data) s)

/-- An access to a page without the needed reference and without a device changes no state, emits no event and returns status
UNMAPPED with data 0, and the model records a fault (R98). -/
def Obligations.UnmappedAccessAnswersUnmapped : Prop :=
  (∀ (s : State) (addr : Addr), (s.page (pageOf s.cfg addr)).rd = none → (s.page (pageOf s.cfg addr)).dev = .none →
    ∃ t, exec (.brd addr) s = .next t ∧ Answered t .unmapped 0#16 [] ∧ UnchangedBut [.faults] s t ∧
      t.faults = s.faults ++ [.unmapped]) ∧
  (∀ (s : State) (addr : Addr) (data : Byte), (s.page (pageOf s.cfg addr)).wr = none →
    (s.page (pageOf s.cfg addr)).dev = .none →
    ∃ t, exec (.bwr addr data) s = .next t ∧ Answered t .unmapped 0#16 [] ∧ UnchangedBut [.faults] s t ∧
      t.faults = s.faults ++ [.unmapped])

/-- BWR on a page with a write reference stores into the byte the reference serves and into no other, reports handled = 1 and
emits no event (R97, R49). -/
def Obligations.BwrStoresThroughTheReference : Prop :=
  ∀ (s : State) (addr : Addr) (data : Byte) (ref : DirectRef),
    (s.page (pageOf s.cfg addr)).wr = some ref → ref.base + inPage s.cfg addr < bufSize s.cfg ref.buf →
    ∃ t, exec (.bwr addr data) s = .next t ∧ Answered t .ok 1#16 [] ∧
      t.bufByte ref.buf (ref.base + inPage s.cfg addr) = data ∧
      SameBytesBut ref.buf (ref.base + inPage s.cfg addr) s t ∧ UnchangedBut [.image, .ram] s t

/-- BWR on an external page without a write reference emits EXT_WRITE and reports the device's handled flag: the oldest value
set for it, or, where none is set, any value (R97, R102; log 7). No byte is stored. -/
def Obligations.BwrAsksTheExternalDevice : Prop :=
  ∀ (s : State) (addr : Addr) (data : Byte) (k : Nat),
    (s.page (pageOf s.cfg addr)).wr = none → (s.page (pageOf s.cfg addr)).dev = .ext k →
    ∃ t h, exec (.bwr addr data) s = .next t ∧
      Answered t .ok (if h then 1#16 else 0#16) [.extWrite k addr data] ∧
      (∀ x xs, s.draws.extHandled = x :: xs → h = x ∧ t.draws = { s.draws with extHandled := xs }) ∧
      UnchangedBut [.draws] s t

/-- PTSET of a descriptor that passes the three checks installs it and changes no other page (R99). -/
def Obligations.PtsetInstallsTheDescriptor : Prop :=
  ∀ (s : State) (page : BitVec 16) (desc : Descriptor),
    (desc.dev = .none → desc.rd = none ∧ desc.wr = none) →
    (∀ r, desc.rd = some r ∨ desc.wr = some r → r.base + s.cfg.pageSize ≤ bufSize s.cfg r.buf) →
    (∀ r, desc.wr = some r → r.buf ≠ .image) →
    ∃ t, exec (.ptset page desc) s = .next t ∧ Answered t .ok 0#16 [] ∧ t.page page.toNat = desc ∧
      (∀ p, p ≠ page.toNat → t.page p = s.page p) ∧ UnchangedBut [.pages] s t

/-- PTSET of a descriptor with a reference but no device, with a reference leaving its buffer, or with a write reference into
IMAGE is ILLEGAL and changes no state (R99). -/
def Obligations.PtsetRejectsIllFormedDescriptors : Prop :=
  ∀ (s : State) (page : BitVec 16) (desc : Descriptor),
    ((desc.dev = .none ∧ (desc.rd ≠ none ∨ desc.wr ≠ none)) ∨
      (∃ r, (desc.rd = some r ∨ desc.wr = some r) ∧ bufSize s.cfg r.buf < r.base + s.cfg.pageSize) ∨
      (∃ r, desc.wr = some r ∧ r.buf = .image)) →
    ∃ t, exec (.ptset page desc) s = .next t ∧ Answered t .illegal 0#16 [] ∧ UnchangedBut [.faults] s t

/-! ## Cartridge commands -/

/-- CRD outside the write port answers the byte of the ROM bank, of the RAM read port or of the fixed slice, at any address,
and changes nothing (R105, R104, R56). -/
def Obligations.CrdAnswersTheByteShown : Prop :=
  ∀ (s : State) (addr : Addr), s.cfg.Valid → SelLegal s.cfg s.sel →
    let off := addr.toNat % 4096
    let answer (v : Byte) : State := { s with response := some { status := .ok, data := v.setWidth 16, events := [] } }
    (off < 0x800 → s.sel.toNat < 256 →
      exec (.crd addr) s = .next (answer (s.bufByte .image (s.sel.toNat * 2048 + off)))) ∧
    (off < 0x400 → 256 ≤ s.sel.toNat →
      exec (.crd addr) s = .next (answer (s.bufByte .ram ((s.sel.toNat - 256) * 1024 + off)))) ∧
    (0x800 ≤ off →
      exec (.crd addr) s = .next (answer (s.bufByte .image (s.cfg.romSize - 2048 + (off - 0x800)))))

/-- The write-port read (R106): a read that runs the cartridge read handler, by CRD or by BRD on a CART page without a read
reference, at an offset 0x400-0x7FF of a RAM selection returns the floating-bus draw; with LOCKED = 0 that value is stored into
the cell the read port shows at the same place, with LOCKED = 1 no cell changes. The draw is the oldest value set, or, where none
is set, any value (log 7). -/
def Obligations.WritePortReadLatchesTheFloatingBus : Prop :=
  ∀ (s : State) (addr : Addr) (i : Instr), s.cfg.Valid → SelLegal s.cfg s.sel →
    (i = .crd addr ∨
      (i = .brd addr ∧ (s.page (pageOf s.cfg addr)).rd = none ∧ (s.page (pageOf s.cfg addr)).dev = .cart)) →
    256 ≤ s.sel.toNat → 0x400 ≤ addr.toNat % 4096 → addr.toNat % 4096 < 0x800 →
    ∃ t v, exec i s = .next t ∧ Answered t .ok (BitVec.setWidth 16 (v : Byte)) [] ∧
      (∀ x xs, s.draws.fb = x :: xs → v = x ∧ t.draws = { s.draws with fb := xs }) ∧
      (s.locked = false →
        t.bufByte .ram ((s.sel.toNat - 256) * 1024 + (addr.toNat % 4096 - 0x400)) = v ∧
        SameBytesBut .ram ((s.sel.toNat - 256) * 1024 + (addr.toNat % 4096 - 0x400)) s t) ∧
      (s.locked = true → SameBytes s t) ∧ UnchangedBut [.ram, .draws] s t

/-- CSEL runs `Select` on its operand, is always OK, emits nothing and changes no byte of either buffer (R107, R108). -/
def Obligations.CselSelects : Prop :=
  ∀ (s : State) (sel : BitVec 9),
    ∃ t, exec (.csel sel) s = .next t ∧ Answered t .ok 0#16 [] ∧ SelectRan sel.toNat s t ∧
      UnchangedBut [.sel, .pages, .changed] s t

/-- CWR selects a ROM bank at offset HS_ROM and a RAM bank-pair at offset HS_RAM when LOCKED = 0, selects nothing otherwise,
always emits CHIP_POKE with the address as received, reports handled = 0 and stores no byte (R110, R111, R112). -/
def Obligations.CwrSelectsAtHotSpotsAndAlwaysPokes : Prop :=
  ∀ (s : State) (addr : Addr) (data : Byte), s.cfg.Valid →
    ∃ t, exec (.cwr addr data) s = .next t ∧ Answered t .ok 0#16 [.chipPoke addr data] ∧
      (s.locked = false → addr.toNat % 4096 = s.cfg.hsRom → Selected data.toNat s t) ∧
      (s.locked = false → addr.toNat % 4096 = s.cfg.hsRam → Selected (data.toNat + 256) s t) ∧
      (s.locked = true ∨ (addr.toNat % 4096 ≠ s.cfg.hsRom ∧ addr.toNat % 4096 ≠ s.cfg.hsRam) → UnchangedBut [] s t) ∧
      UnchangedBut [.sel, .pages, .changed] s t

/-- CINST installs the hot-spot pages and the fixed slice, and the lower window for the start bank unless LOCKED; it changes no
other page and no byte of either buffer (R114). -/
def Obligations.CinstInstallsTheCartridge : Prop :=
  ∀ (s : State), s.cfg.Valid →
    ∃ t, exec .cinst s = .next t ∧ Answered t .ok 0#16 [] ∧
      (∀ p ∈ hotSpotPages s.cfg, t.page p = ⟨none, none, .cart⟩) ∧
      (∀ p ∈ upperPages s.cfg,
        t.page p = ⟨some ⟨.image, s.cfg.romSize - 2048 + (pageBase s.cfg p - s.cfg.windowBase - 0x800)⟩, none, .cart⟩) ∧
      (∀ p ∈ lowerPages s.cfg,
        t.page p = if s.locked then s.page p else lowerMap s.cfg (norm s.cfg s.startBank) p) ∧
      (∀ p, p ∉ claimedPages s.cfg → t.page p = s.page p) ∧
      (s.locked = false → t.sel.toNat = norm s.cfg s.startBank ∧ t.changed = true) ∧
      (s.locked = true → t.sel = s.sel ∧ t.changed = s.changed) ∧ UnchangedBut [.sel, .pages, .changed] s t

/-- CRST gives every RAM byte a random draw, index 0 upward, also under LOCKED, and runs `Select` on the start bank; IMAGE and
the queue are unchanged (R116). A byte for which no value is set is any value, so nothing is said of it (log 7). -/
def Obligations.CrstFillsRamAndSelects : Prop :=
  ∀ (s : State),
    ∃ t, exec .crst s = .next t ∧ Answered t .ok 0#16 [] ∧
      (∀ i v, i < 32768 → s.draws.rng[i]? = some v → t.bufByte .ram i = v) ∧
      t.draws = { s.draws with rng := s.draws.rng.drop 32768 } ∧ SelectRan s.startBank s t ∧
      UnchangedBut [.ram, .draws, .sel, .pages, .changed] s t

/-- CPAT changes the byte of the ROM bank, of the RAM bank-pair (through either port) or of the fixed slice, and no other, sets
CHANGED and ignores LOCKED (R118). -/
def Obligations.CpatOverridesTheByteShown : Prop :=
  ∀ (s : State) (addr : Addr) (data : Byte), s.cfg.Valid → SelLegal s.cfg s.sel →
    let off := addr.toNat % 4096
    let target : Buf × Nat :=
      if off < 0x800 then
        if s.sel.toNat < 256 then (.image, s.sel.toNat * 2048 + off)
        else (.ram, (s.sel.toNat - 256) * 1024 + off % 0x400)
      else (.image, s.cfg.romSize - 2048 + (off - 0x800))
    ∃ t, exec (.cpat addr data) s = .next t ∧ Answered t .ok 0#16 [] ∧ t.bufByte target.1 target.2 = data ∧
      SameBytesBut target.1 target.2 s t ∧ t.changed = true ∧ UnchangedBut [.image, .ram, .changed] s t

/-- CSAVE puts the tag, SEL, 32768 and the bytes of RAM in index order and changes no block state; a serializer fault at field
`j` ends it with FAIL after the fields before `j` (R120, R86). The draw is the oldest value set, or any (log 7); that a fault
stands at one of the fields 0 to 32770, counted from 0, is the model's reading of R120 (log 11, DEDUCED). -/
def Obligations.CsavePutsTheSavedFields : Prop :=
  ∀ (s : State),
    let fields : List SerField :=
      [.str s.cfg.tag, .int s.sel.toNat, .int 32768] ++ (List.range 32768).map (fun i => .byte (s.bufByte .ram i))
    ∃ t f, exec .csave s = .next t ∧
      (f = none → Answered t .ok 0#16 (fields.map .serPut)) ∧
      (∀ j : Fin saveFieldCount, f = some j → Answered t .fail 0#16 ((fields.take j.val).map .serPut)) ∧
      (∀ x xs, s.draws.serFault = x :: xs → f = x ∧ t.draws = { s.draws with serFault := xs }) ∧ UnchangedBut [.draws] s t

/-- CLOAD of a stream with the right tag, a selector, the length 32768 and that many bytes (whatever follows them) restores SEL
normalised and every RAM byte and republishes the lower window, also under LOCKED; CHANGED, LOCKED and every other page are
unchanged (R122). That items after the last byte do not matter is the model's reading of R122 (log 12, DEDUCED). -/
def Obligations.CloadRestoresTheSavedState : Prop :=
  ∀ (s : State) (n : Nat) (bytes : List Byte) (extra : List SerItem), bytes.length = 32768 →
    ∃ t, exec (.cload (.field (.str s.cfg.tag) :: .field (.int n) :: .field (.int 32768) ::
        (bytes.map (fun b => SerItem.field (.byte b)) ++ extra))) s = .next t ∧ Answered t .ok 0#16 [] ∧
      t.sel.toNat = norm s.cfg n ∧ (∀ i v, bytes[i]? = some v → t.bufByte .ram i = v) ∧
      (∀ p ∈ lowerPages s.cfg, t.page p = lowerMap s.cfg (norm s.cfg n) p) ∧
      (∀ p, p ∉ lowerPages s.cfg → t.page p = s.page p) ∧ UnchangedBut [.sel, .ram, .pages] s t

/-- CLOAD of a stream that does not begin with the string TAG ends with FAIL and changes nothing, and is no command fault
(R122, R145; C1). -/
def Obligations.CloadWithoutTheTagFails : Prop :=
  ∀ (s : State) (stream : List SerItem), (∀ rest, stream ≠ .field (.str s.cfg.tag) :: rest) →
    exec (.cload stream) s = .next { s with response := some { status := .fail, data := 0#16, events := [] } }

/-- FAILPARTIAL (R123): after a matching tag, a stream that does not go on with a selector, the length 32768 and that many bytes
ends CLOAD with FAIL, leaves SEL legal and the lower window its mapping, and leaves IMAGE, LOCKED, CHANGED, the other pages and
the queue unchanged; the model records the fault. Nothing is said of RAM, or of which legal value SEL holds. -/
def Obligations.CloadFailsPartiallyAfterTheTag : Prop :=
  ∀ (s : State) (items : List SerItem), s.cfg.Valid →
    (∀ (n : Nat) (bytes : List Byte) (extra : List SerItem), bytes.length = 32768 →
      items ≠ .field (.int n) :: .field (.int 32768) :: (bytes.map (fun b => SerItem.field (.byte b)) ++ extra)) →
    ∃ t, exec (.cload (.field (.str s.cfg.tag) :: items)) s = .next t ∧ Answered t .fail 0#16 [] ∧ SelLegal s.cfg t.sel ∧
      (∀ p ∈ lowerPages s.cfg, t.page p = lowerMap s.cfg t.sel.toNat p) ∧
      (∀ p, p ∉ lowerPages s.cfg → t.page p = s.page p) ∧ t.faults = s.faults ++ [.failPartial] ∧
      UnchangedBut [.sel, .ram, .pages, .draws, .faults] s t

/-- CLOCK writes LOCKED and nothing else, CCLR clears CHANGED and nothing else; both are always OK (R124, R125). -/
def Obligations.ClockAndCclrWriteTheirFlag : Prop :=
  (∀ (s : State) (lk : Bool), exec (.clock lk) s =
    .next { s with locked := lk, response := some { status := .ok, data := 0#16, events := [] } }) ∧
  (∀ (s : State), exec .cclr s =
    .next { s with changed := false, response := some { status := .ok, data := 0#16, events := [] } })

/-- CSTAT answers SEL in data[8:0], LOCKED in data[9] and CHANGED in data[10], 0 above, and changes nothing (R126, R75). -/
def Obligations.CstatAnswersTheRegisters : Prop :=
  ∀ (s : State), ∃ data : BitVec 16,
    exec .cstat s = .next { s with response := some { status := .ok, data := data, events := [] } } ∧
    data.toNat = s.sel.toNat + 512 * s.locked.toNat + 1024 * s.changed.toNat

/-! ## Delay queue commands -/

/-- QPUSH with a delay in `1..L` and room in its bucket takes any older entry for the address out of its bucket, the others in
order, and appends the new one to the tail of bucket `(CURSOR + d - 1) mod L` (R131, R132, R84). -/
def Obligations.QpushSchedulesAndReplaces : Prop :=
  ∀ (s : State) (a : BitVec 8) (v : Byte) (d : BitVec 8), QueueOk s → 1 ≤ d.toNat → d.toNat ≤ s.cfg.horizon →
    let j := (s.cursor + d.toNat - 1) % s.cfg.horizon
    (s.bucket j).length - (if s.slot a = some j then 1 else 0) + 1 ≤ s.cfg.capacity →
    ∃ t, exec (.qpush a v d) s = .next t ∧ Answered t .ok 0#16 [] ∧
      t.bucket j = (s.bucket j).filter (fun e => e.addr ≠ a) ++ [{ addr := a, value := v }] ∧
      (∀ k, k ≠ j → t.bucket k = (s.bucket k).filter (fun e => e.addr ≠ a)) ∧
      t.slot a = some j ∧ (∀ a', a' ≠ a → t.slot a' = s.slot a') ∧ UnchangedBut [.buckets, .index] s t

/-- QPUSH answers QRANGE for a delay of 0 or above L, and QFULL, checked after it, when the bucket would hold more than C
entries; both change nothing, and the model records the fault (R131, R142, R143). -/
def Obligations.QpushRejectsOutOfRangeAndFull : Prop :=
  ∀ (s : State) (a : BitVec 8) (v : Byte) (d : BitVec 8),
    let j := (s.cursor + d.toNat - 1) % s.cfg.horizon
    (d.toNat = 0 ∨ s.cfg.horizon < d.toNat →
      ∃ t, exec (.qpush a v d) s = .next t ∧ Answered t .qRange 0#16 [] ∧ UnchangedBut [.faults] s t ∧
        t.faults = s.faults ++ [.qRange]) ∧
    (1 ≤ d.toNat → d.toNat ≤ s.cfg.horizon →
      s.cfg.capacity < (s.bucket j).length - (if s.slot a = some j then 1 else 0) + 1 →
      ∃ t, exec (.qpush a v d) s = .next t ∧ Answered t .qFull 0#16 [] ∧ UnchangedBut [.faults] s t ∧
        t.faults = s.faults ++ [.qFull])

/-- QEXEC emits FIRE for every entry of the current bucket in insertion order, empties that bucket, clears the slots of the
addresses fired and advances CURSOR by one modulo L (R133). -/
def Obligations.QexecDeliversTheCurrentBucket : Prop :=
  ∀ (s : State),
    ∃ t, exec .qexec s = .next t ∧
      Answered t .ok 0#16 ((s.bucket s.cursor).map (fun e => Event.fire e.addr e.value)) ∧
      t.bucket s.cursor = [] ∧ (∀ k, k ≠ s.cursor → t.bucket k = s.bucket k) ∧
      (∀ a, (∃ e ∈ s.bucket s.cursor, e.addr = a) → t.slot a = none) ∧
      (∀ a, (¬ ∃ e ∈ s.bucket s.cursor, e.addr = a) → t.slot a = s.slot a) ∧
      t.cursor = (s.cursor + 1) % s.cfg.horizon ∧ UnchangedBut [.buckets, .index, .cursor] s t

/-- QRST empties every bucket and clears every slot, emits no event and leaves CURSOR as it is (R136). -/
def Obligations.QrstClearsTheQueue : Prop :=
  ∀ (s : State),
    ∃ t, exec .qrst s = .next t ∧ Answered t .ok 0#16 [] ∧ (∀ j, t.bucket j = []) ∧
      t.buckets.length = s.buckets.length ∧ (∀ a, t.slot a = none) ∧ UnchangedBut [.buckets, .index] s t

/-! ## Rules of the whole machine -/

/-- The eleven commands that store no byte leave every byte of IMAGE and RAM as it was (R22, R62, R108, R110, R136). -/
def Obligations.CommandsThatStoreNothingKeepEveryByte : Prop :=
  ∀ (s t : State) (i : Instr), exec i s = .next t →
    ((∃ addr data, i = .cwr addr data) ∨ (∃ page desc, i = .ptset page desc) ∨ i = .cinst ∨ (∃ sel, i = .csel sel) ∨
      i = .csave ∨ (∃ lk, i = .clock lk) ∨ i = .cclr ∨ i = .cstat ∨ (∃ a v d, i = .qpush a v d) ∨ i = .qexec ∨ i = .qrst) →
    SameBytes s t

/-- IMAGE is never mutated except by CPAT (R21): from a well-formed page table every other command leaves every byte of it. -/
def Obligations.OnlyPatchChangesTheImage : Prop :=
  ∀ (s t : State) (i : Instr), PageTableOk s.cfg s.pt → exec i s = .next t → (∀ addr data, i ≠ .cpat addr data) →
    ∀ j, t.bufByte .image j = s.bufByte .image j

/-- LOCKED is written only by CLOCK, and no command writes START_BANK or a parameter (R32, R31, R7-R14). -/
def Obligations.OnlyClockWritesLocked : Prop :=
  ∀ (s t : State) (i : Instr), exec i s = .next t →
    t.cfg = s.cfg ∧ t.startBank = s.startBank ∧ (∀ lk, i = .clock lk → t.locked = lk) ∧
    ((∀ lk, i ≠ .clock lk) → t.locked = s.locked)

/-- CHANGED is set to 1 by every successful selection and by every CPAT, is cleared only by CCLR, and no other command writes it;
it is 0 at construction, and CRST sets it when LOCKED = 0 (R33). -/
def Obligations.ChangedIsWrittenAsStated : Prop :=
  (∀ (c : Config) (image0 ram0 : Memory) (startBank : Nat), (State.construct c image0 ram0 startBank).changed = false) ∧
  ∀ (s t : State) (i : Instr), exec i s = .next t →
    let hit (addr : Addr) : Prop := addr.toNat % 4096 = s.cfg.hsRom ∨ addr.toNat % 4096 = s.cfg.hsRam
    let selects : Prop := s.locked = false ∧
      (i = .cinst ∨ i = .crst ∨ (∃ sel, i = .csel sel) ∨ (∃ addr data, i = .cwr addr data ∧ hit addr) ∨
        (∃ addr data, i = .bwr addr data ∧ (s.page (pageOf s.cfg addr)).wr = none ∧
          (s.page (pageOf s.cfg addr)).dev = .cart ∧ hit addr))
    let patches : Prop := ∃ addr data, i = .cpat addr data
    (selects ∨ patches → t.changed = true) ∧ (i = .cclr → t.changed = false) ∧
    (¬ selects → ¬ patches → i ≠ .cclr → t.changed = s.changed)

/-- CURSOR is written only by QEXEC, which advances it by one modulo L and so keeps it in `0..L-1`; it is 0 at construction, and
QRST leaves it unchanged (R40). -/
def Obligations.OnlyQexecMovesTheCursor : Prop :=
  (∀ (c : Config) (image0 ram0 : Memory) (startBank : Nat), (State.construct c image0 ram0 startBank).cursor = 0) ∧
  ∀ (s t : State) (i : Instr), exec i s = .next t →
    (i = .qexec → t.cursor = (s.cursor + 1) % s.cfg.horizon) ∧ (i ≠ .qexec → t.cursor = s.cursor) ∧
    (s.cursor < s.cfg.horizon → t.cursor < s.cfg.horizon)

/-- Claim locality (R101): PTSET writes its own page only; CINST writes the hot-spot and upper-window pages, and lower-window pages
through its selection; a successful selection by CSEL, CRST, a CWR or a BWR that reaches the write handler at a hot-spot offset, and
a CLOAD, write lower-window pages only; no other command writes a page. -/
def Obligations.PagesAreWrittenOnlyByTheirClaim : Prop :=
  ∀ (s t : State) (i : Instr), exec i s = .next t → ∀ p, t.page p ≠ s.page p →
    (∃ page desc, i = .ptset page desc ∧ p = page.toNat) ∨
    (i = .cinst ∧ (p ∈ hotSpotPages s.cfg ∨ p ∈ upperPages s.cfg)) ∨
    (p ∈ lowerPages s.cfg ∧ ∃ stream, i = .cload stream) ∨
    (p ∈ lowerPages s.cfg ∧ s.locked = false ∧
      (i = .cinst ∨ i = .crst ∨ (∃ sel, i = .csel sel) ∨
        (∃ addr data, (addr.toNat % 4096 = s.cfg.hsRom ∨ addr.toNat % 4096 = s.cfg.hsRam) ∧
          (i = .cwr addr data ∨
            (i = .bwr addr data ∧ (s.page (pageOf s.cfg addr)).wr = none ∧
              (s.page (pageOf s.cfg addr)).dev = .cart)))))

/-- While LOCKED = 1 the mapping is frozen (R127): a CSEL, a write that runs the cartridge write handler, a CINST and a CRST change
neither SEL nor CHANGED nor a lower-window page, and a read that runs the cartridge read handler stores nothing; a CLOAD that
succeeds still republishes, CPAT still patches, and the write handler still emits CHIP_POKE. -/
def Obligations.LockFreezesTheMapping : Prop :=
  ∀ (s : State), s.cfg.Valid → SelLegal s.cfg s.sel → s.locked = true →
    let writes (i : Instr) (addr : Addr) (data : Byte) : Prop :=
      i = .cwr addr data ∨
        (i = .bwr addr data ∧ (s.page (pageOf s.cfg addr)).wr = none ∧ (s.page (pageOf s.cfg addr)).dev = .cart)
    let reads (i : Instr) (addr : Addr) : Prop :=
      i = .crd addr ∨ (i = .brd addr ∧ (s.page (pageOf s.cfg addr)).rd = none ∧ (s.page (pageOf s.cfg addr)).dev = .cart)
    (∀ i, ((∃ sel, i = .csel sel) ∨ (∃ addr data, writes i addr data) ∨ i = .cinst ∨ i = .crst) →
      ∃ t, exec i s = .next t ∧ t.sel = s.sel ∧ t.changed = s.changed ∧ ∀ p ∈ lowerPages s.cfg, t.page p = s.page p) ∧
    (∀ i addr, reads i addr → ∃ t, exec i s = .next t ∧ SameBytes s t) ∧
    (∀ (n : Nat) (bytes : List Byte), bytes.length = 32768 →
      ∃ t, exec (.cload (.field (.str s.cfg.tag) :: .field (.int n) :: .field (.int 32768) ::
          bytes.map (fun b => SerItem.field (.byte b)))) s = .next t ∧
        ∀ p ∈ lowerPages s.cfg, t.page p = lowerMap s.cfg (norm s.cfg n) p) ∧
    (∀ addr data, ∃ t, exec (.cpat addr data) s = .next t ∧
      t.bufByte (patchTarget s.cfg s.sel.toNat (localOffset addr)).1 (patchTarget s.cfg s.sel.toNat (localOffset addr)).2 =
        data) ∧
    (∀ i addr data, writes i addr data → ∃ t, exec i s = .next t ∧ Answered t .ok 0#16 [.chipPoke addr data])

/-- Every rejection is precise (R146): a command that ends with a status other than OK leaves every piece of the block's state as
it found it, except a CLOAD that fails after its tag matched (FAILPARTIAL, R123), and emits no event, except the fields a failed
CSAVE put before the fault. -/
def Obligations.RejectionsArePrecise : Prop :=
  ∀ (s t : State) (i : Instr) (r : Response), exec i s = .next t → t.response = some r → r.status ≠ .ok →
    (SameBlock s t ∨ ((∃ items, i = .cload (.field (.str s.cfg.tag) :: items)) ∧ r.status = .fail)) ∧
    (r.events = [] ∨
      (i = .csave ∧ ∃ n, r.events =
        (((([.str s.cfg.tag, .int s.sel.toNat, .int 32768] : List SerField) ++
          (List.range 32768).map (fun i => SerField.byte (s.bufByte .ram i))).take n).map .serPut)))

/-- What the model records (R145): ILLEGAL, UNMAPPED, QRANGE and QFULL each add the fault of their name, OK adds none, and FAIL
adds none with the block unchanged, or FAILPARTIAL. -/
def Obligations.CommandFaultsAreRecorded : Prop :=
  ∀ (s t : State) (i : Instr) (r : Response), exec i s = .next t → t.response = some r →
    (r.status = .ok → t.faults = s.faults) ∧ (r.status = .illegal → t.faults = s.faults ++ [.illegal]) ∧
    (r.status = .unmapped → t.faults = s.faults ++ [.unmapped]) ∧ (r.status = .qRange → t.faults = s.faults ++ [.qRange]) ∧
    (r.status = .qFull → t.faults = s.faults ++ [.qFull]) ∧
    (r.status = .fail → (t.faults = s.faults ∧ SameBlock s t) ∨ t.faults = s.faults ++ [.failPartial])

/-! ## Headline rules -/

/-- `norm` (R36): its two cases, that its value is always a legal selector, that `r mod 32` names the same bank-pair from the
selector as from the written value, and that no ROM bank above 255 is ever selected. -/
def Obligations.NormalisationIsTotalAndLegal : Prop :=
  ∀ (c : Config) (n : Nat), c.Valid →
    (n < 256 → norm c n = n % c.romBanks) ∧ (256 ≤ n → norm c n = 256 + (n - 256) % 32) ∧
    SelLegal c (normSel c n) ∧ (normSel c n).toNat = norm c n ∧
    (256 ≤ n → ramBase (norm c n) = (n % 32) * 1024) ∧ (norm c n < 256 ∨ (256 ≤ norm c n ∧ norm c n ≤ 287))

/-- Fast-path equivalence (R100): for a page the cartridge publishes with a read reference, the byte the reference serves at every
address of the page is the byte CRD returns in the same state, where CRD changes nothing; and a direct write through a published
write reference stores into the cell CRD reads at the mirrored read-port offset. -/
def Obligations.FastPathEqualsTheHandler : Prop :=
  ∀ (s : State), s.cfg.Valid → SelLegal s.cfg s.sel →
    (∀ (addr : Addr) (ref : DirectRef),
      ((pageOf s.cfg addr ∈ lowerPages s.cfg ∧ (lowerMap s.cfg s.sel.toNat (pageOf s.cfg addr)).rd = some ref) ∨
        (pageOf s.cfg addr ∈ upperPages s.cfg ∧ (upperMap s.cfg (pageOf s.cfg addr)).rd = some ref)) →
      exec (.crd addr) s =
        .next { s with
          response := some {
            status := .ok
            data := (s.bufByte ref.buf (ref.base + inPage s.cfg addr)).setWidth 16
            events := [] } }) ∧
    (∀ (addr mirror : Addr) (ref : DirectRef) (data : Byte) (t : State),
      pageOf s.cfg addr ∈ lowerPages s.cfg → (lowerMap s.cfg s.sel.toNat (pageOf s.cfg addr)).wr = some ref →
      s.page (pageOf s.cfg addr) = lowerMap s.cfg s.sel.toNat (pageOf s.cfg addr) →
      mirror.toNat + 0x400 = addr.toNat → exec (.bwr addr data) s = .next t →
      ∃ u, exec (.crd mirror) t = .next u ∧ Answered u .ok (data.setWidth 16) [])

/-- After a CSEL with LOCKED = 0, a bus read of the banked segment returns, for a ROM selector `b`, byte `(b mod R) * 2048 + o` of
IMAGE and, for a RAM selector `r` in the read port, byte `(r mod 32) * 1024 + o` of RAM, each as it stood before (R109 a and b). -/
def Obligations.SelectedBankIsRead : Prop :=
  ∀ (s : State) (sel : BitVec 9) (o : Nat) (addr : Addr), s.cfg.Valid → s.locked = false → addr.toNat = s.cfg.windowBase + o →
    ∃ t, exec (.csel sel) s = .next t ∧
      (sel.toNat < 256 → o < 0x800 →
        ∃ u, exec (.brd addr) t = .next u ∧
          Answered u .ok ((s.bufByte .image ((sel.toNat % s.cfg.romBanks) * 2048 + o)).setWidth 16) []) ∧
      (256 ≤ sel.toNat → o < 0x400 →
        ∃ u, exec (.brd addr) t = .next u ∧
          Answered u .ok ((s.bufByte .ram ((sel.toNat % 32) * 1024 + o)).setWidth 16) [])

/-- Selecting the same bank twice gives the same page table and leaves both buffers untouched; the selector R selects bank 0, and the
selector R - 1 the last slice, each as far as a CSEL can name it (R109 c and d). -/
def Obligations.SelectionIsIdempotentAndWraps : Prop :=
  (∀ (s t : State) (sel : BitVec 9), s.locked = false → exec (.csel sel) s = .next t →
    ∃ u, exec (.csel sel) t = .next u ∧ u.sel = t.sel ∧ (∀ p, u.page p = t.page p) ∧ SameBytes s u) ∧
  (∀ (s : State) (sel : BitVec 9), s.cfg.Valid → s.locked = false → sel.toNat < 256 →
    (sel.toNat = s.cfg.romBanks → ∃ t, exec (.csel sel) s = .next t ∧ t.sel = 0#9) ∧
    (sel.toNat + 1 = s.cfg.romBanks → ∃ t, exec (.csel sel) s = .next t ∧ t.sel = sel ∧
      romBase t.sel.toNat = s.cfg.romSize - 2048))

/-- In a RAM selection a bus write at `WINDOW_BASE + 0x400 + i` is returned by the next bus read at `WINDOW_BASE + i` (R67). -/
def Obligations.WritePortIsReadAtTheReadPort : Prop :=
  ∀ (s : State) (i : Nat) (data : Byte) (wAddr rAddr : Addr), s.Inv → s.Mapped → 256 ≤ s.sel.toNat → i < 0x400 →
    wAddr.toNat = s.cfg.windowBase + 0x400 + i → rAddr.toNat = s.cfg.windowBase + i →
    ∃ t u, exec (.bwr wAddr data) s = .next t ∧ exec (.brd rAddr) t = .next u ∧ Answered u .ok (data.setWidth 16) []

/-- CPAT changes one byte, the one at `patchTarget`: off the write port it is the byte CRD returns at the same address in the same
state, and on the write port, where CRD returns a draw, it is the cell that read latches when it may, that is in the same state
unlocked (R119, R106). CPAT itself does so locked or not. -/
def Obligations.PatchChangesTheByteCrdReads : Prop :=
  ∀ (s : State) (addr : Addr) (data : Byte), s.cfg.Valid → SelLegal s.cfg s.sel →
    let target := patchTarget s.cfg s.sel.toNat (localOffset addr)
    let onWritePort := 256 ≤ s.sel.toNat ∧ 0x400 ≤ addr.toNat % 4096 ∧ addr.toNat % 4096 < 0x800
    (∃ t, exec (.cpat addr data) s = .next t ∧ t.bufByte target.1 target.2 = data ∧ SameBytesBut target.1 target.2 s t) ∧
    (¬ onWritePort →
      ∃ u, exec (.crd addr) s = .next u ∧ Answered u .ok ((s.bufByte target.1 target.2).setWidth 16) []) ∧
    (onWritePort →
      ∃ u v, exec (.crd addr) { s with locked := false } = .next u ∧ Answered u .ok (BitVec.setWidth 16 (v : Byte)) [] ∧
        u.bufByte target.1 target.2 = v ∧ SameBytesBut target.1 target.2 s u)

/-- After an accepted QPUSH the buckets hold exactly one entry with its address, the new one: what was pending is cancelled (R132,
R176; replacing is decision D23). -/
def Obligations.AcceptedPushIsTheOnlyPendingEntry : Prop :=
  ∀ (s t : State) (a : BitVec 8) (v : Byte) (d : BitVec 8), QueueOk s → exec (.qpush a v d) s = .next t →
    t.status = some .ok → t.buckets.flatten.filter (fun e => e.addr = a) = [{ addr := a, value := v }]

/-- The fire-time law (R134): an entry accepted by QPUSH with delay `d` fires during exactly the `d`-th QEXEC after that push,
once, and no FIRE for its address comes in any other, whatever commands come between, as long as none of them is an accepted QPUSH
for the same address or a QRST. The time does not depend on CURSOR. -/
def Obligations.EntryFiresAtItsCycleOnly : Prop :=
  ∀ (s t u w : State) (a : BitVec 8) (v : Byte) (d : BitVec 8) (between : List Instr), QueueOk s →
    exec (.qpush a v d) s = .next t → t.status = some .ok → runWithoutCancel a between t = some u → exec .qexec u = .next w →
    (cyclesIn between + 1 = d.toNat → w.events.filter (Event.isFireOf a) = [.fire a v]) ∧
    (cyclesIn between + 1 ≠ d.toNat → ∀ v', Event.fire a v' ∉ w.events)

/-- Save then load (95_test_vectors.md W3): the fields a CSAVE without a serializer fault puts, given to a CLOAD in any state of a
cartridge with the same parameters, reproduce every RAM byte and the bank selection. -/
def Obligations.SaveThenLoadRestoresTheCartridge : Prop :=
  ∀ (s t u : State) (fields : List SerField), SelLegal s.cfg s.sel → u.cfg = s.cfg → exec .csave s = .next t →
    Answered t .ok 0#16 (fields.map .serPut) →
    ∃ w, exec (.cload (fields.map .field)) u = .next w ∧ Answered w .ok 0#16 [] ∧ w.sel = s.sel ∧
      ∀ i, i < 32768 → w.bufByte .ram i = s.bufByte .ram i

/-- The pseudo-commands SELROM and SELRAM (R88): the hot-spot address exists, lies in the hot-spot range and has the local offset
asked for, and on the published mapping with LOCKED = 0 the bus write selects the bank and pokes the chip. -/
def Obligations.PseudoSelectReachesTheHotSpot : Prop :=
  ∀ (c : Config) (v : Byte), c.Valid →
    (∀ o, o = c.hsRom ∨ o = c.hsRam →
      c.hsBase ≤ c.hsAddr o ∧ c.hsAddr o < c.hsBase + c.hsSize ∧ c.hsAddr o % 4096 = o ∧
      ∀ a, c.hsBase ≤ a → a % 4096 = o → c.hsAddr o ≤ a) ∧
    (∀ s : State, s.cfg = c → s.Mapped → s.locked = false →
      (∃ t, exec (pseudoSelRom c v) s = .next t ∧ Selected v.toNat s t ∧
        Answered t .ok 0#16 [.chipPoke (BitVec.ofNat 16 (c.hsAddr c.hsRom)) v]) ∧
      (∃ t, exec (pseudoSelRam c v) s = .next t ∧ Selected (v.toNat + 256) s t ∧
        Answered t .ok 0#16 [.chipPoke (BitVec.ofNat 16 (c.hsAddr c.hsRam)) v]))
end

