-- ==== Sys2Proof/Laws/Sparse.lean ====
section
/-! SUPPORT. Sparse maps: what a lookup finds after an insert, an erase or a listing, and that each keeps the canonical form. -/

namespace Sys2Proof.Machine

variable {α : Type}

@[simp] theorem Sparse.lookup_nil (k : Nat) : Sparse.lookup k ([] : Sparse α) = none := rfl

/-- A lookup after an insert finds the new value at its key and the old ones elsewhere. -/
theorem Sparse.lookup_insert (m : Sparse α) (k k' : Nat) (v : α) :
    Sparse.lookup k' (Sparse.insert k v m) = if k' = k then some v else Sparse.lookup k' m := by
  induction m with
  | nil => simp [Sparse.insert, Sparse.lookup]
  | cons x rest ih =>
    obtain ⟨kx, vx⟩ := x
    by_cases h1 : k < kx
    · simp only [Sparse.insert, if_pos h1, Sparse.lookup]
    · by_cases h2 : k = kx
      · subst h2
        simp only [Sparse.insert, lt_irrefl, ↓reduceIte, Sparse.lookup]
        split <;> rfl
      · simp only [Sparse.insert, if_neg h1, if_neg h2, Sparse.lookup, ih]
        by_cases h3 : k' = kx
        · subst h3
          simp [Ne.symm h2]
        · simp [h3]

@[simp] theorem Sparse.lookup_insert_self (m : Sparse α) (k : Nat) (v : α) :
    Sparse.lookup k (Sparse.insert k v m) = some v := by
  simp [Sparse.lookup_insert]

theorem Sparse.lookup_insert_of_ne (m : Sparse α) {k k' : Nat} (v : α) (h : k' ≠ k) :
    Sparse.lookup k' (Sparse.insert k v m) = Sparse.lookup k' m := by
  simp [Sparse.lookup_insert, h]

/-- A lookup after an erase finds nothing at its key and the old values elsewhere. -/
theorem Sparse.lookup_erase (m : Sparse α) (k k' : Nat) :
    Sparse.lookup k' (Sparse.erase k m) = if k' = k then none else Sparse.lookup k' m := by
  induction m with
  | nil => simp [Sparse.erase]
  | cons x rest ih =>
    obtain ⟨kx, vx⟩ := x
    by_cases h : k = kx
    · subst h
      simp only [Sparse.erase, ↓reduceIte, ih, Sparse.lookup]
      split <;> simp_all
    · simp only [Sparse.erase, if_neg h, Sparse.lookup, ih]
      by_cases h3 : k' = kx
      · subst h3
        simp [Ne.symm h]
      · simp [h3]

/-- The listing of `vs` from key `k` holds `vs[i - k]` at key `i`. -/
theorem Sparse.lookup_ofList (vs : List α) (k i : Nat) :
    Sparse.lookup i (Sparse.ofList k vs) = if k ≤ i then vs[i - k]? else none := by
  induction vs generalizing k with
  | nil => simp [Sparse.ofList]
  | cons v vs ih =>
    simp only [Sparse.ofList, Sparse.lookup, ih]
    by_cases h : i = k
    · subst h
      simp
    · by_cases h2 : k ≤ i
      · have h3 : i - k = (i - (k + 1)) + 1 := by omega
        rw [if_neg h, if_pos (by omega), if_pos h2, h3, List.getElem?_cons_succ]
      · rw [if_neg h, if_neg (by omega), if_neg h2]

/-- The members of an insert are the new pair and members of the old map. -/
theorem Sparse.mem_insert {m : Sparse α} {k : Nat} {v : α} {x : Nat × α} (h : x ∈ Sparse.insert k v m) :
    x = (k, v) ∨ x ∈ m := by
  induction m with
  | nil => simpa [Sparse.insert] using h
  | cons y rest ih =>
    obtain ⟨ky, vy⟩ := y
    simp only [Sparse.insert] at h
    split at h
    · simpa using h
    · split at h
      · rcases List.mem_cons.mp h with h | h
        · exact .inl h
        · exact .inr (List.mem_cons_of_mem _ h)
      · rcases List.mem_cons.mp h with h | h
        · exact .inr (by simp [h])
        · rcases ih h with h | h
          · exact .inl h
          · exact .inr (List.mem_cons_of_mem _ h)

/-- The members of an erase are members of the old map. -/
theorem Sparse.mem_erase {m : Sparse α} {k : Nat} {x : Nat × α} (h : x ∈ Sparse.erase k m) : x ∈ m := by
  induction m with
  | nil => simp [Sparse.erase] at h
  | cons y rest ih =>
    obtain ⟨ky, vy⟩ := y
    simp only [Sparse.erase] at h
    split at h
    · exact List.mem_cons_of_mem _ (ih h)
    · rcases List.mem_cons.mp h with h | h
      · simp [h]
      · exact List.mem_cons_of_mem _ (ih h)

/-- An insert keeps the canonical order. -/
theorem Sparse.sorted_insert {m : Sparse α} (k : Nat) (v : α) (h : Sparse.Sorted m) : Sparse.Sorted (Sparse.insert k v m) := by
  induction m with
  | nil => simp [Sparse.insert, Sparse.Sorted]
  | cons y rest ih =>
    obtain ⟨ky, vy⟩ := y
    obtain ⟨hy, hrest⟩ := List.pairwise_cons.mp h
    simp only [Sparse.insert]
    split
    · rename_i hlt
      refine List.pairwise_cons.mpr ⟨?_, h⟩
      intro z hz
      rcases List.mem_cons.mp hz with hz | hz
      · simpa [hz] using hlt
      · exact lt_trans hlt (hy z hz)
    · split
      · rename_i heq
        subst heq
        exact List.pairwise_cons.mpr ⟨hy, hrest⟩
      · rename_i h1 h2
        refine List.pairwise_cons.mpr ⟨?_, ih hrest⟩
        intro z hz
        rcases Sparse.mem_insert hz with hz | hz
        · simp only [hz]
          omega
        · exact hy z hz

/-- An erase keeps the canonical order. -/
theorem Sparse.sorted_erase {m : Sparse α} (k : Nat) (h : Sparse.Sorted m) : Sparse.Sorted (Sparse.erase k m) := by
  induction m with
  | nil => simp [Sparse.erase, Sparse.Sorted]
  | cons y rest ih =>
    obtain ⟨ky, vy⟩ := y
    obtain ⟨hy, hrest⟩ := List.pairwise_cons.mp h
    simp only [Sparse.erase]
    split
    · exact ih hrest
    · exact List.pairwise_cons.mpr ⟨fun z hz => hy z (Sparse.mem_erase hz), ih hrest⟩

theorem Sparse.below_insert {m : Sparse α} {k n : Nat} (v : α) (hk : k < n) (h : Sparse.Below n m) :
    Sparse.Below n (Sparse.insert k v m) := by
  intro x hx
  rcases Sparse.mem_insert hx with hx | hx
  · simpa [hx] using hk
  · exact h x hx

theorem Sparse.below_erase {m : Sparse α} {n : Nat} (k : Nat) (h : Sparse.Below n m) :
    Sparse.Below n (Sparse.erase k m) := fun x hx => h x (Sparse.mem_erase hx)

/-- The keys of a listing from `k` lie in `k..k + length - 1`. -/
theorem Sparse.mem_ofList {vs : List α} {k : Nat} {x : Nat × α} (h : x ∈ Sparse.ofList k vs) :
    k ≤ x.1 ∧ x.1 < k + vs.length := by
  induction vs generalizing k with
  | nil => simp [Sparse.ofList] at h
  | cons v vs ih =>
    simp only [Sparse.ofList] at h
    rcases List.mem_cons.mp h with h | h
    · simp [h]
    · have := ih h
      simp only [List.length_cons]
      omega

/-- A listing is in canonical order. -/
theorem Sparse.sorted_ofList (vs : List α) (k : Nat) : Sparse.Sorted (Sparse.ofList k vs) := by
  induction vs generalizing k with
  | nil => simp [Sparse.ofList, Sparse.Sorted]
  | cons v vs ih =>
    refine List.pairwise_cons.mpr ⟨?_, ih (k + 1)⟩
    intro z hz
    have := (Sparse.mem_ofList hz).1
    show k < z.1
    omega

/-- In a canonical map, a listed pair is what the lookup of its key finds. -/
theorem Sparse.lookup_of_mem {m : Sparse α} (h : Sparse.Sorted m) {x : Nat × α} (hx : x ∈ m) :
    Sparse.lookup x.1 m = some x.2 := by
  induction m with
  | nil => simp at hx
  | cons y rest ih =>
    obtain ⟨ky, vy⟩ := y
    obtain ⟨hy, hrest⟩ := List.pairwise_cons.mp h
    rcases List.mem_cons.mp hx with hx | hx
    · simp [hx, Sparse.lookup]
    · have := hy x hx
      have hne : x.1 ≠ ky := by
        have : ky < x.1 := this
        omega
      simp [Sparse.lookup, hne, ih hrest hx]

/-- What a lookup finds is listed. -/
theorem Sparse.mem_of_lookup {m : Sparse α} {k : Nat} {v : α} (h : Sparse.lookup k m = some v) : (k, v) ∈ m := by
  induction m with
  | nil => simp at h
  | cons y rest ih =>
    obtain ⟨ky, vy⟩ := y
    simp only [Sparse.lookup] at h
    split at h
    · rename_i heq
      simp_all
    · exact List.mem_cons_of_mem _ (ih h)

/-- Canonical maps with the same lookups are the same list: equal maps are equal data. -/
theorem Sparse.ext_of_lookup {m m' : Sparse α} (hm : Sparse.Sorted m) (hm' : Sparse.Sorted m')
    (h : ∀ k, Sparse.lookup k m = Sparse.lookup k m') : m = m' := by
  have key : ∀ {a b : Sparse α}, Sparse.Sorted a → (∀ k, Sparse.lookup k a = Sparse.lookup k b) → a ⊆ b := by
    intro a b ha hab x hx
    have := hab x.1
    rw [Sparse.lookup_of_mem ha hx] at this
    exact Sparse.mem_of_lookup this.symm
  have nd : ∀ {a : Sparse α}, Sparse.Sorted a → a.Nodup := by
    intro a ha
    exact List.Pairwise.imp (fun {x y} hxy heq => by simp [heq] at hxy) ha
  have hperm : m.Perm m' :=
    (List.perm_ext_iff_of_nodup (nd hm) (nd hm')).mpr
      (fun x => ⟨fun hx => key hm h hx, fun hx => key hm' (fun k => (h k).symm) hx⟩)
  exact hperm.eq_of_pairwise (fun a b _ _ h1 h2 => absurd h2 (by omega)) hm hm'

end Sys2Proof.Machine
end

