-- ==== Sys2Proof/Laws/State.lean ====
section
/-! SUPPORT. One lemma per field per update of the state, and per observer (a byte, a page, a slot, a bucket), so that no
later proof unfolds a record update. -/

namespace Sys2Proof.Machine

variable (s : State)

/-! ## setLocked -/

@[simp] theorem setLocked_cfg (lk : Bool) : (s.setLocked lk).cfg = s.cfg := rfl
@[simp] theorem setLocked_image (lk : Bool) : (s.setLocked lk).image = s.image := rfl
@[simp] theorem setLocked_ram (lk : Bool) : (s.setLocked lk).ram = s.ram := rfl
@[simp] theorem setLocked_imagesReleased (lk : Bool) : (s.setLocked lk).imagesReleased = s.imagesReleased := rfl
@[simp] theorem setLocked_ramFill (lk : Bool) : (s.setLocked lk).ramFill = s.ramFill := rfl
@[simp] theorem setLocked_pt (lk : Bool) : (s.setLocked lk).pt = s.pt := rfl
@[simp] theorem setLocked_sel (lk : Bool) : (s.setLocked lk).sel = s.sel := rfl
@[simp] theorem setLocked_startBank (lk : Bool) : (s.setLocked lk).startBank = s.startBank := rfl
@[simp] theorem setLocked_locked (lk : Bool) : (s.setLocked lk).locked = lk := rfl
@[simp] theorem setLocked_changed (lk : Bool) : (s.setLocked lk).changed = s.changed := rfl
@[simp] theorem setLocked_buckets (lk : Bool) : (s.setLocked lk).buckets = s.buckets := rfl
@[simp] theorem setLocked_cursor (lk : Bool) : (s.setLocked lk).cursor = s.cursor := rfl
@[simp] theorem setLocked_index (lk : Bool) : (s.setLocked lk).index = s.index := rfl
@[simp] theorem setLocked_inbox (lk : Bool) : (s.setLocked lk).inbox = s.inbox := rfl
@[simp] theorem setLocked_response (lk : Bool) : (s.setLocked lk).response = s.response := rfl
@[simp] theorem setLocked_tornDown (lk : Bool) : (s.setLocked lk).tornDown = s.tornDown := rfl
@[simp] theorem setLocked_faults (lk : Bool) : (s.setLocked lk).faults = s.faults := rfl
@[simp] theorem setLocked_draws (lk : Bool) : (s.setLocked lk).draws = s.draws := rfl
@[simp] theorem setLocked_bufByte (lk : Bool) (b : Buf) (i : Nat) : (s.setLocked lk).bufByte b i = s.bufByte b i := by cases b <;> rfl
@[simp] theorem setLocked_page (lk : Bool) (p : Nat) : (s.setLocked lk).page p = s.page p := rfl
@[simp] theorem setLocked_slot (lk : Bool) (a : BitVec 8) : (s.setLocked lk).slot a = s.slot a := rfl
@[simp] theorem setLocked_bucket (lk : Bool) (j : Nat) : (s.setLocked lk).bucket j = s.bucket j := rfl

/-! ## markChanged -/

@[simp] theorem markChanged_cfg : s.markChanged.cfg = s.cfg := rfl
@[simp] theorem markChanged_image : s.markChanged.image = s.image := rfl
@[simp] theorem markChanged_ram : s.markChanged.ram = s.ram := rfl
@[simp] theorem markChanged_imagesReleased : s.markChanged.imagesReleased = s.imagesReleased := rfl
@[simp] theorem markChanged_ramFill : s.markChanged.ramFill = s.ramFill := rfl
@[simp] theorem markChanged_pt : s.markChanged.pt = s.pt := rfl
@[simp] theorem markChanged_sel : s.markChanged.sel = s.sel := rfl
@[simp] theorem markChanged_startBank : s.markChanged.startBank = s.startBank := rfl
@[simp] theorem markChanged_locked : s.markChanged.locked = s.locked := rfl
@[simp] theorem markChanged_changed : s.markChanged.changed = true := rfl
@[simp] theorem markChanged_buckets : s.markChanged.buckets = s.buckets := rfl
@[simp] theorem markChanged_cursor : s.markChanged.cursor = s.cursor := rfl
@[simp] theorem markChanged_index : s.markChanged.index = s.index := rfl
@[simp] theorem markChanged_inbox : s.markChanged.inbox = s.inbox := rfl
@[simp] theorem markChanged_response : s.markChanged.response = s.response := rfl
@[simp] theorem markChanged_tornDown : s.markChanged.tornDown = s.tornDown := rfl
@[simp] theorem markChanged_faults : s.markChanged.faults = s.faults := rfl
@[simp] theorem markChanged_draws : s.markChanged.draws = s.draws := rfl
@[simp] theorem markChanged_bufByte (b : Buf) (i : Nat) : s.markChanged.bufByte b i = s.bufByte b i := by cases b <;> rfl
@[simp] theorem markChanged_page (p : Nat) : s.markChanged.page p = s.page p := rfl
@[simp] theorem markChanged_slot (a : BitVec 8) : s.markChanged.slot a = s.slot a := rfl
@[simp] theorem markChanged_bucket (j : Nat) : s.markChanged.bucket j = s.bucket j := rfl

/-! ## clearChanged -/

@[simp] theorem clearChanged_cfg : s.clearChanged.cfg = s.cfg := rfl
@[simp] theorem clearChanged_image : s.clearChanged.image = s.image := rfl
@[simp] theorem clearChanged_ram : s.clearChanged.ram = s.ram := rfl
@[simp] theorem clearChanged_imagesReleased : s.clearChanged.imagesReleased = s.imagesReleased := rfl
@[simp] theorem clearChanged_ramFill : s.clearChanged.ramFill = s.ramFill := rfl
@[simp] theorem clearChanged_pt : s.clearChanged.pt = s.pt := rfl
@[simp] theorem clearChanged_sel : s.clearChanged.sel = s.sel := rfl
@[simp] theorem clearChanged_startBank : s.clearChanged.startBank = s.startBank := rfl
@[simp] theorem clearChanged_locked : s.clearChanged.locked = s.locked := rfl
@[simp] theorem clearChanged_changed : s.clearChanged.changed = false := rfl
@[simp] theorem clearChanged_buckets : s.clearChanged.buckets = s.buckets := rfl
@[simp] theorem clearChanged_cursor : s.clearChanged.cursor = s.cursor := rfl
@[simp] theorem clearChanged_index : s.clearChanged.index = s.index := rfl
@[simp] theorem clearChanged_inbox : s.clearChanged.inbox = s.inbox := rfl
@[simp] theorem clearChanged_response : s.clearChanged.response = s.response := rfl
@[simp] theorem clearChanged_tornDown : s.clearChanged.tornDown = s.tornDown := rfl
@[simp] theorem clearChanged_faults : s.clearChanged.faults = s.faults := rfl
@[simp] theorem clearChanged_draws : s.clearChanged.draws = s.draws := rfl
@[simp] theorem clearChanged_bufByte (b : Buf) (i : Nat) : s.clearChanged.bufByte b i = s.bufByte b i := by cases b <;> rfl
@[simp] theorem clearChanged_page (p : Nat) : s.clearChanged.page p = s.page p := rfl
@[simp] theorem clearChanged_slot (a : BitVec 8) : s.clearChanged.slot a = s.slot a := rfl
@[simp] theorem clearChanged_bucket (j : Nat) : s.clearChanged.bucket j = s.bucket j := rfl

/-! ## respond -/

@[simp] theorem respond_cfg (d : BitVec 16) (ev : List Event) : (s.respond d ev).cfg = s.cfg := rfl
@[simp] theorem respond_image (d : BitVec 16) (ev : List Event) : (s.respond d ev).image = s.image := rfl
@[simp] theorem respond_ram (d : BitVec 16) (ev : List Event) : (s.respond d ev).ram = s.ram := rfl
@[simp] theorem respond_imagesReleased (d : BitVec 16) (ev : List Event) : (s.respond d ev).imagesReleased = s.imagesReleased := rfl
@[simp] theorem respond_ramFill (d : BitVec 16) (ev : List Event) : (s.respond d ev).ramFill = s.ramFill := rfl
@[simp] theorem respond_pt (d : BitVec 16) (ev : List Event) : (s.respond d ev).pt = s.pt := rfl
@[simp] theorem respond_sel (d : BitVec 16) (ev : List Event) : (s.respond d ev).sel = s.sel := rfl
@[simp] theorem respond_startBank (d : BitVec 16) (ev : List Event) : (s.respond d ev).startBank = s.startBank := rfl
@[simp] theorem respond_locked (d : BitVec 16) (ev : List Event) : (s.respond d ev).locked = s.locked := rfl
@[simp] theorem respond_changed (d : BitVec 16) (ev : List Event) : (s.respond d ev).changed = s.changed := rfl
@[simp] theorem respond_buckets (d : BitVec 16) (ev : List Event) : (s.respond d ev).buckets = s.buckets := rfl
@[simp] theorem respond_cursor (d : BitVec 16) (ev : List Event) : (s.respond d ev).cursor = s.cursor := rfl
@[simp] theorem respond_index (d : BitVec 16) (ev : List Event) : (s.respond d ev).index = s.index := rfl
@[simp] theorem respond_inbox (d : BitVec 16) (ev : List Event) : (s.respond d ev).inbox = s.inbox := rfl
@[simp] theorem respond_response (d : BitVec 16) (ev : List Event) : (s.respond d ev).response = some { status := .ok, data := d, events := ev } := rfl
@[simp] theorem respond_tornDown (d : BitVec 16) (ev : List Event) : (s.respond d ev).tornDown = s.tornDown := rfl
@[simp] theorem respond_faults (d : BitVec 16) (ev : List Event) : (s.respond d ev).faults = s.faults := rfl
@[simp] theorem respond_draws (d : BitVec 16) (ev : List Event) : (s.respond d ev).draws = s.draws := rfl
@[simp] theorem respond_bufByte (d : BitVec 16) (ev : List Event) (b : Buf) (i : Nat) : (s.respond d ev).bufByte b i = s.bufByte b i := by cases b <;> rfl
@[simp] theorem respond_page (d : BitVec 16) (ev : List Event) (p : Nat) : (s.respond d ev).page p = s.page p := rfl
@[simp] theorem respond_slot (d : BitVec 16) (ev : List Event) (a : BitVec 8) : (s.respond d ev).slot a = s.slot a := rfl
@[simp] theorem respond_bucket (d : BitVec 16) (ev : List Event) (j : Nat) : (s.respond d ev).bucket j = s.bucket j := rfl

/-! ## reject -/

@[simp] theorem reject_cfg (st : Status) : (s.reject st).cfg = s.cfg := rfl
@[simp] theorem reject_image (st : Status) : (s.reject st).image = s.image := rfl
@[simp] theorem reject_ram (st : Status) : (s.reject st).ram = s.ram := rfl
@[simp] theorem reject_imagesReleased (st : Status) : (s.reject st).imagesReleased = s.imagesReleased := rfl
@[simp] theorem reject_ramFill (st : Status) : (s.reject st).ramFill = s.ramFill := rfl
@[simp] theorem reject_pt (st : Status) : (s.reject st).pt = s.pt := rfl
@[simp] theorem reject_sel (st : Status) : (s.reject st).sel = s.sel := rfl
@[simp] theorem reject_startBank (st : Status) : (s.reject st).startBank = s.startBank := rfl
@[simp] theorem reject_locked (st : Status) : (s.reject st).locked = s.locked := rfl
@[simp] theorem reject_changed (st : Status) : (s.reject st).changed = s.changed := rfl
@[simp] theorem reject_buckets (st : Status) : (s.reject st).buckets = s.buckets := rfl
@[simp] theorem reject_cursor (st : Status) : (s.reject st).cursor = s.cursor := rfl
@[simp] theorem reject_index (st : Status) : (s.reject st).index = s.index := rfl
@[simp] theorem reject_inbox (st : Status) : (s.reject st).inbox = s.inbox := rfl
@[simp] theorem reject_response (st : Status) : (s.reject st).response = some { status := st, data := 0#16, events := [] } := rfl
@[simp] theorem reject_tornDown (st : Status) : (s.reject st).tornDown = s.tornDown := rfl
@[simp] theorem reject_faults (st : Status) : (s.reject st).faults = s.faults ++ st.commandFault := rfl
@[simp] theorem reject_draws (st : Status) : (s.reject st).draws = s.draws := rfl
@[simp] theorem reject_bufByte (st : Status) (b : Buf) (i : Nat) : (s.reject st).bufByte b i = s.bufByte b i := by cases b <;> rfl
@[simp] theorem reject_page (st : Status) (p : Nat) : (s.reject st).page p = s.page p := rfl
@[simp] theorem reject_slot (st : Status) (a : BitVec 8) : (s.reject st).slot a = s.slot a := rfl
@[simp] theorem reject_bucket (st : Status) (j : Nat) : (s.reject st).bucket j = s.bucket j := rfl

/-! ## fillRam -/

@[simp] theorem fillRam_cfg (bs : List Byte) : (s.fillRam bs).cfg = s.cfg := rfl
@[simp] theorem fillRam_image (bs : List Byte) : (s.fillRam bs).image = s.image := rfl
@[simp] theorem fillRam_ram (bs : List Byte) : (s.fillRam bs).ram = Sparse.ofList 0 (bs.take ramSize) := rfl
@[simp] theorem fillRam_imagesReleased (bs : List Byte) : (s.fillRam bs).imagesReleased = s.imagesReleased := rfl
@[simp] theorem fillRam_ramFill (bs : List Byte) : (s.fillRam bs).ramFill = s.ramFill + 1 := rfl
@[simp] theorem fillRam_pt (bs : List Byte) : (s.fillRam bs).pt = s.pt := rfl
@[simp] theorem fillRam_sel (bs : List Byte) : (s.fillRam bs).sel = s.sel := rfl
@[simp] theorem fillRam_startBank (bs : List Byte) : (s.fillRam bs).startBank = s.startBank := rfl
@[simp] theorem fillRam_locked (bs : List Byte) : (s.fillRam bs).locked = s.locked := rfl
@[simp] theorem fillRam_changed (bs : List Byte) : (s.fillRam bs).changed = s.changed := rfl
@[simp] theorem fillRam_buckets (bs : List Byte) : (s.fillRam bs).buckets = s.buckets := rfl
@[simp] theorem fillRam_cursor (bs : List Byte) : (s.fillRam bs).cursor = s.cursor := rfl
@[simp] theorem fillRam_index (bs : List Byte) : (s.fillRam bs).index = s.index := rfl
@[simp] theorem fillRam_inbox (bs : List Byte) : (s.fillRam bs).inbox = s.inbox := rfl
@[simp] theorem fillRam_response (bs : List Byte) : (s.fillRam bs).response = s.response := rfl
@[simp] theorem fillRam_tornDown (bs : List Byte) : (s.fillRam bs).tornDown = s.tornDown := rfl
@[simp] theorem fillRam_faults (bs : List Byte) : (s.fillRam bs).faults = s.faults := rfl
@[simp] theorem fillRam_draws (bs : List Byte) : (s.fillRam bs).draws = s.draws := rfl
@[simp] theorem fillRam_page (bs : List Byte) (p : Nat) : (s.fillRam bs).page p = s.page p := rfl
@[simp] theorem fillRam_slot (bs : List Byte) (a : BitVec 8) : (s.fillRam bs).slot a = s.slot a := rfl
@[simp] theorem fillRam_bucket (bs : List Byte) (j : Nat) : (s.fillRam bs).bucket j = s.bucket j := rfl

/-! ## publishLower -/

@[simp] theorem publishLower_cfg (n : BitVec 9) : (s.publishLower n).cfg = s.cfg := rfl
@[simp] theorem publishLower_image (n : BitVec 9) : (s.publishLower n).image = s.image := rfl
@[simp] theorem publishLower_ram (n : BitVec 9) : (s.publishLower n).ram = s.ram := rfl
@[simp] theorem publishLower_imagesReleased (n : BitVec 9) : (s.publishLower n).imagesReleased = s.imagesReleased := rfl
@[simp] theorem publishLower_ramFill (n : BitVec 9) : (s.publishLower n).ramFill = s.ramFill := rfl
@[simp] theorem publishLower_pt (n : BitVec 9) : (s.publishLower n).pt = setPages (lowerMap s.cfg n.toNat) (lowerPages s.cfg) s.pt := rfl
@[simp] theorem publishLower_sel (n : BitVec 9) : (s.publishLower n).sel = s.sel := rfl
@[simp] theorem publishLower_startBank (n : BitVec 9) : (s.publishLower n).startBank = s.startBank := rfl
@[simp] theorem publishLower_locked (n : BitVec 9) : (s.publishLower n).locked = s.locked := rfl
@[simp] theorem publishLower_changed (n : BitVec 9) : (s.publishLower n).changed = s.changed := rfl
@[simp] theorem publishLower_buckets (n : BitVec 9) : (s.publishLower n).buckets = s.buckets := rfl
@[simp] theorem publishLower_cursor (n : BitVec 9) : (s.publishLower n).cursor = s.cursor := rfl
@[simp] theorem publishLower_index (n : BitVec 9) : (s.publishLower n).index = s.index := rfl
@[simp] theorem publishLower_inbox (n : BitVec 9) : (s.publishLower n).inbox = s.inbox := rfl
@[simp] theorem publishLower_response (n : BitVec 9) : (s.publishLower n).response = s.response := rfl
@[simp] theorem publishLower_tornDown (n : BitVec 9) : (s.publishLower n).tornDown = s.tornDown := rfl
@[simp] theorem publishLower_faults (n : BitVec 9) : (s.publishLower n).faults = s.faults := rfl
@[simp] theorem publishLower_draws (n : BitVec 9) : (s.publishLower n).draws = s.draws := rfl
@[simp] theorem publishLower_bufByte (n : BitVec 9) (b : Buf) (i : Nat) : (s.publishLower n).bufByte b i = s.bufByte b i := by cases b <;> rfl
@[simp] theorem publishLower_slot (n : BitVec 9) (a : BitVec 8) : (s.publishLower n).slot a = s.slot a := rfl
@[simp] theorem publishLower_bucket (n : BitVec 9) (j : Nat) : (s.publishLower n).bucket j = s.bucket j := rfl

/-! ## schedule -/

@[simp] theorem schedule_cfg (a : BitVec 8) (v : Byte) (k : Nat) : (s.schedule a v k).cfg = s.cfg := rfl
@[simp] theorem schedule_image (a : BitVec 8) (v : Byte) (k : Nat) : (s.schedule a v k).image = s.image := rfl
@[simp] theorem schedule_ram (a : BitVec 8) (v : Byte) (k : Nat) : (s.schedule a v k).ram = s.ram := rfl
@[simp] theorem schedule_imagesReleased (a : BitVec 8) (v : Byte) (k : Nat) : (s.schedule a v k).imagesReleased = s.imagesReleased := rfl
@[simp] theorem schedule_ramFill (a : BitVec 8) (v : Byte) (k : Nat) : (s.schedule a v k).ramFill = s.ramFill := rfl
@[simp] theorem schedule_pt (a : BitVec 8) (v : Byte) (k : Nat) : (s.schedule a v k).pt = s.pt := rfl
@[simp] theorem schedule_sel (a : BitVec 8) (v : Byte) (k : Nat) : (s.schedule a v k).sel = s.sel := rfl
@[simp] theorem schedule_startBank (a : BitVec 8) (v : Byte) (k : Nat) : (s.schedule a v k).startBank = s.startBank := rfl
@[simp] theorem schedule_locked (a : BitVec 8) (v : Byte) (k : Nat) : (s.schedule a v k).locked = s.locked := rfl
@[simp] theorem schedule_changed (a : BitVec 8) (v : Byte) (k : Nat) : (s.schedule a v k).changed = s.changed := rfl
@[simp] theorem schedule_buckets (a : BitVec 8) (v : Byte) (k : Nat) : (s.schedule a v k).buckets = changeBucket k (fun b => b ++ [{ addr := a, value := v }]) s.buckets := rfl
@[simp] theorem schedule_cursor (a : BitVec 8) (v : Byte) (k : Nat) : (s.schedule a v k).cursor = s.cursor := rfl
@[simp] theorem schedule_index (a : BitVec 8) (v : Byte) (k : Nat) : (s.schedule a v k).index = Sparse.insert a.toNat k s.index := rfl
@[simp] theorem schedule_inbox (a : BitVec 8) (v : Byte) (k : Nat) : (s.schedule a v k).inbox = s.inbox := rfl
@[simp] theorem schedule_response (a : BitVec 8) (v : Byte) (k : Nat) : (s.schedule a v k).response = s.response := rfl
@[simp] theorem schedule_tornDown (a : BitVec 8) (v : Byte) (k : Nat) : (s.schedule a v k).tornDown = s.tornDown := rfl
@[simp] theorem schedule_faults (a : BitVec 8) (v : Byte) (k : Nat) : (s.schedule a v k).faults = s.faults := rfl
@[simp] theorem schedule_draws (a : BitVec 8) (v : Byte) (k : Nat) : (s.schedule a v k).draws = s.draws := rfl
@[simp] theorem schedule_bufByte (a : BitVec 8) (v : Byte) (k : Nat) (b : Buf) (i : Nat) : (s.schedule a v k).bufByte b i = s.bufByte b i := by cases b <;> rfl
@[simp] theorem schedule_page (a : BitVec 8) (v : Byte) (k : Nat) (p : Nat) : (s.schedule a v k).page p = s.page p := rfl

/-! ## drain -/

@[simp] theorem drain_cfg : s.drain.cfg = s.cfg := rfl
@[simp] theorem drain_image : s.drain.image = s.image := rfl
@[simp] theorem drain_ram : s.drain.ram = s.ram := rfl
@[simp] theorem drain_imagesReleased : s.drain.imagesReleased = s.imagesReleased := rfl
@[simp] theorem drain_ramFill : s.drain.ramFill = s.ramFill := rfl
@[simp] theorem drain_pt : s.drain.pt = s.pt := rfl
@[simp] theorem drain_sel : s.drain.sel = s.sel := rfl
@[simp] theorem drain_startBank : s.drain.startBank = s.startBank := rfl
@[simp] theorem drain_locked : s.drain.locked = s.locked := rfl
@[simp] theorem drain_changed : s.drain.changed = s.changed := rfl
@[simp] theorem drain_buckets : s.drain.buckets = changeBucket s.cursor (fun _ => []) s.buckets := rfl
@[simp] theorem drain_cursor : s.drain.cursor = (s.cursor + 1) % s.cfg.horizon := rfl
@[simp] theorem drain_index : s.drain.index = clearSlots (s.bucket s.cursor) s.index := rfl
@[simp] theorem drain_inbox : s.drain.inbox = s.inbox := rfl
@[simp] theorem drain_response : s.drain.response = s.response := rfl
@[simp] theorem drain_tornDown : s.drain.tornDown = s.tornDown := rfl
@[simp] theorem drain_faults : s.drain.faults = s.faults := rfl
@[simp] theorem drain_draws : s.drain.draws = s.draws := rfl
@[simp] theorem drain_bufByte (b : Buf) (i : Nat) : s.drain.bufByte b i = s.bufByte b i := by cases b <;> rfl
@[simp] theorem drain_page (p : Nat) : s.drain.page p = s.page p := rfl

/-! ## drawRamFill -/

@[simp] theorem drawRamFill_cfg : (drawRamFill s).cfg = s.cfg := rfl
@[simp] theorem drawRamFill_image : (drawRamFill s).image = s.image := rfl
@[simp] theorem drawRamFill_ram : (drawRamFill s).ram = Sparse.ofList 0 (s.draws.rng.take ramSize) := rfl
@[simp] theorem drawRamFill_imagesReleased : (drawRamFill s).imagesReleased = s.imagesReleased := rfl
@[simp] theorem drawRamFill_ramFill : (drawRamFill s).ramFill = s.ramFill + 1 := rfl
@[simp] theorem drawRamFill_pt : (drawRamFill s).pt = s.pt := rfl
@[simp] theorem drawRamFill_sel : (drawRamFill s).sel = s.sel := rfl
@[simp] theorem drawRamFill_startBank : (drawRamFill s).startBank = s.startBank := rfl
@[simp] theorem drawRamFill_locked : (drawRamFill s).locked = s.locked := rfl
@[simp] theorem drawRamFill_changed : (drawRamFill s).changed = s.changed := rfl
@[simp] theorem drawRamFill_buckets : (drawRamFill s).buckets = s.buckets := rfl
@[simp] theorem drawRamFill_cursor : (drawRamFill s).cursor = s.cursor := rfl
@[simp] theorem drawRamFill_index : (drawRamFill s).index = s.index := rfl
@[simp] theorem drawRamFill_inbox : (drawRamFill s).inbox = s.inbox := rfl
@[simp] theorem drawRamFill_response : (drawRamFill s).response = s.response := rfl
@[simp] theorem drawRamFill_tornDown : (drawRamFill s).tornDown = s.tornDown := rfl
@[simp] theorem drawRamFill_faults : (drawRamFill s).faults = s.faults := rfl
@[simp] theorem drawRamFill_draws : (drawRamFill s).draws = { s.draws with rng := s.draws.rng.drop ramSize } := rfl
@[simp] theorem drawRamFill_page (p : Nat) : (drawRamFill s).page p = s.page p := rfl
@[simp] theorem drawRamFill_slot (a : BitVec 8) : (drawRamFill s).slot a = s.slot a := rfl
@[simp] theorem drawRamFill_bucket (j : Nat) : (drawRamFill s).bucket j = s.bucket j := rfl

/-! ## setBufByte -/

@[simp] theorem setBufByte_cfg (b : Buf) (i : Nat) (v : Byte) : (s.setBufByte b i v).cfg = s.cfg := by cases b <;> rfl
@[simp] theorem setBufByte_imagesReleased (b : Buf) (i : Nat) (v : Byte) : (s.setBufByte b i v).imagesReleased = s.imagesReleased := by cases b <;> rfl
@[simp] theorem setBufByte_ramFill (b : Buf) (i : Nat) (v : Byte) : (s.setBufByte b i v).ramFill = s.ramFill := by cases b <;> rfl
@[simp] theorem setBufByte_pt (b : Buf) (i : Nat) (v : Byte) : (s.setBufByte b i v).pt = s.pt := by cases b <;> rfl
@[simp] theorem setBufByte_sel (b : Buf) (i : Nat) (v : Byte) : (s.setBufByte b i v).sel = s.sel := by cases b <;> rfl
@[simp] theorem setBufByte_startBank (b : Buf) (i : Nat) (v : Byte) : (s.setBufByte b i v).startBank = s.startBank := by cases b <;> rfl
@[simp] theorem setBufByte_locked (b : Buf) (i : Nat) (v : Byte) : (s.setBufByte b i v).locked = s.locked := by cases b <;> rfl
@[simp] theorem setBufByte_changed (b : Buf) (i : Nat) (v : Byte) : (s.setBufByte b i v).changed = s.changed := by cases b <;> rfl
@[simp] theorem setBufByte_buckets (b : Buf) (i : Nat) (v : Byte) : (s.setBufByte b i v).buckets = s.buckets := by cases b <;> rfl
@[simp] theorem setBufByte_cursor (b : Buf) (i : Nat) (v : Byte) : (s.setBufByte b i v).cursor = s.cursor := by cases b <;> rfl
@[simp] theorem setBufByte_index (b : Buf) (i : Nat) (v : Byte) : (s.setBufByte b i v).index = s.index := by cases b <;> rfl
@[simp] theorem setBufByte_inbox (b : Buf) (i : Nat) (v : Byte) : (s.setBufByte b i v).inbox = s.inbox := by cases b <;> rfl
@[simp] theorem setBufByte_response (b : Buf) (i : Nat) (v : Byte) : (s.setBufByte b i v).response = s.response := by cases b <;> rfl
@[simp] theorem setBufByte_tornDown (b : Buf) (i : Nat) (v : Byte) : (s.setBufByte b i v).tornDown = s.tornDown := by cases b <;> rfl
@[simp] theorem setBufByte_faults (b : Buf) (i : Nat) (v : Byte) : (s.setBufByte b i v).faults = s.faults := by cases b <;> rfl
@[simp] theorem setBufByte_draws (b : Buf) (i : Nat) (v : Byte) : (s.setBufByte b i v).draws = s.draws := by cases b <;> rfl
@[simp] theorem setBufByte_page (b : Buf) (i : Nat) (v : Byte) (p : Nat) : (s.setBufByte b i v).page p = s.page p := by cases b <;> rfl
@[simp] theorem setBufByte_slot (b : Buf) (i : Nat) (v : Byte) (a : BitVec 8) : (s.setBufByte b i v).slot a = s.slot a := by cases b <;> rfl
@[simp] theorem setBufByte_bucket (b : Buf) (i : Nat) (v : Byte) (j : Nat) : (s.setBufByte b i v).bucket j = s.bucket j := by cases b <;> rfl

/-! ## unschedule -/

@[simp] theorem unschedule_cfg (a : BitVec 8) : (s.unschedule a).cfg = s.cfg := by unfold State.unschedule; split <;> rfl
@[simp] theorem unschedule_image (a : BitVec 8) : (s.unschedule a).image = s.image := by unfold State.unschedule; split <;> rfl
@[simp] theorem unschedule_ram (a : BitVec 8) : (s.unschedule a).ram = s.ram := by unfold State.unschedule; split <;> rfl
@[simp] theorem unschedule_imagesReleased (a : BitVec 8) : (s.unschedule a).imagesReleased = s.imagesReleased := by unfold State.unschedule; split <;> rfl
@[simp] theorem unschedule_ramFill (a : BitVec 8) : (s.unschedule a).ramFill = s.ramFill := by unfold State.unschedule; split <;> rfl
@[simp] theorem unschedule_pt (a : BitVec 8) : (s.unschedule a).pt = s.pt := by unfold State.unschedule; split <;> rfl
@[simp] theorem unschedule_sel (a : BitVec 8) : (s.unschedule a).sel = s.sel := by unfold State.unschedule; split <;> rfl
@[simp] theorem unschedule_startBank (a : BitVec 8) : (s.unschedule a).startBank = s.startBank := by unfold State.unschedule; split <;> rfl
@[simp] theorem unschedule_locked (a : BitVec 8) : (s.unschedule a).locked = s.locked := by unfold State.unschedule; split <;> rfl
@[simp] theorem unschedule_changed (a : BitVec 8) : (s.unschedule a).changed = s.changed := by unfold State.unschedule; split <;> rfl
@[simp] theorem unschedule_cursor (a : BitVec 8) : (s.unschedule a).cursor = s.cursor := by unfold State.unschedule; split <;> rfl
@[simp] theorem unschedule_index (a : BitVec 8) : (s.unschedule a).index = s.index := by unfold State.unschedule; split <;> rfl
@[simp] theorem unschedule_inbox (a : BitVec 8) : (s.unschedule a).inbox = s.inbox := by unfold State.unschedule; split <;> rfl
@[simp] theorem unschedule_response (a : BitVec 8) : (s.unschedule a).response = s.response := by unfold State.unschedule; split <;> rfl
@[simp] theorem unschedule_tornDown (a : BitVec 8) : (s.unschedule a).tornDown = s.tornDown := by unfold State.unschedule; split <;> rfl
@[simp] theorem unschedule_faults (a : BitVec 8) : (s.unschedule a).faults = s.faults := by unfold State.unschedule; split <;> rfl
@[simp] theorem unschedule_draws (a : BitVec 8) : (s.unschedule a).draws = s.draws := by unfold State.unschedule; split <;> rfl
@[simp] theorem unschedule_bufByte (a : BitVec 8) (b : Buf) (i : Nat) : (s.unschedule a).bufByte b i = s.bufByte b i := by unfold State.unschedule; split <;> cases b <;> rfl
@[simp] theorem unschedule_page (a : BitVec 8) (p : Nat) : (s.unschedule a).page p = s.page p := by unfold State.unschedule; split <;> rfl
@[simp] theorem unschedule_slot (a : BitVec 8) (a' : BitVec 8) : (s.unschedule a).slot a' = s.slot a' := by unfold State.unschedule; split <;> rfl

/-! ## drawFloatingBus -/

@[simp] theorem drawFloatingBus_cfg : (drawFloatingBus s).2.cfg = s.cfg := by unfold drawFloatingBus; split <;> rfl
@[simp] theorem drawFloatingBus_image : (drawFloatingBus s).2.image = s.image := by unfold drawFloatingBus; split <;> rfl
@[simp] theorem drawFloatingBus_ram : (drawFloatingBus s).2.ram = s.ram := by unfold drawFloatingBus; split <;> rfl
@[simp] theorem drawFloatingBus_imagesReleased : (drawFloatingBus s).2.imagesReleased = s.imagesReleased := by unfold drawFloatingBus; split <;> rfl
@[simp] theorem drawFloatingBus_ramFill : (drawFloatingBus s).2.ramFill = s.ramFill := by unfold drawFloatingBus; split <;> rfl
@[simp] theorem drawFloatingBus_pt : (drawFloatingBus s).2.pt = s.pt := by unfold drawFloatingBus; split <;> rfl
@[simp] theorem drawFloatingBus_sel : (drawFloatingBus s).2.sel = s.sel := by unfold drawFloatingBus; split <;> rfl
@[simp] theorem drawFloatingBus_startBank : (drawFloatingBus s).2.startBank = s.startBank := by unfold drawFloatingBus; split <;> rfl
@[simp] theorem drawFloatingBus_locked : (drawFloatingBus s).2.locked = s.locked := by unfold drawFloatingBus; split <;> rfl
@[simp] theorem drawFloatingBus_changed : (drawFloatingBus s).2.changed = s.changed := by unfold drawFloatingBus; split <;> rfl
@[simp] theorem drawFloatingBus_buckets : (drawFloatingBus s).2.buckets = s.buckets := by unfold drawFloatingBus; split <;> rfl
@[simp] theorem drawFloatingBus_cursor : (drawFloatingBus s).2.cursor = s.cursor := by unfold drawFloatingBus; split <;> rfl
@[simp] theorem drawFloatingBus_index : (drawFloatingBus s).2.index = s.index := by unfold drawFloatingBus; split <;> rfl
@[simp] theorem drawFloatingBus_inbox : (drawFloatingBus s).2.inbox = s.inbox := by unfold drawFloatingBus; split <;> rfl
@[simp] theorem drawFloatingBus_response : (drawFloatingBus s).2.response = s.response := by unfold drawFloatingBus; split <;> rfl
@[simp] theorem drawFloatingBus_tornDown : (drawFloatingBus s).2.tornDown = s.tornDown := by unfold drawFloatingBus; split <;> rfl
@[simp] theorem drawFloatingBus_faults : (drawFloatingBus s).2.faults = s.faults := by unfold drawFloatingBus; split <;> rfl
@[simp] theorem drawFloatingBus_bufByte (b : Buf) (i : Nat) : (drawFloatingBus s).2.bufByte b i = s.bufByte b i := by unfold drawFloatingBus; split <;> cases b <;> rfl
@[simp] theorem drawFloatingBus_page (p : Nat) : (drawFloatingBus s).2.page p = s.page p := by unfold drawFloatingBus; split <;> rfl
@[simp] theorem drawFloatingBus_slot (a : BitVec 8) : (drawFloatingBus s).2.slot a = s.slot a := by unfold drawFloatingBus; split <;> rfl
@[simp] theorem drawFloatingBus_bucket (j : Nat) : (drawFloatingBus s).2.bucket j = s.bucket j := by unfold drawFloatingBus; split <;> rfl

/-! ## drawExtVal -/

@[simp] theorem drawExtVal_cfg (k : Nat) (a : Addr) : (drawExtVal k a s).2.cfg = s.cfg := by unfold drawExtVal; split <;> rfl
@[simp] theorem drawExtVal_image (k : Nat) (a : Addr) : (drawExtVal k a s).2.image = s.image := by unfold drawExtVal; split <;> rfl
@[simp] theorem drawExtVal_ram (k : Nat) (a : Addr) : (drawExtVal k a s).2.ram = s.ram := by unfold drawExtVal; split <;> rfl
@[simp] theorem drawExtVal_imagesReleased (k : Nat) (a : Addr) : (drawExtVal k a s).2.imagesReleased = s.imagesReleased := by unfold drawExtVal; split <;> rfl
@[simp] theorem drawExtVal_ramFill (k : Nat) (a : Addr) : (drawExtVal k a s).2.ramFill = s.ramFill := by unfold drawExtVal; split <;> rfl
@[simp] theorem drawExtVal_pt (k : Nat) (a : Addr) : (drawExtVal k a s).2.pt = s.pt := by unfold drawExtVal; split <;> rfl
@[simp] theorem drawExtVal_sel (k : Nat) (a : Addr) : (drawExtVal k a s).2.sel = s.sel := by unfold drawExtVal; split <;> rfl
@[simp] theorem drawExtVal_startBank (k : Nat) (a : Addr) : (drawExtVal k a s).2.startBank = s.startBank := by unfold drawExtVal; split <;> rfl
@[simp] theorem drawExtVal_locked (k : Nat) (a : Addr) : (drawExtVal k a s).2.locked = s.locked := by unfold drawExtVal; split <;> rfl
@[simp] theorem drawExtVal_changed (k : Nat) (a : Addr) : (drawExtVal k a s).2.changed = s.changed := by unfold drawExtVal; split <;> rfl
@[simp] theorem drawExtVal_buckets (k : Nat) (a : Addr) : (drawExtVal k a s).2.buckets = s.buckets := by unfold drawExtVal; split <;> rfl
@[simp] theorem drawExtVal_cursor (k : Nat) (a : Addr) : (drawExtVal k a s).2.cursor = s.cursor := by unfold drawExtVal; split <;> rfl
@[simp] theorem drawExtVal_index (k : Nat) (a : Addr) : (drawExtVal k a s).2.index = s.index := by unfold drawExtVal; split <;> rfl
@[simp] theorem drawExtVal_inbox (k : Nat) (a : Addr) : (drawExtVal k a s).2.inbox = s.inbox := by unfold drawExtVal; split <;> rfl
@[simp] theorem drawExtVal_response (k : Nat) (a : Addr) : (drawExtVal k a s).2.response = s.response := by unfold drawExtVal; split <;> rfl
@[simp] theorem drawExtVal_tornDown (k : Nat) (a : Addr) : (drawExtVal k a s).2.tornDown = s.tornDown := by unfold drawExtVal; split <;> rfl
@[simp] theorem drawExtVal_faults (k : Nat) (a : Addr) : (drawExtVal k a s).2.faults = s.faults := by unfold drawExtVal; split <;> rfl
@[simp] theorem drawExtVal_bufByte (k : Nat) (a : Addr) (b : Buf) (i : Nat) : (drawExtVal k a s).2.bufByte b i = s.bufByte b i := by unfold drawExtVal; split <;> cases b <;> rfl
@[simp] theorem drawExtVal_page (k : Nat) (a : Addr) (p : Nat) : (drawExtVal k a s).2.page p = s.page p := by unfold drawExtVal; split <;> rfl
@[simp] theorem drawExtVal_slot (k : Nat) (a : Addr) (a' : BitVec 8) : (drawExtVal k a s).2.slot a' = s.slot a' := by unfold drawExtVal; split <;> rfl
@[simp] theorem drawExtVal_bucket (k : Nat) (a : Addr) (j : Nat) : (drawExtVal k a s).2.bucket j = s.bucket j := by unfold drawExtVal; split <;> rfl

/-! ## drawExtHandled -/

@[simp] theorem drawExtHandled_cfg (k : Nat) (a : Addr) (v : Byte) : (drawExtHandled k a v s).2.cfg = s.cfg := by unfold drawExtHandled; split <;> rfl
@[simp] theorem drawExtHandled_image (k : Nat) (a : Addr) (v : Byte) : (drawExtHandled k a v s).2.image = s.image := by unfold drawExtHandled; split <;> rfl
@[simp] theorem drawExtHandled_ram (k : Nat) (a : Addr) (v : Byte) : (drawExtHandled k a v s).2.ram = s.ram := by unfold drawExtHandled; split <;> rfl
@[simp] theorem drawExtHandled_imagesReleased (k : Nat) (a : Addr) (v : Byte) : (drawExtHandled k a v s).2.imagesReleased = s.imagesReleased := by unfold drawExtHandled; split <;> rfl
@[simp] theorem drawExtHandled_ramFill (k : Nat) (a : Addr) (v : Byte) : (drawExtHandled k a v s).2.ramFill = s.ramFill := by unfold drawExtHandled; split <;> rfl
@[simp] theorem drawExtHandled_pt (k : Nat) (a : Addr) (v : Byte) : (drawExtHandled k a v s).2.pt = s.pt := by unfold drawExtHandled; split <;> rfl
@[simp] theorem drawExtHandled_sel (k : Nat) (a : Addr) (v : Byte) : (drawExtHandled k a v s).2.sel = s.sel := by unfold drawExtHandled; split <;> rfl
@[simp] theorem drawExtHandled_startBank (k : Nat) (a : Addr) (v : Byte) : (drawExtHandled k a v s).2.startBank = s.startBank := by unfold drawExtHandled; split <;> rfl
@[simp] theorem drawExtHandled_locked (k : Nat) (a : Addr) (v : Byte) : (drawExtHandled k a v s).2.locked = s.locked := by unfold drawExtHandled; split <;> rfl
@[simp] theorem drawExtHandled_changed (k : Nat) (a : Addr) (v : Byte) : (drawExtHandled k a v s).2.changed = s.changed := by unfold drawExtHandled; split <;> rfl
@[simp] theorem drawExtHandled_buckets (k : Nat) (a : Addr) (v : Byte) : (drawExtHandled k a v s).2.buckets = s.buckets := by unfold drawExtHandled; split <;> rfl
@[simp] theorem drawExtHandled_cursor (k : Nat) (a : Addr) (v : Byte) : (drawExtHandled k a v s).2.cursor = s.cursor := by unfold drawExtHandled; split <;> rfl
@[simp] theorem drawExtHandled_index (k : Nat) (a : Addr) (v : Byte) : (drawExtHandled k a v s).2.index = s.index := by unfold drawExtHandled; split <;> rfl
@[simp] theorem drawExtHandled_inbox (k : Nat) (a : Addr) (v : Byte) : (drawExtHandled k a v s).2.inbox = s.inbox := by unfold drawExtHandled; split <;> rfl
@[simp] theorem drawExtHandled_response (k : Nat) (a : Addr) (v : Byte) : (drawExtHandled k a v s).2.response = s.response := by unfold drawExtHandled; split <;> rfl
@[simp] theorem drawExtHandled_tornDown (k : Nat) (a : Addr) (v : Byte) : (drawExtHandled k a v s).2.tornDown = s.tornDown := by unfold drawExtHandled; split <;> rfl
@[simp] theorem drawExtHandled_faults (k : Nat) (a : Addr) (v : Byte) : (drawExtHandled k a v s).2.faults = s.faults := by unfold drawExtHandled; split <;> rfl
@[simp] theorem drawExtHandled_bufByte (k : Nat) (a : Addr) (v : Byte) (b : Buf) (i : Nat) : (drawExtHandled k a v s).2.bufByte b i = s.bufByte b i := by unfold drawExtHandled; split <;> cases b <;> rfl
@[simp] theorem drawExtHandled_page (k : Nat) (a : Addr) (v : Byte) (p : Nat) : (drawExtHandled k a v s).2.page p = s.page p := by unfold drawExtHandled; split <;> rfl
@[simp] theorem drawExtHandled_slot (k : Nat) (a : Addr) (v : Byte) (a' : BitVec 8) : (drawExtHandled k a v s).2.slot a' = s.slot a' := by unfold drawExtHandled; split <;> rfl
@[simp] theorem drawExtHandled_bucket (k : Nat) (a : Addr) (v : Byte) (j : Nat) : (drawExtHandled k a v s).2.bucket j = s.bucket j := by unfold drawExtHandled; split <;> rfl

/-! ## drawSerFault -/

@[simp] theorem drawSerFault_cfg : (drawSerFault s).2.cfg = s.cfg := by unfold drawSerFault; split <;> rfl
@[simp] theorem drawSerFault_image : (drawSerFault s).2.image = s.image := by unfold drawSerFault; split <;> rfl
@[simp] theorem drawSerFault_ram : (drawSerFault s).2.ram = s.ram := by unfold drawSerFault; split <;> rfl
@[simp] theorem drawSerFault_imagesReleased : (drawSerFault s).2.imagesReleased = s.imagesReleased := by unfold drawSerFault; split <;> rfl
@[simp] theorem drawSerFault_ramFill : (drawSerFault s).2.ramFill = s.ramFill := by unfold drawSerFault; split <;> rfl
@[simp] theorem drawSerFault_pt : (drawSerFault s).2.pt = s.pt := by unfold drawSerFault; split <;> rfl
@[simp] theorem drawSerFault_sel : (drawSerFault s).2.sel = s.sel := by unfold drawSerFault; split <;> rfl
@[simp] theorem drawSerFault_startBank : (drawSerFault s).2.startBank = s.startBank := by unfold drawSerFault; split <;> rfl
@[simp] theorem drawSerFault_locked : (drawSerFault s).2.locked = s.locked := by unfold drawSerFault; split <;> rfl
@[simp] theorem drawSerFault_changed : (drawSerFault s).2.changed = s.changed := by unfold drawSerFault; split <;> rfl
@[simp] theorem drawSerFault_buckets : (drawSerFault s).2.buckets = s.buckets := by unfold drawSerFault; split <;> rfl
@[simp] theorem drawSerFault_cursor : (drawSerFault s).2.cursor = s.cursor := by unfold drawSerFault; split <;> rfl
@[simp] theorem drawSerFault_index : (drawSerFault s).2.index = s.index := by unfold drawSerFault; split <;> rfl
@[simp] theorem drawSerFault_inbox : (drawSerFault s).2.inbox = s.inbox := by unfold drawSerFault; split <;> rfl
@[simp] theorem drawSerFault_response : (drawSerFault s).2.response = s.response := by unfold drawSerFault; split <;> rfl
@[simp] theorem drawSerFault_tornDown : (drawSerFault s).2.tornDown = s.tornDown := by unfold drawSerFault; split <;> rfl
@[simp] theorem drawSerFault_faults : (drawSerFault s).2.faults = s.faults := by unfold drawSerFault; split <;> rfl
@[simp] theorem drawSerFault_bufByte (b : Buf) (i : Nat) : (drawSerFault s).2.bufByte b i = s.bufByte b i := by unfold drawSerFault; split <;> cases b <;> rfl
@[simp] theorem drawSerFault_page (p : Nat) : (drawSerFault s).2.page p = s.page p := by unfold drawSerFault; split <;> rfl
@[simp] theorem drawSerFault_slot (a : BitVec 8) : (drawSerFault s).2.slot a = s.slot a := by unfold drawSerFault; split <;> rfl
@[simp] theorem drawSerFault_bucket (j : Nat) : (drawSerFault s).2.bucket j = s.bucket j := by unfold drawSerFault; split <;> rfl

/-! ## tearDown -/

@[simp] theorem tearDown_cfg : (tearDown s).cfg = s.cfg := rfl
@[simp] theorem tearDown_image : (tearDown s).image = [] := rfl
@[simp] theorem tearDown_imagesReleased : (tearDown s).imagesReleased = s.imagesReleased + 1 := rfl
@[simp] theorem tearDown_ram : (tearDown s).ram = s.ram := rfl
@[simp] theorem tearDown_ramFill : (tearDown s).ramFill = s.ramFill := rfl
@[simp] theorem tearDown_pt : (tearDown s).pt = dropRefs s.pt := rfl
@[simp] theorem tearDown_sel : (tearDown s).sel = s.sel := rfl
@[simp] theorem tearDown_startBank : (tearDown s).startBank = s.startBank := rfl
@[simp] theorem tearDown_locked : (tearDown s).locked = s.locked := rfl
@[simp] theorem tearDown_changed : (tearDown s).changed = s.changed := rfl
@[simp] theorem tearDown_buckets : (tearDown s).buckets = s.buckets := rfl
@[simp] theorem tearDown_cursor : (tearDown s).cursor = s.cursor := rfl
@[simp] theorem tearDown_index : (tearDown s).index = s.index := rfl
@[simp] theorem tearDown_inbox : (tearDown s).inbox = s.inbox := rfl
@[simp] theorem tearDown_response : (tearDown s).response = s.response := rfl
@[simp] theorem tearDown_tornDown : (tearDown s).tornDown = true := rfl
@[simp] theorem tearDown_faults : (tearDown s).faults = s.faults := rfl
@[simp] theorem tearDown_draws : (tearDown s).draws = s.draws := rfl
@[simp] theorem tearDown_slot (a : BitVec 8) : (tearDown s).slot a = s.slot a := rfl
@[simp] theorem tearDown_bucket (j : Nat) : (tearDown s).bucket j = s.bucket j := rfl
@[simp] theorem tearDown_bufByte_ram (i : Nat) : (tearDown s).bufByte .ram i = s.bufByte .ram i := rfl
/-- A byte of the released IMAGE is a free value of its own (R159). -/
@[simp] theorem tearDown_bufByte_image (i : Nat) :
    (tearDown s).bufByte .image i = Config.romByte (s.imagesReleased + 1) i := rfl

/-! ## One byte written -/

/-- A byte written reads as written, every other byte of both buffers as before (R17). -/
theorem setBufByte_bufByte (b b' : Buf) (i i' : Nat) (v : Byte) :
    (s.setBufByte b i v).bufByte b' i' = if b' = b ∧ i' = i then v else s.bufByte b' i' := by
  cases b <;> cases b' <;> simp only [State.setBufByte, State.bufByte, Sparse.lookup_insert, reduceCtorEq, false_and, true_and, ↓reduceIte] <;>
    split <;> rfl

@[simp] theorem setBufByte_bufByte_self (b : Buf) (i : Nat) (v : Byte) : (s.setBufByte b i v).bufByte b i = v := by
  simp [setBufByte_bufByte]

/-- Writing byte `i` of `b` leaves every other byte as it was. -/
theorem setBufByte_sameBytesBut (b : Buf) (i : Nat) (v : Byte) : SameBytesBut b i s (s.setBufByte b i v) := by
  intro b' i' h
  rw [setBufByte_bufByte, if_neg]
  rintro ⟨h1, h2⟩
  exact h.elim (fun h => h h1) (fun h => h h2)

/-! ## Buffer accesses: what they can answer -/

theorem bufRead_ok {b : Buf} {i : Nat} (h : i < bufSize s.cfg b) : bufRead b i s = .ok (s.bufByte b i) := by
  simp [bufRead, h]

theorem bufWrite_ok {b : Buf} {i : Nat} (v : Byte) (h : i < bufSize s.cfg b) : bufWrite b i v s = .ok (s.setBufByte b i v) := by
  simp [bufWrite, h]

/-- A buffer read that answers a byte answers the byte there. -/
theorem bufRead_cases {b : Buf} {i : Nat} {v : Byte} (h : bufRead b i s = .ok v) : i < bufSize s.cfg b ∧ v = s.bufByte b i := by
  unfold bufRead at h
  split at h
  · exact ⟨‹_›, by simpa using h.symm⟩
  · cases h

/-- A buffer write that answers a state answers the state with that byte written. -/
theorem bufWrite_cases {b : Buf} {i : Nat} {v : Byte} {t : State} (h : bufWrite b i v s = .ok t) :
    i < bufSize s.cfg b ∧ t = s.setBufByte b i v := by
  unfold bufWrite at h
  split at h
  · exact ⟨‹_›, by simpa using h.symm⟩
  · cases h

end Sys2Proof.Machine
end

