-- ==== Sys2Proof/Laws/Memory.lean ====
section
/-! SUPPORT. Every memory operation keeps the canonical form of its buffer. -/

namespace Sys2Proof.Machine

/-- The canonical form of a memory is the order and the bound of its map. -/
theorem wf_iff (size : Nat) (m : Memory) : Memory.wf size m ↔ Sparse.Sorted m ∧ Sparse.Below size m := Iff.rfl

theorem wf_nil (size : Nat) : Memory.wf size [] := by simp [Memory.wf]

/-- A byte written inside the buffer keeps the form. -/
theorem wf_insert {size i : Nat} {m : Memory} (v : Byte) (hi : i < size) (h : Memory.wf size m) :
    Memory.wf size (Sparse.insert i v m) :=
  ⟨Sparse.sorted_insert i v h.1, Sparse.below_insert v hi h.2⟩

/-- A listing from index 0 of at most `size` bytes has the form. -/
theorem wf_ofList {size : Nat} {bs : List Byte} (h : bs.length ≤ size) : Memory.wf size (Sparse.ofList 0 bs) :=
  ⟨Sparse.sorted_ofList bs 0, fun x hx => by have := (Sparse.mem_ofList hx).2; omega⟩

/-- Both buffers are canonical and of their sizes. -/
structure BuffersOk (s : State) : Prop where
  image : Memory.wf s.cfg.romSize s.image
  ram : Memory.wf ramSize s.ram

theorem buffersOk_setBufByte {s : State} {b : Buf} {i : Nat} (v : Byte) (hi : i < bufSize s.cfg b) (h : BuffersOk s) :
    BuffersOk (s.setBufByte b i v) := by
  cases b
  · exact ⟨wf_insert v hi h.image, h.ram⟩
  · exact ⟨h.image, wf_insert v hi h.ram⟩

theorem buffersOk_fillRam {s : State} (bs : List Byte) (h : BuffersOk s) : BuffersOk (s.fillRam bs) :=
  ⟨h.image, wf_ofList (by rw [List.length_take]; exact Nat.min_le_left _ _)⟩

theorem buffersOk_drawRamFill {s : State} (h : BuffersOk s) : BuffersOk (drawRamFill s) :=
  ⟨h.image, (buffersOk_fillRam s.draws.rng h).ram⟩

/-- A byte of RAM after a fill: the value set for it, else an open value of the new fill (R116, D37). -/
theorem fillRam_bufByte (s : State) (bs : List Byte) {i : Nat} (hi : i < ramSize) :
    (s.fillRam bs).bufByte .ram i = (bs[i]?).getD (Config.ramByte (s.ramFill + 1) i) := by
  simp only [State.bufByte, fillRam_ram, fillRam_ramFill, Sparse.lookup_ofList, Nat.zero_le, ↓reduceIte, Nat.sub_zero,
    List.getElem?_take, if_pos hi]

end Sys2Proof.Machine
end

