-- ==== Sys2Proof/Laws/Pages.lean ====
section
/-! SUPPORT. The page table: which pages a range holds, what a page reads as after pages are installed, and that the mappings
the cartridge publishes are well formed. -/

namespace Sys2Proof.Machine

/-! ## Page geometry -/

theorem pageSize_pos (c : Config) : 0 < c.pageSize := Nat.two_pow_pos _

/-- Page size times page count is the bus (R8, R24). -/
theorem pageSize_mul_pageCount {c : Config} (h : c.Valid) : c.pageSize * c.pageCount = 65536 := by
  obtain ⟨-, ⟨h1, -⟩, -⟩ := h
  rw [Config.pageSize, Config.pageCount, ← Nat.pow_add, show c.pageShift + (16 - c.pageShift) = 16 by omega]

/-- A page fits in a kibibyte a whole number of times (R8). -/
theorem pageSize_dvd_kib {c : Config} (h : c.Valid) : c.pageSize ∣ 1024 :=
  Nat.pow_dvd_pow 2 (m := c.pageShift) (n := 10) h.2.1.1

theorem pageSize_dvd_slice {c : Config} (h : c.Valid) : c.pageSize ∣ 0x800 :=
  Dvd.dvd.trans (pageSize_dvd_kib h) (by norm_num)

theorem windowBase_dvd {c : Config} (h : c.Valid) : c.pageSize ∣ c.windowBase := Nat.dvd_of_mod_eq_zero h.2.1.2.1

/-- A page that starts below an aligned end stops at it. -/
theorem aligned_page_fits {d a n : Nat} (ha : d ∣ a) (hn : d ∣ n) (h : a < n) : a + d ≤ n := by
  obtain ⟨x, rfl⟩ := ha
  obtain ⟨y, rfl⟩ := hn
  have hxy : x < y := Nat.lt_of_mul_lt_mul_left h
  calc d * x + d = d * (x + 1) := by ring
    _ ≤ d * y := Nat.mul_le_mul_left d hxy

/-- `pagesIn` holds exactly the pages whose base lies in the range. -/
theorem mem_pagesIn {c : Config} {base size p : Nat} :
    p ∈ pagesIn c base size ↔ base ≤ pageBase c p ∧ pageBase c p < base + size := by
  have hpos := pageSize_pos c
  have up : ∀ x, (x + c.pageSize - 1) / c.pageSize ≤ p ↔ x ≤ p * c.pageSize := by
    intro x
    rw [Nat.div_le_iff_le_mul_add_pred hpos, Nat.mul_comm]
    omega
  have h1 := up base
  have h2 := up (base + size)
  simp only [pagesIn, pageBase, List.mem_map, List.mem_range]
  constructor
  · rintro ⟨i, hi, rfl⟩
    omega
  · rintro ⟨ha, hb⟩
    exact ⟨p - (base + c.pageSize - 1) / c.pageSize, by omega, by omega⟩

/-- Every bus address lies on a page below NPAGES (R46, R24). -/
theorem pageOf_lt {c : Config} (h : c.Valid) (a : Addr) : pageOf c a < c.pageCount := by
  have h1 := pageSize_mul_pageCount h
  have h2 := a.isLt
  exact Nat.div_lt_of_lt_mul (by omega)

/-- An address is its page's base plus its place in the page (R18). -/
theorem pageBase_add_inPage (c : Config) (a : Addr) : pageBase c (pageOf c a) + inPage c a = a.toNat := by
  unfold pageBase pageOf inPage
  rw [Nat.mul_comm]
  exact Nat.div_add_mod _ _

theorem inPage_lt (c : Config) (a : Addr) : inPage c a < c.pageSize := Nat.mod_lt _ (pageSize_pos c)

/-- A page of a range inside the bus is below NPAGES. -/
theorem lt_pageCount_of_mem {c : Config} (h : c.Valid) {base size p : Nat} (hb : base + size ≤ 65536)
    (hp : p ∈ pagesIn c base size) : p < c.pageCount := by
  have h1 := pageSize_mul_pageCount h
  have h2 := (mem_pagesIn.mp hp).2
  unfold pageBase at h2
  by_contra hc
  have : c.pageSize * c.pageCount ≤ c.pageSize * p := Nat.mul_le_mul_left _ (by omega)
  rw [Nat.mul_comm c.pageSize p] at this
  omega

theorem lowerPages_lt {c : Config} (h : c.Valid) {p : Nat} (hp : p ∈ lowerPages c) : p < c.pageCount :=
  lt_pageCount_of_mem h (by have := h.2.2.1.2; omega) hp

theorem upperPages_lt {c : Config} (h : c.Valid) {p : Nat} (hp : p ∈ upperPages c) : p < c.pageCount :=
  lt_pageCount_of_mem h (by have := h.2.2.1.2; omega) hp

theorem hotSpotPages_lt {c : Config} (h : c.Valid) {p : Nat} (hp : p ∈ hotSpotPages c) : p < c.pageCount := by
  refine lt_pageCount_of_mem h ?_ hp
  have h1 := h.2.2.1.2
  have h2 := h.2.2.2.1.2.1
  omega

/-- The lower window, the fixed slice and the hot-spot range share no page (R10, R57). -/
theorem lower_not_upper {c : Config} {p : Nat} (h : p ∈ lowerPages c) : p ∉ upperPages c := by
  intro h'
  have h1 := mem_pagesIn.mp h
  have h2 := mem_pagesIn.mp h'
  omega

theorem lower_not_hotSpot {c : Config} (hc : c.Valid) {p : Nat} (h : p ∈ lowerPages c) : p ∉ hotSpotPages c := by
  intro h'
  have h1 := mem_pagesIn.mp h
  have h2 := mem_pagesIn.mp h'
  have h3 := hc.2.2.2.1.2.1
  omega

theorem upper_not_hotSpot {c : Config} (hc : c.Valid) {p : Nat} (h : p ∈ upperPages c) : p ∉ hotSpotPages c := by
  intro h'
  have h1 := mem_pagesIn.mp h
  have h2 := mem_pagesIn.mp h'
  have h3 := hc.2.2.2.1.2.1
  omega

/-! ## What a page reads as -/

/-- The descriptor a table holds for a page. -/
abbrev pageOfTable (pt : Sparse Descriptor) (p : Nat) : Descriptor := (Sparse.lookup p pt).getD Descriptor.unmapped

theorem page_eq (s : State) (p : Nat) : s.page p = pageOfTable s.pt p := rfl

/-- After `PT[p] <- d`, page `p` reads `d` and every other page as before. -/
theorem pageOfTable_setPage (pt : Sparse Descriptor) (p p' : Nat) (d : Descriptor) :
    pageOfTable (setPage p d pt) p' = if p' = p then d else pageOfTable pt p' := by
  unfold setPage pageOfTable
  by_cases hd : d = Descriptor.unmapped
  · rw [if_pos hd, Sparse.lookup_erase]
    split
    · simp [hd]
    · rfl
  · rw [if_neg hd, Sparse.lookup_insert]
    split <;> rfl

/-- After installing `f` on a list of pages, those pages read `f` and every other page as before. -/
theorem pageOfTable_setPages (f : Nat → Descriptor) (ps : List Nat) (pt : Sparse Descriptor) (p : Nat) :
    pageOfTable (setPages f ps pt) p = if p ∈ ps then f p else pageOfTable pt p := by
  induction ps generalizing pt with
  | nil => simp [setPages]
  | cons q qs ih =>
    rw [setPages, ih, pageOfTable_setPage]
    by_cases h1 : p ∈ qs
    · simp [h1]
    · by_cases h2 : p = q
      · subst h2
        simp [h1]
      · simp [h1, h2]

/-- Without its direct references every page keeps its device and nothing else. -/
theorem pageOfTable_dropRefs (pt : Sparse Descriptor) (p : Nat) :
    pageOfTable (dropRefs pt) p = withoutRefs (pageOfTable pt p) := by
  induction pt with
  | nil => rfl
  | cons x rest ih =>
    simp only [pageOfTable, dropRefs, List.map_cons, Sparse.lookup] at ih ⊢
    split
    · rfl
    · exact ih

/-- After a teardown no page holds a direct reference (R159, R168). -/
theorem tearDown_page (s : State) (p : Nat) : (tearDown s).page p = withoutRefs (s.page p) := by
  simp only [page_eq, tearDown_pt, pageOfTable_dropRefs]

/-- The lower window published for `n` reads as the mapping of `n`, every other page as before (R37). -/
theorem publishLower_page (n : BitVec 9) (s : State) (p : Nat) :
    (s.publishLower n).page p = if p ∈ lowerPages s.cfg then lowerMap s.cfg n.toNat p else s.page p := by
  simp only [page_eq, publishLower_pt, pageOfTable_setPages]

/-! ## Well-formed tables -/

/-- Installing a descriptor a page may hold keeps the table well formed. -/
theorem pageTableOk_setPage {c : Config} {pt : Sparse Descriptor} {p : Nat} {d : Descriptor} (h : PageTableOk c pt)
    (hp : p < c.pageCount) (hd : DescriptorOk c d) : PageTableOk c (setPage p d pt) := by
  unfold setPage
  split
  · exact ⟨Sparse.sorted_erase p h.sorted, Sparse.below_erase p h.below, fun x hx => h.mapped x (Sparse.mem_erase hx),
      fun x hx => h.descriptors x (Sparse.mem_erase hx)⟩
  · rename_i hne
    refine ⟨Sparse.sorted_insert p d h.sorted, Sparse.below_insert d hp h.below, ?_, ?_⟩
    · intro x hx
      rcases Sparse.mem_insert hx with rfl | hx
      · exact hne
      · exact h.mapped x hx
    · intro x hx
      rcases Sparse.mem_insert hx with rfl | hx
      · exact hd
      · exact h.descriptors x hx

/-- Taking every direct reference away keeps the table well formed. -/
theorem pageTableOk_dropRefs {c : Config} {pt : Sparse Descriptor} (h : PageTableOk c pt) : PageTableOk c (dropRefs pt) := by
  refine ⟨List.pairwise_map.mpr h.sorted, ?_, ?_, ?_⟩ <;> intro x hx <;> obtain ⟨y, hy, rfl⟩ := List.mem_map.mp hx
  · exact h.below y hy
  · intro hu
    exact h.mapped y hy ((h.descriptors y hy).owned (congrArg Descriptor.dev hu))
  · refine ⟨nofun, nofun, nofun, fun hd => ?_⟩
    rw [(h.descriptors y hy).owned hd]
    rfl

/-- Installing descriptors pages may hold keeps the table well formed. -/
theorem pageTableOk_setPages {c : Config} {f : Nat → Descriptor} {ps : List Nat} {pt : Sparse Descriptor}
    (h : PageTableOk c pt) (hp : ∀ p ∈ ps, p < c.pageCount) (hd : ∀ p ∈ ps, DescriptorOk c (f p)) :
    PageTableOk c (setPages f ps pt) := by
  induction ps generalizing pt with
  | nil => exact h
  | cons q qs ih =>
    have hq := List.mem_cons_self (a := q) (l := qs)
    exact ih (pageTableOk_setPage h (hp q hq) (hd q hq)) (fun p hp' => hp p (List.mem_cons_of_mem _ hp'))
      (fun p hp' => hd p (List.mem_cons_of_mem _ hp'))

/-- In a well-formed table every page reads a descriptor it may hold. -/
theorem descriptorOk_page {c : Config} {pt : Sparse Descriptor} (h : PageTableOk c pt) (p : Nat) :
    DescriptorOk c (pageOfTable pt p) := by
  unfold pageOfTable
  cases hl : Sparse.lookup p pt with
  | none => exact ⟨by simp [Descriptor.unmapped], by simp [Descriptor.unmapped], by simp [Descriptor.unmapped], fun _ => rfl⟩
  | some d => exact h.descriptors (p, d) (Sparse.mem_of_lookup hl)

/-! ## The cartridge's mappings are well formed -/

/-- The offset of a lower-window page is aligned and its page ends inside the banked segment. -/
theorem lower_offset {c : Config} (h : c.Valid) {p : Nat} (hp : p ∈ lowerPages c) :
    c.pageSize ∣ pageBase c p - c.windowBase ∧ pageBase c p - c.windowBase + c.pageSize ≤ 0x800 := by
  obtain ⟨h1, h2⟩ := mem_pagesIn.mp hp
  have hd : c.pageSize ∣ pageBase c p - c.windowBase := Nat.dvd_sub (Nat.dvd_mul_left _ _) (windowBase_dvd h)
  refine ⟨hd, aligned_page_fits hd (pageSize_dvd_slice h) ?_⟩
  omega

theorem lowerMap_ok {c : Config} (h : c.Valid) {n : BitVec 9} (hn : SelLegal c n) {p : Nat} (hp : p ∈ lowerPages c) :
    DescriptorOk c (lowerMap c n.toNat p) := by
  obtain ⟨hd, hfit⟩ := lower_offset h hp
  have hrom : c.romBanks * 2048 = c.romSize := by
    have := h.1.1
    unfold Config.romBanks
    omega
  unfold lowerMap
  rcases hn with ⟨h1, h2⟩ | ⟨h1, h2⟩
  · simp only [if_pos h1]
    refine ⟨?_, by simp, by simp, by simp⟩
    intro r hr
    obtain rfl := Option.some.inj hr
    show n.toNat * 2048 + (pageBase c p - c.windowBase) + c.pageSize ≤ c.romSize
    have : (n.toNat + 1) * 2048 ≤ c.romBanks * 2048 := Nat.mul_le_mul_right _ h2
    omega
  · simp only [if_neg (show ¬ n.toNat < 256 by omega)]
    split
    · rename_i ho
      have := aligned_page_fits hd (pageSize_dvd_kib h) ho
      refine ⟨?_, by simp, by simp, by simp⟩
      intro r hr
      obtain rfl := Option.some.inj hr
      have hram : ramSize = 32768 := rfl
      show (n.toNat - 256) * 1024 + (pageBase c p - c.windowBase) + c.pageSize ≤ ramSize
      omega
    · refine ⟨by simp, ?_, ?_, by simp⟩
      · intro r hr
        obtain rfl := Option.some.inj hr
        have hram : ramSize = 32768 := rfl
        show (n.toNat - 256) * 1024 + (pageBase c p - c.windowBase - 0x400) + c.pageSize ≤ ramSize
        omega
      · intro r hr
        obtain rfl := Option.some.inj hr
        simp

theorem upperMap_ok {c : Config} (h : c.Valid) {p : Nat} (hp : p ∈ upperPages c) : DescriptorOk c (upperMap c p) := by
  obtain ⟨h1, h2⟩ := mem_pagesIn.mp hp
  have hd : c.pageSize ∣ pageBase c p - c.windowBase - 0x800 :=
    Nat.dvd_sub (Nat.dvd_sub (Nat.dvd_mul_left _ _) (windowBase_dvd h)) (pageSize_dvd_slice h)
  have := aligned_page_fits hd (pageSize_dvd_slice h) (by omega)
  refine ⟨?_, by simp [upperMap], by simp [upperMap], by simp [upperMap]⟩
  intro r hr
  obtain rfl := Option.some.inj hr
  show c.romSize - 2048 + (pageBase c p - c.windowBase - 0x800) + c.pageSize ≤ c.romSize
  have := h.1.2
  omega

theorem hsMap_ok (c : Config) (p : Nat) : DescriptorOk c (hsMap p) :=
  ⟨by simp [hsMap], by simp [hsMap], by simp [hsMap], by simp [hsMap]⟩

/-- A descriptor PTSET accepts is one a page may hold (R99, R28). -/
theorem accepted_ok {c : Config} {d : Descriptor} (h : descriptorIllFormed c d = false) : DescriptorOk c d := by
  obtain ⟨rd, wr, dev⟩ := d
  simp only [descriptorIllFormed, Bool.or_eq_false_iff, Bool.and_eq_false_imp, decide_eq_true_eq] at h
  obtain ⟨⟨h1, h2, h3⟩, h4⟩ := h
  refine ⟨?_, ?_, ?_, ?_⟩
  · rintro r ⟨⟩
    simpa [refLeavesBuffer, RefInside] using h2
  · rintro r ⟨⟩
    simpa [refLeavesBuffer, RefInside] using h3
  · rintro ⟨b, base⟩ ⟨⟩ rfl
    simp [refIntoImage] at h4
  · intro hdev
    have hdev' : dev = .none := hdev
    subst hdev'
    have := h1 rfl
    cases rd <;> cases wr <;> simp_all [Descriptor.unmapped]

end Sys2Proof.Machine
end

