-- ==== Sys2Proof/Laws/Cartridge.lean ====
section
/-! SUPPORT. The cartridge's inner functions: normalisation, what an offset shows, selection, the read and the write handler.
Each has one lemma that says everything it can do. -/

namespace Sys2Proof.Machine

/-! ## Normalisation (R36) -/

theorem romBanks_pos {c : Config} (h : c.Valid) : 0 < c.romBanks := by
  have := h.1.2
  unfold Config.romBanks
  omega

theorem romBanks_mul {c : Config} (h : c.Valid) : c.romBanks * 2048 = c.romSize := by
  have := h.1.1
  unfold Config.romBanks
  omega

theorem norm_rom {c : Config} {n : Nat} (h : n < 256) : norm c n = n % c.romBanks := if_pos h

theorem norm_ram {c : Config} {n : Nat} (h : 256 ≤ n) : norm c n = 256 + n % 32 := by
  unfold norm
  rw [if_neg (by omega)]
  omega

theorem norm_lt (c : Config) (n : Nat) : norm c n < 512 := by
  by_cases h : n < 256
  · rw [norm_rom h]
    have := Nat.mod_le n c.romBanks
    omega
  · rw [norm_ram (by omega)]
    omega

@[simp] theorem normSel_toNat (c : Config) (n : Nat) : (normSel c n).toNat = norm c n := by
  simp only [normSel, BitVec.toNat_ofNat]
  exact Nat.mod_eq_of_lt (norm_lt c n)

/-- `norm(n)` is always a legal selector (R36, R30). -/
theorem normSel_legal {c : Config} (h : c.Valid) (n : Nat) : SelLegal c (normSel c n) := by
  unfold SelLegal
  rw [normSel_toNat]
  by_cases hn : n < 256
  · left
    rw [norm_rom hn]
    have := Nat.mod_le n c.romBanks
    exact ⟨by omega, Nat.mod_lt _ (romBanks_pos h)⟩
  · right
    rw [norm_ram (by omega)]
    omega

/-- A legal selector is its own normal form. -/
theorem norm_of_legal {c : Config} {sel : BitVec 9} (h : SelLegal c sel) : norm c sel.toNat = sel.toNat := by
  rcases h with ⟨h1, h2⟩ | ⟨h1, h2⟩
  · rw [norm_rom h1, Nat.mod_eq_of_lt h2]
  · rw [norm_ram h1]
    omega

/-! ## What an offset shows -/

theorem localOffset_lt (a : Addr) : localOffset a < 4096 := Nat.mod_lt _ (by decide)

/-- The local offset is `addr & 0x0FFF` (R11). -/
theorem localOffset_eq_and (a : Addr) : localOffset a = (a &&& 0x0FFF#16).toNat := by
  rw [BitVec.toNat_and, show (0x0FFF#16).toNat = 2 ^ 12 - 1 by decide, Nat.and_two_pow_sub_one_eq_mod]
  rfl

/-- Below 0x800 a ROM selection shows its bank (R105). -/
theorem shownAt_rom (c : Config) {sel off : Nat} (ho : off < 0x800) (hs : sel < 256) :
    shownAt c sel off = .cell .image (romBase sel + off % 0x800) := by
  rw [shownAt, if_pos ho, if_pos hs]

/-- Below 0x400 a RAM selection shows its read port (R105). -/
theorem shownAt_readPort (c : Config) {sel off : Nat} (ho : off < 0x400) (hs : 256 ≤ sel) :
    shownAt c sel off = .cell .ram (ramBase sel + off % 0x400) := by
  rw [shownAt, if_pos (by omega), if_neg (by omega), if_pos ho]

/-- From 0x400 to 0x7FF a RAM selection shows its write port (R105). -/
theorem shownAt_writePort (c : Config) {sel off : Nat} (h1 : 0x400 ≤ off) (h2 : off < 0x800) (hs : 256 ≤ sel) :
    shownAt c sel off = .writePort (ramBase sel + off % 0x400) := by
  rw [shownAt, if_pos h2, if_neg (by omega), if_neg (by omega)]

/-- From 0x800 every selection shows the fixed slice (R105). -/
theorem shownAt_fixed (c : Config) (sel : Nat) {off : Nat} (h : 0x800 ≤ off) :
    shownAt c sel off = .cell .image (fixedBase c + off % 0x800) := by
  rw [shownAt, if_neg (by omega)]

/-- A ROM bank's byte lies in IMAGE. -/
theorem romBase_inside {c : Config} (h : c.Valid) {sel : Nat} (hs : sel < c.romBanks) {o : Nat} (ho : o < 0x800) :
    romBase sel + o < c.romSize := by
  have hrom := romBanks_mul h
  have : (sel + 1) * 2048 ≤ c.romBanks * 2048 := Nat.mul_le_mul_right _ hs
  unfold romBase
  omega

/-- A bank-pair's byte lies in RAM. -/
theorem ramBase_inside {sel : Nat} (hs : sel ≤ 287) {o : Nat} (ho : o < 0x400) : ramBase sel + o < ramSize := by
  have hram : ramSize = 32768 := rfl
  unfold ramBase
  omega

theorem fixedBase_inside {c : Config} (h : c.Valid) {o : Nat} (ho : o < 0x800) : fixedBase c + o < c.romSize := by
  have := h.1.2
  unfold fixedBase
  omega

/-- Where what an offset shows lies: a buffer and an index. -/
def Shown.place : Shown → Buf × Nat
  | .cell b i => (b, i)
  | .writePort i => (.ram, i)

/-- Under legal parameters and a legal selector, what an offset shows lies inside its buffer (R30, R35). -/
theorem shownAt_inside {c : Config} (h : c.Valid) {sel : BitVec 9} (hs : SelLegal c sel) (off : Nat) :
    (shownAt c sel.toNat off).place.2 < bufSize c (shownAt c sel.toNat off).place.1 := by
  by_cases h1 : off < 0x800
  · rcases hs with ⟨hs1, hs2⟩ | ⟨hs1, hs2⟩
    · rw [shownAt_rom c h1 hs1]
      exact romBase_inside h hs2 (Nat.mod_lt _ (by decide))
    · by_cases h2 : off < 0x400
      · rw [shownAt_readPort c h2 hs1]
        exact ramBase_inside hs2 (Nat.mod_lt _ (by decide))
      · rw [shownAt_writePort c (by omega) h1 hs1]
        exact ramBase_inside hs2 (Nat.mod_lt _ (by decide))
  · rw [shownAt_fixed c _ (by omega)]
    exact fixedBase_inside h (Nat.mod_lt _ (by decide))

theorem patchTarget_eq_place (c : Config) (sel off : Nat) : patchTarget c sel off = (shownAt c sel off).place := by
  unfold patchTarget Shown.place
  cases shownAt c sel off <;> rfl

theorem patchTarget_inside {c : Config} (h : c.Valid) {sel : BitVec 9} (hs : SelLegal c sel) (off : Nat) :
    (patchTarget c sel.toNat off).2 < bufSize c (patchTarget c sel.toNat off).1 := by
  rw [patchTarget_eq_place]
  exact shownAt_inside h hs off

/-! ## Selection (R108) -/

/-- The whole of `Select(n)`: nothing under LOCKED; else SEL, the lower window and CHANGED. -/
theorem select_eq (n : Nat) (s : State) :
    select n s =
      if s.locked then s
      else { s with
        sel := normSel s.cfg n
        pt := setPages (lowerMap s.cfg (norm s.cfg n)) (lowerPages s.cfg) s.pt
        changed := true } := by
  unfold select
  split
  · rfl
  · simp only [State.publishLower, State.markChanged, normSel_toNat]

theorem select_locked {n : Nat} {s : State} (h : s.locked = true) : select n s = s := by
  rw [select_eq, if_pos h]

theorem select_unlocked {n : Nat} {s : State} (h : s.locked = false) :
    select n s =
      { s with
        sel := normSel s.cfg n
        pt := setPages (lowerMap s.cfg (norm s.cfg n)) (lowerPages s.cfg) s.pt
        changed := true } := by
  rw [select_eq, if_neg (by simp [h])]

section SelectFields

variable (n : Nat) (s : State)

@[simp] theorem select_cfg : (select n s).cfg = s.cfg := by rw [select_eq]; split <;> rfl
@[simp] theorem select_image : (select n s).image = s.image := by rw [select_eq]; split <;> rfl
@[simp] theorem select_ram : (select n s).ram = s.ram := by rw [select_eq]; split <;> rfl
@[simp] theorem select_imagesReleased : (select n s).imagesReleased = s.imagesReleased := by rw [select_eq]; split <;> rfl
@[simp] theorem select_ramFill : (select n s).ramFill = s.ramFill := by rw [select_eq]; split <;> rfl
@[simp] theorem select_startBank : (select n s).startBank = s.startBank := by rw [select_eq]; split <;> rfl
@[simp] theorem select_locked_field : (select n s).locked = s.locked := by rw [select_eq]; split <;> rfl
@[simp] theorem select_buckets : (select n s).buckets = s.buckets := by rw [select_eq]; split <;> rfl
@[simp] theorem select_cursor : (select n s).cursor = s.cursor := by rw [select_eq]; split <;> rfl
@[simp] theorem select_index : (select n s).index = s.index := by rw [select_eq]; split <;> rfl
@[simp] theorem select_inbox : (select n s).inbox = s.inbox := by rw [select_eq]; split <;> rfl
@[simp] theorem select_response : (select n s).response = s.response := by rw [select_eq]; split <;> rfl
@[simp] theorem select_tornDown : (select n s).tornDown = s.tornDown := by rw [select_eq]; split <;> rfl
@[simp] theorem select_faults : (select n s).faults = s.faults := by rw [select_eq]; split <;> rfl
@[simp] theorem select_draws : (select n s).draws = s.draws := by rw [select_eq]; split <;> rfl
@[simp] theorem select_bufByte (b : Buf) (i : Nat) : (select n s).bufByte b i = s.bufByte b i := by cases b <;> simp [State.bufByte]
@[simp] theorem select_bucket (j : Nat) : (select n s).bucket j = s.bucket j := by simp [State.bucket]
@[simp] theorem select_slot (a : BitVec 8) : (select n s).slot a = s.slot a := by simp [State.slot]

/-- After a selection a page reads the new mapping if it is of the lower window and the lock is off, else as before. -/
theorem select_page (p : Nat) :
    (select n s).page p =
      if s.locked = false ∧ p ∈ lowerPages s.cfg then lowerMap s.cfg (norm s.cfg n) p else s.page p := by
  rw [select_eq]
  cases h : s.locked
  · simp only [Bool.false_eq_true, ↓reduceIte, true_and, page_eq, pageOfTable_setPages]
  · simp

theorem select_sel : (select n s).sel = if s.locked then s.sel else normSel s.cfg n := by
  rw [select_eq]; split <;> rfl

theorem select_changed : (select n s).changed = (s.changed || !s.locked) := by
  rw [select_eq]; cases h : s.locked <;> simp

end SelectFields

/-- A selection keeps a legal SEL and a well-formed page table. -/
theorem select_keeps {n : Nat} {s : State} (hc : s.cfg.Valid) (hs : SelLegal s.cfg s.sel) (hp : PageTableOk s.cfg s.pt) :
    SelLegal s.cfg (select n s).sel ∧ PageTableOk s.cfg (select n s).pt := by
  cases h : s.locked with
  | true => rw [select_locked h]; exact ⟨hs, hp⟩
  | false =>
    rw [select_unlocked h]
    refine ⟨normSel_legal hc n, pageTableOk_setPages hp (fun p hp' => lowerPages_lt hc hp') fun p hp' => ?_⟩
    have := lowerMap_ok hc (normSel_legal hc n) hp'
    rwa [normSel_toNat] at this

/-! ## The read handler (R105, R106) -/

/-- A read of a cell answers the byte there and changes nothing. -/
theorem cartRead_cell {addr : Addr} {s : State} {b : Buf} {i : Nat}
    (h : shownAt s.cfg s.sel.toNat (localOffset addr) = .cell b i) (hi : i < bufSize s.cfg b) :
    cartRead addr s = .ok (s.bufByte b i, s) := by
  simp [cartRead, h, bufRead_ok s hi]

/-- A locked write-port read answers the floating-bus draw and stores nothing. -/
theorem cartRead_writePort_locked {addr : Addr} {s : State} {i : Nat}
    (h : shownAt s.cfg s.sel.toNat (localOffset addr) = .writePort i) (hl : s.locked = true) :
    cartRead addr s = .ok (drawFloatingBus s) := by
  simp [cartRead, h, hl]

/-- An unlocked write-port read answers the floating-bus draw and stores it. -/
theorem cartRead_writePort_unlocked {addr : Addr} {s : State} {i : Nat}
    (h : shownAt s.cfg s.sel.toNat (localOffset addr) = .writePort i) (hl : s.locked = false) (hi : i < ramSize) :
    cartRead addr s = .ok ((drawFloatingBus s).1, (drawFloatingBus s).2.setBufByte .ram i (drawFloatingBus s).1) := by
  have : bufWrite .ram i (drawFloatingBus s).1 (drawFloatingBus s).2 =
      .ok ((drawFloatingBus s).2.setBufByte .ram i (drawFloatingBus s).1) := bufWrite_ok _ _ hi
  simp [cartRead, h, hl, this]

/-- Everything a cartridge read can do when it answers: a cell read, a locked write-port read, or an unlocked one. -/
theorem cartRead_cases {addr : Addr} {s t : State} {v : Byte} (h : cartRead addr s = .ok (v, t)) :
    (∃ b i, shownAt s.cfg s.sel.toNat (localOffset addr) = .cell b i ∧ i < bufSize s.cfg b ∧ v = s.bufByte b i ∧ t = s) ∨
    (∃ i, shownAt s.cfg s.sel.toNat (localOffset addr) = .writePort i ∧ s.locked = true ∧ (v, t) = drawFloatingBus s) ∨
    (∃ i, shownAt s.cfg s.sel.toNat (localOffset addr) = .writePort i ∧ s.locked = false ∧ i < ramSize ∧
      v = (drawFloatingBus s).1 ∧ t = (drawFloatingBus s).2.setBufByte .ram i v) := by
  unfold cartRead at h
  cases hsh : shownAt s.cfg s.sel.toNat (localOffset addr) with
  | cell b i =>
    rw [hsh] at h
    cases hb : bufRead b i s with
    | error e => simp [hb] at h
    | ok w =>
      simp only [hb, Except.ok.injEq, Prod.mk.injEq] at h
      obtain ⟨h1, h2⟩ := bufRead_cases s hb
      exact .inl ⟨b, i, rfl, h1, by rw [← h.1, h2], h.2.symm⟩
  | writePort i =>
    rw [hsh] at h
    simp only [drawFloatingBus_locked] at h
    cases hl : s.locked with
    | true =>
      simp only [hl, ↓reduceIte, Except.ok.injEq] at h
      exact .inr (.inl ⟨i, rfl, rfl, by rw [← h]⟩)
    | false =>
      simp only [hl, Bool.false_eq_true, ↓reduceIte] at h
      cases hw : bufWrite .ram i (drawFloatingBus s).1 (drawFloatingBus s).2 with
      | error e => simp [hw] at h
      | ok u =>
        simp only [hw, Except.ok.injEq, Prod.mk.injEq] at h
        obtain ⟨h1, h2⟩ := bufWrite_cases _ hw
        exact .inr (.inr ⟨i, rfl, rfl, h1, h.1.symm, by rw [← h.2, h2, h.1]⟩)

/-- Under legal parameters and a legal SEL a cartridge read always answers (R104, R105: status always OK). -/
theorem cartRead_answers {addr : Addr} {s : State} (hc : s.cfg.Valid) (hs : SelLegal s.cfg s.sel) :
    ∃ v t, cartRead addr s = .ok (v, t) := by
  have hin := shownAt_inside hc hs (localOffset addr)
  cases hsh : shownAt s.cfg s.sel.toNat (localOffset addr) with
  | cell b i =>
    rw [hsh] at hin
    exact ⟨_, _, cartRead_cell hsh hin⟩
  | writePort i =>
    rw [hsh] at hin
    cases hl : s.locked with
    | true => exact ⟨_, _, cartRead_writePort_locked hsh hl⟩
    | false => exact ⟨_, _, cartRead_writePort_unlocked hsh hl hin⟩

/-! ## The write handler (R110, R111) -/

/-- The selection a hot-spot write makes, if any, is a selection. -/
theorem hotSpotSelect_cases (addr : Addr) (data : Byte) (s : State) :
    hotSpotSelect addr data s = s ∨ ∃ n, hotSpotSelect addr data s = select n s := by
  unfold hotSpotSelect
  split
  · exact .inr ⟨_, rfl⟩
  · split
    · exact .inr ⟨_, rfl⟩
    · exact .inl rfl

/-- Everything a cartridge write can do: one CHIP_POKE, over the state left by no selection or by one. -/
theorem cartWrite_cases (addr : Addr) (data : Byte) (s : State) :
    cartWrite addr data s = s.respond 0#16 [.chipPoke addr data] ∨
    ∃ n, cartWrite addr data s = (select n s).respond 0#16 [.chipPoke addr data] := by
  unfold cartWrite
  rcases hotSpotSelect_cases addr data s with h | ⟨n, h⟩
  · exact .inl (by rw [h])
  · exact .inr ⟨n, by rw [h]⟩

end Sys2Proof.Machine
end

