-- ==== Sys2Proof/Laws/Encoding.lean ====
section
/-! SUPPORT. The fields of an encoded word, read back one by one. -/

namespace Sys2Proof

/-- The high part of a concatenation. -/
theorem extract_high {u v : Nat} (x : BitVec u) (y : BitVec v) : (x ++ y).extractLsb' v u = x := by
  ext i hi
  simp [BitVec.getLsbD_append, hi]

/-- A field that lies in the low part of a concatenation. -/
theorem extract_low {u v : Nat} (x : BitVec u) (y : BitVec v) {s n : Nat} (h : s + n ≤ v) :
    (x ++ y).extractLsb' s n = y.extractLsb' s n := by
  ext i hi
  simp only [BitVec.getElem_extractLsb', BitVec.getLsbD_append]
  rw [if_pos (by omega)]

/-! ## The opcode (R71) -/

@[simp] theorem opField_wordN (op : BitVec 8) : opField (wordN op) = op := extract_high op _

@[simp] theorem opField_wordA (op : BitVec 8) (a : BitVec 16) : opField (wordA op a) = op := extract_high op _

@[simp] theorem opField_wordAD (op : BitVec 8) (a : BitVec 16) (d : BitVec 8) : opField (wordAD op a d) = op := extract_high op _

@[simp] theorem opField_wordS (op : BitVec 8) (sel : BitVec 9) : opField (wordS op sel) = op := extract_high op _

@[simp] theorem opField_wordK (op : BitVec 8) (lk : Bool) : opField (wordK op lk) = op := extract_high op _

@[simp] theorem opField_wordQ (op qaddr value delay : BitVec 8) : opField (wordQ op qaddr value delay) = op := extract_high op _

/-! ## The operands (R72) -/

@[simp] theorem addrField_wordA (op : BitVec 8) (a : BitVec 16) : addrField (wordA op a) = a :=
  (extract_low op (a ++ 0#8) (by decide)).trans (extract_high a 0#8)

@[simp] theorem addrField_wordAD (op : BitVec 8) (a : BitVec 16) (d : BitVec 8) : addrField (wordAD op a d) = a :=
  (extract_low op (a ++ d) (by decide)).trans (extract_high a d)

@[simp] theorem lowField_wordAD (op : BitVec 8) (a : BitVec 16) (d : BitVec 8) : lowField (wordAD op a d) = d :=
  (extract_low op (a ++ d) (by decide)).trans ((extract_low a d (by decide)).trans (by simp))

@[simp] theorem selField_wordS (op : BitVec 8) (sel : BitVec 9) : selField (wordS op sel) = sel :=
  (extract_low op (0#15 ++ sel) (by decide)).trans ((extract_low 0#15 sel (by decide)).trans (by simp))

@[simp] theorem lockField_wordK (op : BitVec 8) (lk : Bool) : lockField (wordK op lk) = lk := by
  unfold lockField wordK
  rw [BitVec.getLsbD_append]
  cases lk <;> rfl

@[simp] theorem qaddrField_wordQ (op qaddr value delay : BitVec 8) : qaddrField (wordQ op qaddr value delay) = qaddr :=
  (extract_low op (qaddr ++ (value ++ delay)) (by decide)).trans (extract_high qaddr (value ++ delay))

@[simp] theorem valueField_wordQ (op qaddr value delay : BitVec 8) : valueField (wordQ op qaddr value delay) = value :=
  (extract_low op (qaddr ++ (value ++ delay)) (by decide)).trans
    ((extract_low qaddr (value ++ delay) (by decide)).trans (extract_high value delay))

@[simp] theorem lowField_wordQ (op qaddr value delay : BitVec 8) : lowField (wordQ op qaddr value delay) = delay :=
  (extract_low op (qaddr ++ (value ++ delay)) (by decide)).trans
    ((extract_low qaddr (value ++ delay) (by decide)).trans ((extract_low value delay (by decide)).trans (by simp)))

/-! ## Masks: each format's word under the mask of its rows in the opcode table -/

theorem wordN_mask (op : BitVec 8) : wordN op &&& 0xFFFFFFFF#32 = op ++ 0#24 := BitVec.and_allOnes

theorem wordA_mask (op : BitVec 8) (a : BitVec 16) : wordA op a &&& 0xFF0000FF#32 = op ++ 0#24 := by
  rw [wordA, show 0xFF0000FF#32 = BitVec.allOnes 8 ++ (0#16 ++ BitVec.allOnes 8 : BitVec 24) from rfl, BitVec.and_append,
    BitVec.and_append, BitVec.and_allOnes]
  simp

theorem wordAD_mask (op : BitVec 8) (a : BitVec 16) (d : BitVec 8) : wordAD op a d &&& 0xFF000000#32 = op ++ 0#24 := by
  rw [wordAD, show 0xFF000000#32 = BitVec.allOnes 8 ++ 0#24 from rfl, BitVec.and_append, BitVec.and_allOnes]
  simp

theorem wordS_mask (op : BitVec 8) (sel : BitVec 9) : wordS op sel &&& 0xFFFFFE00#32 = op ++ 0#24 := by
  rw [wordS, show 0xFFFFFE00#32 = BitVec.allOnes 8 ++ (BitVec.allOnes 15 ++ 0#9 : BitVec 24) from rfl, BitVec.and_append,
    BitVec.and_append, BitVec.and_allOnes]
  simp

theorem wordK_mask (op : BitVec 8) (lk : Bool) : wordK op lk &&& 0xFFFFFFFE#32 = op ++ 0#24 := by
  rw [wordK, show 0xFFFFFFFE#32 = BitVec.allOnes 8 ++ (BitVec.allOnes 23 ++ 0#1 : BitVec 24) from rfl, BitVec.and_append,
    BitVec.and_append, BitVec.and_allOnes]
  simp

theorem wordQ_mask (op qaddr value delay : BitVec 8) : wordQ op qaddr value delay &&& 0xFF000000#32 = op ++ 0#24 := by
  rw [wordQ, show 0xFF000000#32 = BitVec.allOnes 8 ++ 0#24 from rfl, BitVec.and_append, BitVec.and_allOnes]
  simp

end Sys2Proof
end

