-- ==== Sys2Proof/Laws/Queue.lean ====
section
/-! SUPPORT. The delay queue: what a bucket and a slot read as after a push, a delivery and a clear, and that each keeps the
queue invariants. -/

namespace Sys2Proof.Machine

/-! ## Buckets -/

/-- Bucket `j` of a list of buckets. -/
abbrev bucketOf (bs : List (List Entry)) (j : Nat) : List Entry := (bs[j]?).getD []

theorem bucket_eq (s : State) (j : Nat) : s.bucket j = bucketOf s.buckets j := rfl

/-- A changed bucket reads changed, every other bucket as before. -/
theorem bucketOf_changeBucket (bs : List (List Entry)) (j k : Nat) (f : List Entry → List Entry) :
    bucketOf (changeBucket j f bs) k = if k = j ∧ k < bs.length then f (bucketOf bs k) else bucketOf bs k := by
  unfold bucketOf changeBucket
  rw [List.getElem?_modify]
  by_cases hk : k < bs.length
  · rw [List.getElem?_eq_getElem hk]
    by_cases hj : j = k
    · simp [hj, hk]
    · simp [hj, Ne.symm hj]
  · rw [List.getElem?_eq_none (by omega)]
    simp [hk]

@[simp] theorem changeBucket_length (j : Nat) (f : List Entry → List Entry) (bs : List (List Entry)) :
    (changeBucket j f bs).length = bs.length := by simp [changeBucket]

theorem bucketOf_mem {bs : List (List Entry)} {b : List Entry} (h : b ∈ bs) : ∃ k, k < bs.length ∧ b = bucketOf bs k := by
  obtain ⟨k, hk, rfl⟩ := List.mem_iff_getElem.mp h
  exact ⟨k, hk, by simp [bucketOf, hk]⟩

theorem bucketOf_mem_of_lt {bs : List (List Entry)} {k : Nat} (h : k < bs.length) : bucketOf bs k ∈ bs := by
  simp [bucketOf, h]

theorem lt_of_mem_bucketOf {bs : List (List Entry)} {k : Nat} {e : Entry} (h : e ∈ bucketOf bs k) : k < bs.length := by
  by_contra hc
  simp [bucketOf, List.getElem?_eq_none (Nat.le_of_not_lt hc)] at h

/-! ## Entries of one address -/

/-- How many entries of a bucket have address `a`. -/
abbrev countAddr (a : BitVec 8) (b : List Entry) : Nat := (b.filter (fun e => e.addr = a)).length

theorem mem_dropAddr {a : BitVec 8} {b : List Entry} {e : Entry} : e ∈ dropAddr a b ↔ e ∈ b ∧ e.addr ≠ a := by
  simp [dropAddr]

theorem countAddr_pos {a : BitVec 8} {b : List Entry} : 0 < countAddr a b ↔ ∃ e ∈ b, e.addr = a := by
  simp [countAddr, List.length_pos_iff_exists_mem]

theorem countAddr_dropAddr_self (a : BitVec 8) (b : List Entry) : countAddr a (dropAddr a b) = 0 := by
  simp [countAddr, dropAddr]

theorem countAddr_dropAddr_le (a a' : BitVec 8) (b : List Entry) : countAddr a' (dropAddr a b) ≤ countAddr a' b := by
  unfold countAddr dropAddr
  rw [List.filter_filter, ← List.countP_eq_length_filter, ← List.countP_eq_length_filter]
  exact List.countP_mono_left (fun e _ h => by simp_all)

theorem countAddr_append (a : BitVec 8) (b b' : List Entry) : countAddr a (b ++ b') = countAddr a b + countAddr a b' := by
  simp [countAddr]

/-- A bucket without an entry for `a` is not changed by dropping `a`. -/
theorem dropAddr_of_absent {a : BitVec 8} {b : List Entry} (h : ¬ ∃ e ∈ b, e.addr = a) : dropAddr a b = b := by
  unfold dropAddr
  rw [List.filter_eq_self]
  intro e he
  simp only [decide_eq_true_eq]
  exact fun hc => h ⟨e, he, hc⟩

theorem dropAddr_length_le (a : BitVec 8) (b : List Entry) : (dropAddr a b).length ≤ b.length := List.length_filter_le _ _

/-- Dropping an address that is there shortens the bucket. -/
theorem dropAddr_length_lt {a : BitVec 8} {b : List Entry} (h : ∃ e ∈ b, e.addr = a) : (dropAddr a b).length < b.length := by
  obtain ⟨e, he, hea⟩ := h
  exact List.length_filter_lt_length_iff_exists.mpr ⟨e, he, by simp [hea]⟩

/-- One bucket at most holds an address, and it at most once: then at most one entry has it. -/
theorem onePending_of {a : BitVec 8} {bs : List (List Entry)} (h1 : ∀ b ∈ bs, countAddr a b ≤ 1)
    (h2 : ∀ j k, (∃ e ∈ bucketOf bs j, e.addr = a) → (∃ e ∈ bucketOf bs k, e.addr = a) → j = k) :
    (bs.flatten.filter (fun e => e.addr = a)).length ≤ 1 := by
  induction bs with
  | nil => simp
  | cons b bs ih =>
    have ih' := ih (fun b' hb' => h1 b' (List.mem_cons_of_mem _ hb')) (fun j k hj hk => by
      have := h2 (j + 1) (k + 1) (by simpa [bucketOf] using hj) (by simpa [bucketOf] using hk)
      omega)
    have hb := h1 b (by simp)
    rw [List.flatten_cons, List.filter_append, List.length_append]
    by_cases h0 : 0 < countAddr a b
    · have htail : bs.flatten.filter (fun e => e.addr = a) = [] := by
        rw [List.filter_eq_nil_iff]
        intro e he
        simp only [decide_eq_true_eq]
        intro hea
        obtain ⟨b', hb', heb'⟩ := List.mem_flatten.mp he
        obtain ⟨k, -, rfl⟩ := bucketOf_mem hb'
        have := h2 0 (k + 1) (by simpa [bucketOf] using countAddr_pos.mp h0) (by simpa [bucketOf] using ⟨e, heb', hea⟩)
        omega
      rw [htail]
      simpa [countAddr] using hb
    · have : (b.filter (fun e => e.addr = a)).length = 0 := by
        simpa [countAddr] using h0
      omega

theorem countAddr_le_one {s : State} (h : QueueOk s) (a : BitVec 8) {b : List Entry} (hb : b ∈ s.buckets) : countAddr a b ≤ 1 := by
  refine le_trans ?_ (h.onePending a)
  exact List.Sublist.length_le (List.Sublist.filter _ (List.sublist_flatten_of_mem hb))

/-- Two buckets that hold the same address are one bucket. -/
theorem bucket_unique {s : State} (h : QueueOk s) {a : BitVec 8} {j k : Nat} (hj : ∃ e ∈ s.bucket j, e.addr = a)
    (hk : ∃ e ∈ s.bucket k, e.addr = a) : j = k := by
  have h1 := (h.indexExact a j).mpr hj
  have h2 := (h.indexExact a k).mpr hk
  rw [h1] at h2
  exact Option.some.inj h2

/-- The queue invariants depend on the parameters and the queue alone. -/
theorem queueOk_of_same {s t : State} (h : QueueOk s) (hc : t.cfg = s.cfg) (hb : t.buckets = s.buckets)
    (hcur : t.cursor = s.cursor) (hi : t.index = s.index) : QueueOk t := by
  have hbk : ∀ j, t.bucket j = s.bucket j := fun j => by rw [bucket_eq, bucket_eq, hb]
  have hsl : ∀ a, t.slot a = s.slot a := fun a => by simp [State.slot, hi]
  refine ⟨by rw [hb, hc]; exact h.bucketCount, by rw [hb, hc]; exact h.capacity, by rw [hcur, hc]; exact h.cursorBelow,
    by rw [hi]; exact h.indexSorted, by rw [hi]; exact h.indexBelow, ?_, by rw [hb]; exact h.onePending⟩
  intro a j
  rw [hsl, hbk]
  exact h.indexExact a j

/-! ## A push (R131, R132) -/

theorem targetBucket_lt {s : State} (h : QueueOk s) (d : BitVec 8) : s.targetBucket d < s.cfg.horizon :=
  Nat.mod_lt _ (by have := h.cursorBelow; omega)

/-- After the older entry is taken out, every bucket is without the address. -/
theorem unschedule_bucket {s : State} (h : QueueOk s) (a : BitVec 8) (k : Nat) :
    (s.unschedule a).bucket k = dropAddr a (s.bucket k) := by
  unfold State.unschedule
  cases hs : s.slot a with
  | none =>
    refine (dropAddr_of_absent fun hex => ?_).symm
    rw [(h.indexExact a k).mpr hex] at hs
    cases hs
  | some old =>
    show bucketOf (changeBucket old (dropAddr a) s.buckets) k = _
    rw [bucketOf_changeBucket]
    by_cases hk : k = old ∧ k < s.buckets.length
    · rw [if_pos hk]
      rfl
    · rw [if_neg hk]
      refine (dropAddr_of_absent fun hex => hk ⟨?_, ?_⟩).symm
      · have := (h.indexExact a k).mpr hex
        rw [hs] at this
        exact (Option.some.inj this).symm
      · obtain ⟨e, he, -⟩ := hex
        exact lt_of_mem_bucketOf he

@[simp] theorem unschedule_buckets_length (s : State) (a : BitVec 8) : (s.unschedule a).buckets.length = s.buckets.length := by
  unfold State.unschedule
  split <;> simp

/-- The state after an accepted push. -/
abbrev pushed (a : BitVec 8) (v : Byte) (j : Nat) (s : State) : State := (s.unschedule a).schedule a v j

/-- Everything a push does to the buckets: the address leaves every bucket, and the new entry stands at the tail of `j`. -/
theorem pushed_bucket {s : State} (h : QueueOk s) (a : BitVec 8) (v : Byte) {j : Nat} (hj : j < s.cfg.horizon) (k : Nat) :
    (pushed a v j s).bucket k = if k = j then dropAddr a (s.bucket k) ++ [⟨a, v⟩] else dropAddr a (s.bucket k) := by
  show bucketOf (changeBucket j (fun b => b ++ [⟨a, v⟩]) (s.unschedule a).buckets) k = _
  rw [bucketOf_changeBucket, ← bucket_eq, unschedule_bucket h, unschedule_buckets_length, h.bucketCount]
  by_cases hk : k = j
  · subst hk
    simp [hj]
  · simp [hk]

/-- After a push the address points to its bucket, every other address as before. -/
theorem pushed_slot (s : State) (a : BitVec 8) (v : Byte) (j : Nat) (a' : BitVec 8) :
    (pushed a v j s).slot a' = if a' = a then some j else s.slot a' := by
  unfold State.slot
  rw [schedule_index, unschedule_index, Sparse.lookup_insert]
  simp only [BitVec.toNat_inj]

/-- A bucket without the address is no longer than the count the push checks (R131). -/
theorem dropAddr_length_le_countBeside {s : State} (h : QueueOk s) (a : BitVec 8) (j : Nat) :
    (dropAddr a (s.bucket j)).length ≤ s.countBeside a j := by
  unfold State.countBeside
  by_cases hs : s.slot a = some j
  · rw [if_pos hs]
    have := dropAddr_length_lt ((h.indexExact a j).mp hs)
    omega
  · rw [if_neg hs]
    exact dropAddr_length_le _ _

/-- An accepted push keeps the queue invariants. -/
theorem queueOk_pushed {s : State} (h : QueueOk s) (a : BitVec 8) (v : Byte) {j : Nat} (hj : j < s.cfg.horizon)
    (hroom : s.countBeside a j + 1 ≤ s.cfg.capacity) : QueueOk (pushed a v j s) := by
  have hlen : (pushed a v j s).buckets.length = s.buckets.length := by simp
  have hbk := pushed_bucket h a v hj
  have hcap : ∀ k, k < s.buckets.length → (s.bucket k).length ≤ s.cfg.capacity :=
    fun k hk => h.capacity _ (bucketOf_mem_of_lt hk)
  have hexact : ∀ a' k, (pushed a v j s).slot a' = some k ↔ ∃ e ∈ (pushed a v j s).bucket k, e.addr = a' := by
    intro a' k
    rw [pushed_slot, hbk]
    by_cases ha : a' = a
    · subst ha
      rw [if_pos rfl]
      by_cases hk : k = j
      · subst hk
        simp
      · simp only [Option.some.injEq, if_neg hk, mem_dropAddr]
        constructor
        · exact fun hc => absurd hc.symm hk
        · rintro ⟨e, ⟨-, h1⟩, h2⟩
          exact absurd h2 h1
    · rw [if_neg ha, h.indexExact]
      by_cases hk : k = j
      · simp only [if_pos hk, List.mem_append, mem_dropAddr, List.mem_singleton]
        constructor
        · rintro ⟨e, he, rfl⟩
          exact ⟨e, .inl ⟨he, ha⟩, rfl⟩
        · rintro ⟨e, he | rfl, h2⟩
          · exact ⟨e, he.1, h2⟩
          · exact absurd h2.symm ha
      · simp only [if_neg hk, mem_dropAddr]
        constructor
        · rintro ⟨e, he, rfl⟩
          exact ⟨e, ⟨he, ha⟩, rfl⟩
        · rintro ⟨e, he, h2⟩
          exact ⟨e, he.1, h2⟩
  refine ⟨by rw [hlen]; simpa using h.bucketCount, ?_, by simpa using h.cursorBelow, ?_, ?_, hexact, ?_⟩
  · intro b hb
    obtain ⟨k, hk, rfl⟩ := bucketOf_mem hb
    rw [← bucket_eq, hbk]
    have h1 := dropAddr_length_le_countBeside h a k
    have h2 := dropAddr_length_le a (s.bucket k)
    have h3 := hcap k (by omega)
    simp only [schedule_cfg, unschedule_cfg]
    split
    · rename_i hkj
      subst hkj
      simp only [List.length_append, List.length_singleton]
      omega
    · omega
  · rw [schedule_index, unschedule_index]
    exact Sparse.sorted_insert _ _ h.indexSorted
  · rw [schedule_index, unschedule_index]
    exact Sparse.below_insert _ a.isLt h.indexBelow
  · intro a'
    refine onePending_of ?_ ?_
    · intro b hb
      obtain ⟨k, hk, rfl⟩ := bucketOf_mem hb
      rw [← bucket_eq, hbk]
      have h1 := countAddr_dropAddr_le a a' (s.bucket k)
      have h2 := countAddr_le_one h a' (bucketOf_mem_of_lt (bs := s.buckets) (k := k) (by omega))
      have h3 : countAddr a' (s.bucket k) ≤ 1 := h2
      split
      · rw [countAddr_append]
        by_cases ha : a' = a
        · subst ha
          rw [countAddr_dropAddr_self]
          simp [countAddr]
        · have : countAddr a' [⟨a, v⟩] = 0 := by simp [countAddr, Ne.symm ha]
          omega
      · omega
    · intro k k' hk hk'
      have e1 := (hexact a' k).mpr hk
      have e2 := (hexact a' k').mpr hk'
      rw [e1] at e2
      exact Option.some.inj e2

/-! ## A delivery (R133) -/

/-- Clearing the slots of a bucket's addresses leaves every other slot as it was. -/
theorem lookup_clearSlots (es : List Entry) (idx : Sparse Nat) (a : BitVec 8) :
    Sparse.lookup a.toNat (clearSlots es idx) = if ∃ e ∈ es, e.addr = a then none else Sparse.lookup a.toNat idx := by
  induction es generalizing idx with
  | nil => simp [clearSlots]
  | cons e es ih =>
    rw [clearSlots, ih, Sparse.lookup_erase]
    simp only [BitVec.toNat_inj]
    by_cases h1 : ∃ e ∈ es, e.addr = a
    · rw [if_pos h1, if_pos (by obtain ⟨x, hx, hxa⟩ := h1; exact ⟨x, List.mem_cons_of_mem _ hx, hxa⟩)]
    · rw [if_neg h1]
      by_cases h2 : a = e.addr
      · rw [if_pos h2, if_pos ⟨e, by simp, h2.symm⟩]
      · rw [if_neg h2, if_neg]
        rintro ⟨x, hx, hxa⟩
        rcases List.mem_cons.mp hx with rfl | hx
        · exact h2 hxa.symm
        · exact h1 ⟨x, hx, hxa⟩

theorem sorted_clearSlots {es : List Entry} {idx : Sparse Nat} (h : Sparse.Sorted idx) : Sparse.Sorted (clearSlots es idx) := by
  induction es generalizing idx with
  | nil => exact h
  | cons e es ih => exact ih (Sparse.sorted_erase _ h)

theorem below_clearSlots {es : List Entry} {idx : Sparse Nat} {n : Nat} (h : Sparse.Below n idx) :
    Sparse.Below n (clearSlots es idx) := by
  induction es generalizing idx with
  | nil => exact h
  | cons e es ih => exact ih (Sparse.below_erase _ h)

/-- After a delivery the bucket the cursor stood at is empty, every other bucket as before (R135). -/
theorem drain_bucket (s : State) (k : Nat) : s.drain.bucket k = if k = s.cursor then [] else s.bucket k := by
  show bucketOf (changeBucket s.cursor (fun _ => []) s.buckets) k = _
  rw [bucketOf_changeBucket]
  by_cases hk : k = s.cursor
  · subst hk
    by_cases hl : s.cursor < s.buckets.length
    · simp [hl]
    · simp [hl, bucketOf]
  · simp [hk, bucket_eq]

/-- After a delivery no address that fired remains in INDEX (R135). -/
theorem drain_slot (s : State) (a : BitVec 8) :
    s.drain.slot a = if ∃ e ∈ s.bucket s.cursor, e.addr = a then none else s.slot a := by
  unfold State.slot
  rw [drain_index, lookup_clearSlots]

/-- A delivery keeps the queue invariants. -/
theorem queueOk_drain {s : State} (h : QueueOk s) : QueueOk s.drain := by
  have hexact : ∀ a k, s.drain.slot a = some k ↔ ∃ e ∈ s.drain.bucket k, e.addr = a := by
    intro a k
    rw [drain_slot, drain_bucket]
    by_cases hfire : ∃ e ∈ s.bucket s.cursor, e.addr = a
    · rw [if_pos hfire]
      constructor
      · exact fun hc => by cases hc
      · split
        · rintro ⟨e, he, -⟩
          cases he
        · rename_i hk
          exact fun hex => absurd (bucket_unique h hex hfire) hk
    · rw [if_neg hfire, h.indexExact]
      by_cases hk : k = s.cursor
      · subst hk
        simp only [↓reduceIte, List.not_mem_nil, false_and, exists_false, iff_false]
        exact hfire
      · rw [if_neg hk]
  refine ⟨by simpa using h.bucketCount, ?_, ?_, ?_, ?_, hexact, ?_⟩
  · intro b hb
    obtain ⟨k, hk, rfl⟩ := bucketOf_mem hb
    rw [← bucket_eq, drain_bucket]
    split
    · simp
    · exact h.capacity _ (bucketOf_mem_of_lt (by simpa using hk))
  · rw [drain_cursor, drain_cfg]
    exact Nat.mod_lt _ (by have := h.cursorBelow; omega)
  · rw [drain_index]
    exact sorted_clearSlots h.indexSorted
  · rw [drain_index]
    exact below_clearSlots h.indexBelow
  · intro a
    refine onePending_of ?_ ?_
    · intro b hb
      obtain ⟨k, hk, rfl⟩ := bucketOf_mem hb
      rw [← bucket_eq, drain_bucket]
      split
      · exact Nat.zero_le 1
      · exact countAddr_le_one h a (bucketOf_mem_of_lt (by simpa using hk))
    · intro k k' hk hk'
      have e1 := (hexact a k).mpr hk
      have e2 := (hexact a k').mpr hk'
      rw [e1] at e2
      exact Option.some.inj e2

/-! ## A clear (R136) -/

/-- Empty buckets and no slot meet the queue invariants. -/
theorem queueOk_empty {s : State} (hb : s.buckets.length = s.cfg.horizon) (he : ∀ b ∈ s.buckets, b = [])
    (hc : s.cursor < s.cfg.horizon) (hi : s.index = []) : QueueOk s := by
  have hbk : ∀ k, s.bucket k = [] := by
    intro k
    rw [bucket_eq]
    by_cases hk : k < s.buckets.length
    · exact he _ (bucketOf_mem_of_lt hk)
    · simp [bucketOf, List.getElem?_eq_none (Nat.le_of_not_lt hk)]
  refine ⟨hb, fun b hb' => by simp [he b hb'], hc, by simp [hi, Sparse.Sorted], by simp [hi, Sparse.Below], ?_, ?_⟩
  · intro a k
    simp [State.slot, hi, hbk]
  · intro a
    rw [List.flatten_eq_nil_iff.mpr he]
    simp

end Sys2Proof.Machine
end

