-- ==== Sys2Proof/Laws/Serializer.lean ====
section
/-! SUPPORT. Reading typed items off a stream (R77), and what a saved state is as a list. -/

namespace Sys2Proof.Machine

@[simp] theorem itemByte_byte (b : Byte) : itemByte (.field (.byte b)) = some b := rfl

/-- A list of byte fields gives its bytes. -/
theorem filterMap_itemByte_map (bytes : List Byte) :
    (bytes.map (fun b => SerItem.field (.byte b))).filterMap itemByte = bytes := by
  induction bytes with
  | nil => rfl
  | cons b bs ih => rw [List.map_cons, List.filterMap_cons_some (itemByte_byte b), ih]

/-- A list of items that are all bytes is the list of those byte fields. -/
theorem eq_map_of_filterMap_length {items : List SerItem} (h : (items.filterMap itemByte).length = items.length) :
    items = (items.filterMap itemByte).map (fun b => SerItem.field (.byte b)) := by
  induction items with
  | nil => rfl
  | cons x xs ih =>
    have hle := List.length_filterMap_le itemByte xs
    cases hx : itemByte x with
    | none =>
      rw [List.filterMap_cons_none hx, List.length_cons] at h
      omega
    | some b =>
      rw [List.filterMap_cons_some hx, List.length_cons, List.length_cons] at h
      rw [List.filterMap_cons_some hx, List.map_cons, ← ih (by omega)]
      unfold itemByte at hx
      split at hx
      · rw [Option.some.inj hx]
      · cases hx

/-- `get n bytes` reads exactly `n` byte fields off the front of the stream. -/
theorem getBytes_eq_some_iff {n : Nat} {items : List SerItem} {bytes : List Byte} :
    getBytes n items = some bytes ↔
      bytes.length = n ∧ ∃ rest, items = bytes.map (fun b => SerItem.field (.byte b)) ++ rest := by
  constructor
  · intro h
    simp only [getBytes] at h
    split at h
    · rename_i hl
      obtain rfl := Option.some.inj h
      refine ⟨hl, items.drop n, ?_⟩
      rw [← eq_map_of_filterMap_length, List.take_append_drop]
      have := List.length_filterMap_le itemByte (items.take n)
      have := List.length_take_le n items
      omega
    · cases h
  · rintro ⟨rfl, rest, rfl⟩
    have htake : (bytes.map (fun b => SerItem.field (.byte b)) ++ rest).take bytes.length =
        bytes.map (fun b => SerItem.field (.byte b)) := by
      rw [List.take_append_of_le_length (by simp), List.take_of_length_le (by simp)]
    simp only [getBytes, htake, filterMap_itemByte_map, ↓reduceIte]

/-- `get integer` reads an integer field off the front of the stream. -/
theorem getInt_eq_some_iff {items rest : List SerItem} {n : Nat} :
    getInt items = some (n, rest) ↔ items = .field (.int n) :: rest := by
  constructor
  · intro h
    unfold getInt at h
    split at h
    · cases h
      rfl
    · cases h
  · rintro rfl
    rfl

/-- `get string` reads a string field off the front of the stream. -/
theorem getStr_eq_some_iff {items rest : List SerItem} {s : String} :
    getStr items = some (s, rest) ↔ items = .field (.str s) :: rest := by
  constructor
  · intro h
    unfold getStr at h
    split at h
    · cases h
      rfl
    · cases h
  · rintro rfl
    rfl

theorem ramBytes_length (s : State) : s.ramBytes.length = ramSize := by
  rw [State.ramBytes, List.length_map, List.length_range]

/-- The saved bytes stand in index order (R86). -/
theorem ramBytes_getElem (s : State) {i : Nat} (hi : i < ramSize) : s.ramBytes[i]? = some (s.bufByte .ram i) := by
  rw [State.ramBytes, List.getElem?_map, List.getElem?_range hi]
  rfl

end Sys2Proof.Machine
end

