-- ==== Sys2Proof/Laws/Exec.lean ====
section
/-! SUPPORT. Everything `exec` can do when it answers a next state, said once: the states it can lead to, and the responses
it can give. -/

namespace Sys2Proof.Machine

/-! ## Draws take a value and change nothing else -/

theorem drawFloatingBus_state (s : State) : (drawFloatingBus s).2 = { s with draws := (drawFloatingBus s).2.draws } := by
  unfold drawFloatingBus
  split <;> rfl

theorem drawExtVal_state (k : Nat) (a : Addr) (s : State) :
    (drawExtVal k a s).2 = { s with draws := (drawExtVal k a s).2.draws } := by
  unfold drawExtVal
  split <;> rfl

theorem drawExtHandled_state (k : Nat) (a : Addr) (v : Byte) (s : State) :
    (drawExtHandled k a v s).2 = { s with draws := (drawExtHandled k a v s).2.draws } := by
  unfold drawExtHandled
  split <;> rfl

theorem drawSerFault_state (s : State) : (drawSerFault s).2 = { s with draws := (drawSerFault s).2.draws } := by
  unfold drawSerFault
  split <;> rfl

/-! ## Teardown -/

/-- The destruction of the block keeps the invariant (R159). -/
theorem tearDown_inv {s : State} (h : s.Inv) : (tearDown s).Inv :=
  ⟨h.params, ⟨List.Pairwise.nil, nofun⟩, h.ram, h.sel, pageTableOk_dropRefs h.pages, queueOk_of_same h.queue rfl rfl rfl rfl⟩

/-! ## The states a command can lead to -/

/-- Only the response, the recorded faults and the draws differ. -/
def Quiet (s t : State) : Prop := ∃ r f d, t = { s with response := some r, faults := f, draws := d }

theorem quiet_respond (s : State) (data : BitVec 16) (events : List Event) : Quiet s (s.respond data events) :=
  ⟨_, s.faults, s.draws, rfl⟩

theorem quiet_reject (s : State) (st : Status) : Quiet s (s.reject st) := ⟨_, _, s.draws, rfl⟩

/-- The address has the local offset of a hot spot (R110). -/
def AtHotSpot (c : Config) (a : Addr) : Prop := localOffset a = c.hsRom ∨ localOffset a = c.hsRam

/-- The command runs the write handler on these operands (R97, R110). -/
def RunsWriteHandler (s : State) (i : Instr) (a : Addr) (v : Byte) : Prop :=
  i = .cwr a v ∨ (i = .bwr a v ∧ (s.page (pageOf s.cfg a)).wr = none ∧ (s.page (pageOf s.cfg a)).dev = .cart)

/-- Whether the command can leave all but the response, the recorded faults and the draws alone. -/
def MayBeQuiet (s : State) (i : Instr) : Prop :=
  (∀ a v, RunsWriteHandler s i a v → ¬ AtHotSpot s.cfg a) ∧
  match i with
  | .cinst | .crst | .csel _ | .cpat _ _ | .clock _ | .cclr | .qexec | .qrst => False
  | .brd _ | .bwr _ _ | .crd _ | .cwr _ _ | .ptset _ _ | .csave | .cload _ | .cstat | .qpush _ _ _ => True

/-- The forms of a next state, with what is known of the command in each. -/
inductive ExecForm (s : State) : Instr → State → Prop
  | quiet {i : Instr} {t : State} (h : Quiet s t) (hi : MayBeQuiet s i) : ExecForm s i t
  | latch {i : Instr} {a : Addr} {j : Nat} {v : Byte} {d : Draws} (hi : i = .brd a ∨ i = .crd a)
      (hat : shownAt s.cfg s.sel.toNat (localOffset a) = .writePort j) (hl : s.locked = false) (hj : j < ramSize) :
      ExecForm s i (({ s with draws := d }.setBufByte .ram j v).respond (v.setWidth 16) [])
  | direct {a : Addr} {v : Byte} {ref : DirectRef} (hw : (s.page (pageOf s.cfg a)).wr = some ref)
      (hj : ref.base + inPage s.cfg a < bufSize s.cfg ref.buf) :
      ExecForm s (.bwr a v) ((s.setBufByte ref.buf (ref.base + inPage s.cfg a) v).respond 1#16 [])
  | hotSpot {i : Instr} {a : Addr} {v : Byte} (n : Nat) (hi : RunsWriteHandler s i a v) (ha : AtHotSpot s.cfg a) :
      ExecForm s i ((select n s).respond 0#16 [.chipPoke a v])
  | ptset {p : BitVec 16} {d : Descriptor} (hd : descriptorIllFormed s.cfg d = false) :
      ExecForm s (.ptset p d) ({ s with pt := setPage p.toNat d s.pt }.respond 0#16 [])
  | cinst : ExecForm s .cinst
      ((select s.startBank
        { s with pt := setPages (upperMap s.cfg) (upperPages s.cfg) (setPages hsMap (hotSpotPages s.cfg) s.pt) }).respond
          0#16 [])
  | crst : ExecForm s .crst ((select s.startBank (drawRamFill s)).respond 0#16 [])
  | csel {sel : BitVec 9} : ExecForm s (.csel sel) ((select sel.toNat s).respond 0#16 [])
  | cpat {a : Addr} {v : Byte} {b : Buf} {j : Nat} (ht : patchTarget s.cfg s.sel.toNat (localOffset a) = (b, j))
      (hj : j < bufSize s.cfg b) : ExecForm s (.cpat a v) ((s.setBufByte b j v).markChanged.respond 0#16 [])
  | loaded {stream : List SerItem} {n : Nat} {bytes : List Byte} (hlen : bytes.length = ramSize) :
      ExecForm s (.cload stream) (loadComplete n bytes s)
  | loadedPartly {stream : List SerItem} : ExecForm s (.cload stream) (loadFailPartial s)
  | clock {lk : Bool} : ExecForm s (.clock lk) ((s.setLocked lk).respond 0#16 [])
  | cclr : ExecForm s .cclr (s.clearChanged.respond 0#16 [])
  | pushed {a : BitVec 8} {v : Byte} {d : BitVec 8} (h1 : 1 ≤ d.toNat) (h2 : d.toNat ≤ s.cfg.horizon)
      (hroom : s.countBeside a (s.targetBucket d) + 1 ≤ s.cfg.capacity) :
      ExecForm s (.qpush a v d) ((Machine.pushed a v (s.targetBucket d) s).respond 0#16 [])
  | qexec : ExecForm s .qexec (s.drain.respond 0#16 (fireEvents (s.bucket s.cursor)))
  | qrst : ExecForm s .qrst ({ s with buckets := s.buckets.map (fun _ => []), index := [] }.respond 0#16 [])

/-- A read that ran the read handler is quiet or a latch. -/
theorem cartRead_form {i : Instr} {a : Addr} {s t : State} (hi : i = .brd a ∨ i = .crd a)
    (h : settle (cartReadResponse a s) = .next t) : ExecForm s i t := by
  have hquiet : ∀ {u : State}, Quiet s u → ExecForm s i u := by
    intro u hu
    rcases hi with rfl | rfl <;> exact .quiet hu ⟨by simp [RunsWriteHandler], trivial⟩
  unfold cartReadResponse at h
  cases hc : cartRead a s with
  | error e => simp [hc, settle] at h
  | ok p =>
    obtain ⟨v, u⟩ := p
    simp only [hc, settle, Host.Outcome.next.injEq] at h
    subst h
    rcases cartRead_cases hc with ⟨b, j, -, -, -, rfl⟩ | ⟨j, -, -, hd⟩ | ⟨j, hat, hl, hj, -, hd⟩
    · exact hquiet (quiet_respond _ _ _)
    · have hu : u = { s with draws := u.draws } := by
        have := drawFloatingBus_state s
        rwa [← hd] at this
      rw [hu]
      exact hquiet ⟨_, s.faults, _, rfl⟩
    · rw [drawFloatingBus_state] at hd
      subst hd
      exact .latch hi hat hl hj

/-- A write that ran the write handler is quiet or a selection. -/
theorem cartWrite_form {i : Instr} {a : Addr} {v : Byte} {s : State} (hi : RunsWriteHandler s i a v) :
    ExecForm s i (cartWrite a v s) := by
  by_cases ha : AtHotSpot s.cfg a
  · obtain ⟨n, hn⟩ : ∃ n, hotSpotSelect a v s = select n s := by
      unfold hotSpotSelect
      split
      · exact ⟨_, rfl⟩
      · rw [if_pos (ha.resolve_left ‹_›)]
        exact ⟨_, rfl⟩
    rw [cartWrite, hn]
    exact .hotSpot n hi ha
  · have hn : hotSpotSelect a v s = s := by
      unfold hotSpotSelect
      rw [if_neg (fun h => ha (.inl h)), if_neg (fun h => ha (.inr h))]
    rw [cartWrite, hn]
    refine .quiet (quiet_respond _ _ _) ⟨fun a' v' h => ?_, ?_⟩
    · rcases hi with rfl | ⟨rfl, -⟩ <;> rcases h with h | ⟨h, -⟩ <;> cases h <;> exact ha
    · rcases hi with rfl | ⟨rfl, -⟩ <;> trivial

/-- Everything `exec` can do when it answers a next state. -/
theorem exec_form {i : Instr} {s t : State} (h : exec i s = .next t) : ExecForm s i t := by
  cases i with
  | brd a =>
    have hq : MayBeQuiet s (.brd a) := ⟨by simp [RunsWriteHandler], trivial⟩
    simp only [exec, execBrd] at h
    split at h
    · split at h
      · obtain rfl := Host.Outcome.next.inj h
        exact .quiet (quiet_respond _ _ _) hq
      · cases h
    · split at h
      · exact cartRead_form (.inl rfl) h
      · obtain rfl := Host.Outcome.next.inj h
        rw [drawExtVal_state]
        exact .quiet ⟨_, s.faults, _, rfl⟩ hq
      · obtain rfl := Host.Outcome.next.inj h
        exact .quiet (quiet_reject _ _) hq
  | bwr a v =>
    simp only [exec, execBwr] at h
    split at h
    · rename_i ref hw
      split at h
      · rename_i u hu
        obtain rfl := Host.Outcome.next.inj h
        obtain ⟨h1, rfl⟩ := bufWrite_cases _ hu
        exact .direct hw h1
      · cases h
    · rename_i hw
      split at h
      · rename_i hdev
        obtain rfl := Host.Outcome.next.inj h
        exact cartWrite_form (.inr ⟨rfl, hw, hdev⟩)
      · rename_i k hdev
        obtain rfl := Host.Outcome.next.inj h
        rw [drawExtHandled_state]
        refine .quiet ⟨_, s.faults, _, rfl⟩ ⟨fun a' v' h => ?_, trivial⟩
        rcases h with h | ⟨h, -, h'⟩ <;> cases h
        simp [hdev] at h'
      · rename_i hdev
        obtain rfl := Host.Outcome.next.inj h
        refine .quiet (quiet_reject _ _) ⟨fun a' v' h => ?_, trivial⟩
        rcases h with h | ⟨h, -, h'⟩ <;> cases h
        simp [hdev] at h'
  | crd a => exact cartRead_form (.inr rfl) h
  | cwr a v =>
    obtain rfl := Host.Outcome.next.inj h
    exact cartWrite_form (.inl rfl)
  | ptset p d =>
    simp only [exec, execPtset] at h
    split at h
    · obtain rfl := Host.Outcome.next.inj h
      exact .quiet (quiet_reject _ _) ⟨by simp [RunsWriteHandler], trivial⟩
    · rename_i hd
      obtain rfl := Host.Outcome.next.inj h
      exact .ptset (by simpa using hd)
  | cinst => obtain rfl := Host.Outcome.next.inj h; exact .cinst
  | crst => obtain rfl := Host.Outcome.next.inj h; exact .crst
  | csel sel => obtain rfl := Host.Outcome.next.inj h; exact .csel
  | cpat a v =>
    simp only [exec, execCpat] at h
    split at h
    · rename_i u hu
      obtain rfl := Host.Outcome.next.inj h
      obtain ⟨h1, rfl⟩ := bufWrite_cases _ hu
      exact .cpat rfl h1
    · cases h
  | csave =>
    obtain rfl := Host.Outcome.next.inj h
    refine .quiet ?_ ⟨by simp [RunsWriteHandler], trivial⟩
    rw [drawSerFault_state]
    cases (drawSerFault s).1 <;> exact ⟨_, s.faults, _, rfl⟩
  | cload stream =>
    simp only [exec, execCload] at h
    repeat' split at h
    all_goals obtain rfl := Host.Outcome.next.inj h
    all_goals first
      | exact .quiet (quiet_reject _ _) ⟨by simp [RunsWriteHandler], trivial⟩
      | exact .loadedPartly
      | skip
    rename_i hlen _ bytes hb
    exact .loaded ((getBytes_eq_some_iff.mp hb).1.trans (Decidable.not_not.mp hlen))
  | clock lk => obtain rfl := Host.Outcome.next.inj h; exact .clock
  | cclr => obtain rfl := Host.Outcome.next.inj h; exact .cclr
  | cstat =>
    obtain rfl := Host.Outcome.next.inj h
    exact .quiet (quiet_respond _ _ _) ⟨by simp [RunsWriteHandler], trivial⟩
  | qpush a v d =>
    have hq : MayBeQuiet s (.qpush a v d) := ⟨by simp [RunsWriteHandler], trivial⟩
    simp only [exec, execQpush] at h
    repeat' split at h
    all_goals obtain rfl := Host.Outcome.next.inj h
    · exact .quiet (quiet_reject _ _) hq
    · exact .quiet (quiet_reject _ _) hq
    · exact .pushed (by omega) (by omega) (by omega)
  | qexec => obtain rfl := Host.Outcome.next.inj h; exact .qexec
  | qrst => obtain rfl := Host.Outcome.next.inj h; exact .qrst

/-! ## The responses a command can give -/

/-- The ways a command ends: with OK, with a rejection, and the two ways of FAIL that change more than the response. -/
inductive Ending (s : State) : Instr → State → Prop
  | ok {i : Instr} {t : State} {data : BitVec 16} {events : List Event}
      (hr : t.response = some { status := .ok, data := data, events := events }) (hf : t.faults = s.faults) : Ending s i t
  | rejected {i : Instr} {st : Status} (hst : st ≠ .ok) : Ending s i (s.reject st)
  | saveFailed {j : Nat} {d : Draws} : Ending s .csave
      { s with draws := d, response := some { status := .fail, data := 0#16, events := (s.saveFields.take j).map .serPut } }
  | loadedPartly {stream : List SerItem} : Ending s (.cload stream) (loadFailPartial s)

theorem cartRead_ending {i : Instr} {a : Addr} {s t : State} (h : settle (cartReadResponse a s) = .next t) : Ending s i t := by
  unfold cartReadResponse at h
  cases hc : cartRead a s with
  | error e => simp [hc, settle] at h
  | ok p =>
    obtain ⟨v, u⟩ := p
    simp only [hc, settle, Host.Outcome.next.injEq] at h
    subst h
    refine .ok rfl ?_
    rcases cartRead_cases hc with ⟨b, j, -, -, -, rfl⟩ | ⟨j, -, -, hd⟩ | ⟨j, -, -, -, -, hd⟩
    · rfl
    · have := drawFloatingBus_faults s
      rwa [← hd] at this
    · rw [hd]
      simp

theorem cartWrite_faults (a : Addr) (v : Byte) (s : State) : (cartWrite a v s).faults = s.faults := by
  rcases cartWrite_cases a v s with h | ⟨n, h⟩ <;> simp [h]

/-- Every way a command ends when it answers a next state. -/
theorem exec_ending {i : Instr} {s t : State} (h : exec i s = .next t) : Ending s i t := by
  cases i with
  | brd a =>
    simp only [exec, execBrd] at h
    split at h
    · split at h
      · obtain rfl := Host.Outcome.next.inj h
        exact .ok rfl rfl
      · cases h
    · split at h
      · exact cartRead_ending h
      · obtain rfl := Host.Outcome.next.inj h
        exact .ok rfl (by simp)
      · obtain rfl := Host.Outcome.next.inj h
        exact .rejected (by simp)
  | bwr a v =>
    simp only [exec, execBwr] at h
    split at h
    · split at h
      · rename_i u hu
        obtain rfl := Host.Outcome.next.inj h
        obtain ⟨-, rfl⟩ := bufWrite_cases _ hu
        exact .ok rfl (by simp)
      · cases h
    · split at h
      · obtain rfl := Host.Outcome.next.inj h
        exact .ok rfl (cartWrite_faults _ _ _)
      · obtain rfl := Host.Outcome.next.inj h
        exact .ok rfl (by simp)
      · obtain rfl := Host.Outcome.next.inj h
        exact .rejected (by simp)
  | crd a => exact cartRead_ending h
  | cwr a v =>
    obtain rfl := Host.Outcome.next.inj h
    exact .ok rfl (cartWrite_faults _ _ _)
  | ptset p d =>
    simp only [exec, execPtset] at h
    split at h <;> obtain rfl := Host.Outcome.next.inj h
    · exact .rejected (by simp)
    · exact .ok rfl rfl
  | cpat a v =>
    simp only [exec, execCpat] at h
    split at h
    · rename_i u hu
      obtain rfl := Host.Outcome.next.inj h
      obtain ⟨-, rfl⟩ := bufWrite_cases _ hu
      exact .ok rfl (by simp)
    · cases h
  | csave =>
    obtain rfl := Host.Outcome.next.inj h
    rw [drawSerFault_state]
    cases (drawSerFault s).1 with
    | none => exact .ok rfl rfl
    | some j => exact .saveFailed
  | cload stream =>
    simp only [exec, execCload] at h
    repeat' split at h
    all_goals obtain rfl := Host.Outcome.next.inj h
    all_goals first
      | exact .rejected (by simp)
      | exact .loadedPartly
      | exact .ok rfl rfl
  | qpush a v d =>
    simp only [exec, execQpush] at h
    repeat' split at h
    all_goals obtain rfl := Host.Outcome.next.inj h
    all_goals first
      | exact .rejected (by simp)
      | exact .ok rfl (by simp)
  | cinst => obtain rfl := Host.Outcome.next.inj h; exact .ok rfl (by simp)
  | crst => obtain rfl := Host.Outcome.next.inj h; exact .ok rfl (by simp)
  | csel sel => obtain rfl := Host.Outcome.next.inj h; exact .ok rfl (by simp)
  | clock lk => obtain rfl := Host.Outcome.next.inj h; exact .ok rfl rfl
  | cclr => obtain rfl := Host.Outcome.next.inj h; exact .ok rfl rfl
  | cstat => obtain rfl := Host.Outcome.next.inj h; exact .ok rfl rfl
  | qexec => obtain rfl := Host.Outcome.next.inj h; exact .ok rfl rfl
  | qrst => obtain rfl := Host.Outcome.next.inj h; exact .ok rfl rfl

end Sys2Proof.Machine
end

