-- ==== Sys2Proof/Laws/PerInstr.lean ====
section
/-! SUPPORT. What holds of every command as syntax, one lemma per constructor. -/

namespace Sys2Proof.Laws.EncodedWord

open Sys2Proof.Machine

/-- The word of the command is one a row of the opcode table matches: its opcode is assigned and its reserved bits are 0
(R72, R74). -/
def Statement (i : Instr) : Prop := MatchesRow (encode i).word

/-- A word that has, under the mask of a row, the row's opcode and nothing else. -/
theorem matchesRow_of {w : Word} (op : BitVec 8) (mask : Word) (h : w &&& mask = op ++ 0#24)
    (hrow : (op ++ 0#24, mask) ∈ tableRows) : MatchesRow w := ⟨_, hrow, h⟩

theorem brd (addr : Addr) : Statement (.brd addr) :=
  matchesRow_of 0x01#8 0xFF0000FF#32 (wordA_mask _ _) (by decide)

theorem bwr (addr : Addr) (data : Byte) : Statement (.bwr addr data) :=
  matchesRow_of 0x02#8 0xFF000000#32 (wordAD_mask _ _ _) (by decide)

theorem crd (addr : Addr) : Statement (.crd addr) :=
  matchesRow_of 0x03#8 0xFF0000FF#32 (wordA_mask _ _) (by decide)

theorem cwr (addr : Addr) (data : Byte) : Statement (.cwr addr data) :=
  matchesRow_of 0x04#8 0xFF000000#32 (wordAD_mask _ _ _) (by decide)

theorem ptset (page : BitVec 16) (desc : Descriptor) : Statement (.ptset page desc) :=
  matchesRow_of 0x05#8 0xFF0000FF#32 (wordA_mask _ _) (by decide)

theorem cinst : Statement .cinst :=
  matchesRow_of 0x06#8 0xFFFFFFFF#32 (wordN_mask _) (by decide)

theorem crst : Statement .crst :=
  matchesRow_of 0x07#8 0xFFFFFFFF#32 (wordN_mask _) (by decide)

theorem csel (sel : BitVec 9) : Statement (.csel sel) :=
  matchesRow_of 0x08#8 0xFFFFFE00#32 (wordS_mask _ _) (by decide)

theorem cpat (addr : Addr) (data : Byte) : Statement (.cpat addr data) :=
  matchesRow_of 0x09#8 0xFF000000#32 (wordAD_mask _ _ _) (by decide)

theorem csave : Statement .csave :=
  matchesRow_of 0x0A#8 0xFFFFFFFF#32 (wordN_mask _) (by decide)

theorem cload (stream : List SerItem) : Statement (.cload stream) :=
  matchesRow_of 0x0B#8 0xFFFFFFFF#32 (wordN_mask _) (by decide)

theorem clock (lk : Bool) : Statement (.clock lk) :=
  matchesRow_of 0x0C#8 0xFFFFFFFE#32 (wordK_mask _ _) (by decide)

theorem cclr : Statement .cclr :=
  matchesRow_of 0x0D#8 0xFFFFFFFF#32 (wordN_mask _) (by decide)

theorem cstat : Statement .cstat :=
  matchesRow_of 0x0E#8 0xFFFFFFFF#32 (wordN_mask _) (by decide)

theorem qpush (qaddr value : Byte) (delay : BitVec 8) : Statement (.qpush qaddr value delay) :=
  matchesRow_of 0x0F#8 0xFF000000#32 (wordQ_mask _ _ _ _) (by decide)

theorem qexec : Statement .qexec :=
  matchesRow_of 0x10#8 0xFFFFFFFF#32 (wordN_mask _) (by decide)

theorem qrst : Statement .qrst :=
  matchesRow_of 0x11#8 0xFFFFFFFF#32 (wordN_mask _) (by decide)

end Sys2Proof.Laws.EncodedWord
end

