-- ==== Sys2Proof/Tests/Slice0.lean ====
section
/-! SUPPORT. Tests of the decoder and of single commands against 95_test_vectors.md, and for every statement with hypotheses
a state and operands that meet them. -/

namespace Sys2Proof.Tests

open Sys2Proof.Machine

/-! ## WellFormed (R73): the one ill-formed command is a PTSET whose page is not below NPAGES -/

theorem test_ptset_page_at_npages_is_ill_formed :
    Instr.wellFormed Config.default (.ptset 0x400#16 Descriptor.unmapped) = false := by decide

theorem test_ptset_last_page_is_well_formed :
    Instr.wellFormed Config.default (.ptset 0x3FF#16 Descriptor.unmapped) = true := by decide

/-! ## Words written bit by bit from R72 and R74: opcode, then the fields of the format -/

/-- What the decoder reads from a word, under the default parameters. -/
def read (w : Word) : Except DecodeError Instr := decode Config.default { word := w }

theorem test_word_brd : read 0b00000001_00010000_00000101_00000000#32 = .ok (.brd 0x1005#16) := rfl
theorem test_word_bwr : read 0b00000010_00010100_00000000_10101011#32 = .ok (.bwr 0x1400#16 0xAB#8) := rfl
theorem test_word_crd : read 0b00000011_00011000_00000101_00000000#32 = .ok (.crd 0x1805#16) := rfl
theorem test_word_cwr : read 0b00000100_00000000_00111111_00000010#32 = .ok (.cwr 0x003F#16 0x02#8) := rfl
theorem test_word_ptset : read 0b00000101_00000011_11111111_00000000#32 = .ok (.ptset 0x3FF#16 Descriptor.unmapped) := rfl
theorem test_word_cinst : read 0b00000110_00000000_00000000_00000000#32 = .ok .cinst := rfl
theorem test_word_crst : read 0b00000111_00000000_00000000_00000000#32 = .ok .crst := rfl
theorem test_word_csel : read 0b00001000_00000000_00000001_00101100#32 = .ok (.csel 300#9) := rfl
theorem test_word_cpat : read 0b00001001_00011111_11111111_10011001#32 = .ok (.cpat 0x1FFF#16 0x99#8) := rfl
theorem test_word_csave : read 0b00001010_00000000_00000000_00000000#32 = .ok .csave := rfl
theorem test_word_cload : decode Config.default { word := 0b00001011_00000000_00000000_00000000#32, stream := [.fault] } =
    .ok (.cload [.fault]) := rfl
theorem test_word_clock : read 0b00001100_00000000_00000000_00000001#32 = .ok (.clock true) := rfl
theorem test_word_cclr : read 0b00001101_00000000_00000000_00000000#32 = .ok .cclr := rfl
theorem test_word_cstat : read 0b00001110_00000000_00000000_00000000#32 = .ok .cstat := rfl
theorem test_word_qpush : read 0b00001111_00101100_00000111_00000010#32 = .ok (.qpush 0x2C#8 0x07#8 2#8) := rfl
theorem test_word_qexec : read 0b00010000_00000000_00000000_00000000#32 = .ok .qexec := rfl
theorem test_word_qrst : read 0b00010001_00000000_00000000_00000000#32 = .ok .qrst := rfl

/-- Vectors EV1-EV5, EV7, EV8, EV10: words that are ILLEGAL. -/
theorem test_illegal_words :
    read 0x00000000#32 = .error .unassignedOpcode ∧ read 0x12000000#32 = .error .unassignedOpcode ∧
    read 0xFF000000#32 = .error .unassignedOpcode ∧ read 0x01100501#32 = .error .reservedBit ∧
    read 0x08000200#32 = .error .reservedBit ∧ read 0x0C000002#32 = .error .reservedBit ∧
    read 0x05040000#32 = .error .pageOutOfRange ∧ read 0x10000001#32 = .error .reservedBit :=
  ⟨rfl, rfl, rfl, rfl, rfl, rfl, rfl, rfl⟩

/-- The encoder writes the word of the example of R131. -/
theorem test_encode_qpush : (encode (.qpush 0x2C#8 0x07#8 2#8)).word = 0x0F2C0702#32 := rfl

/-- The opcode table's word of QPUSH, placed at the port of the block after reset, is what the next step runs. -/
theorem test_fetch_word_runs_next :
    decodeTableWord 32 0x0F2C0702 = some (.qpush 0x2C#8 0x07#8 2#8) ∧
    step (State.reset.withFetchWord 32 0x0F2C0702) = exec (.qpush 0x2C#8 0x07#8 2#8) State.reset := ⟨rfl, rfl⟩

/-- The assembly text of the example of R99. -/
theorem test_asm_ptset :
    asmText (.ptset 2#16 ⟨none, none, .ext 1⟩) =
      "PTSET 2, " ++ String.singleton (Char.ofNat 123) ++ "rd=NONE, wr=NONE, dev=EXT:1" ++ String.singleton (Char.ofNat 125) := by
  decide +kernel

/-! ## One command at a time, after 95_test_vectors.md -/

/-- The state a command leads to. -/
def after (s : State) (i : Instr) : State :=
  match exec i s with
  | .next t => t
  | .fault _ => s
  | .refused _ => s

/-- The response of a command: status, data as a number, events. -/
def said (s : State) (i : Instr) : Option (Status × Nat × List Event) :=
  (after s i).response.map (fun r => (r.status, r.data.toNat, r.events))

/-- Some bytes of the image pattern `((i >> 11) << 4) | (i & 0x0F)` of the vectors. -/
def image0 : Memory :=
  [(0x0005, 0x05#8), (0x0805, 0x15#8), (0x1005, 0x25#8), (0x103E, 0x2E#8), (0x1805, 0x35#8), (0x1FC0, 0x30#8)]

/-- Construction, and BOOT: construction, then CINST. -/
def built : State := State.construct Config.default image0 [] 0
def boot : State := after built .cinst

/-- BOOT, then `CSEL 2`; BOOT, then `SELRAM 3`. -/
def bank2 : State := after boot (.csel 2#9)
def pair3 : State := after boot (pseudoSelRam Config.default 3#8)

/-- Teardown (R159): the reference of page 0x40, there after an install, is gone, and a BRD is refused. -/
theorem test_teardown :
    (boot.page 0x40).rd ≠ none ∧ step { boot with inbox := [.teardown] } = .next (tearDown boot) ∧
    ((tearDown boot).page 0x40).rd = none ∧ ((tearDown boot).page 0x40).dev = .cart ∧
    step ((tearDown boot).withFetchWord 32 0x01100000) = .refused .afterTeardown := by
  refine ⟨by decide +kernel, rfl, ?_, by decide +kernel, rfl⟩
  rw [tearDown_page]
  rfl

/-- A state with the draws pinned. -/
def pinned (d : Draws) (s : State) : State := { s with draws := d }

/-- PV1. -/
theorem test_brd_direct : said bank2 (.brd 0x1005#16) = some (.ok, 0x25, []) := by decide +kernel

/-- PV9: the read through the write port stores the floating-bus value. -/
theorem test_brd_write_port :
    let s := pinned { fb := [0x5A#8] } pair3
    said s (.brd 0x1401#16) = some (.ok, 0x5A, []) ∧ (after s (.brd 0x1401#16)).bufByte .ram 0x0C01 = 0x5A#8 := by
  decide +kernel

/-- PV7: a direct write to the write port, handled, without a CHIP_POKE. -/
theorem test_bwr_direct :
    said pair3 (.bwr 0x1400#16 0xAB#8) = some (.ok, 1, []) ∧
    (after pair3 (.bwr 0x1400#16 0xAB#8)).bufByte .ram 0x0C00 = 0xAB#8 := by decide +kernel

/-- PV13: a write to the read port reaches the handler and hits HS_RAM by its local offset. -/
theorem test_bwr_hot_spot_in_window :
    said pair3 (.bwr 0x103E#16 0x01#8) = some (.ok, 0, [.chipPoke 0x103E#16 0x01#8]) ∧
    (after pair3 (.bwr 0x103E#16 0x01#8)).sel = 257#9 := by decide +kernel

/-- CV1c: an address outside the window folds onto the fixed slice. -/
theorem test_crd_folds : said boot (.crd 0x2805#16) = some (.ok, 0x35, []) := by decide +kernel

/-- CV16: under LOCKED the write-port read stores nothing. -/
theorem test_crd_write_port_locked :
    let s := pinned { fb := [0x77#8] } (after (after pair3 (.bwr 0x1400#16 0x11#8)) (.clock true))
    said s (.crd 0x1400#16) = some (.ok, 0x77, []) ∧ (after s (.crd 0x1400#16)).bufByte .ram 0x0C00 = 0x11#8 := by
  decide +kernel

/-- CV6: `norm(0x23 + 256) = 259`. -/
theorem test_cwr_selects_pair :
    said boot (.cwr 0x003E#16 0x23#8) = some (.ok, 0, [.chipPoke 0x003E#16 0x23#8]) ∧
    (after boot (.cwr 0x003E#16 0x23#8)).sel = 259#9 := by decide +kernel

/-- CV7: under LOCKED the write pokes and selects nothing. -/
theorem test_cwr_locked :
    said (after boot (.clock true)) (.cwr 0x003F#16 0x02#8) = some (.ok, 0, [.chipPoke 0x003F#16 0x02#8]) ∧
    (after (after boot (.clock true)) (.cwr 0x003F#16 0x02#8)).sel = 0#9 := by decide +kernel

/-- PV17: one byte too far. -/
theorem test_ptset_leaving_image :
    said boot (.ptset 2#16 ⟨some ⟨.image, 0x1FC1⟩, none, .cart⟩) = some (.illegal, 0, []) := by decide +kernel

/-- PV18: the last page that fits. -/
theorem test_ptset_last_slice :
    said (after boot (.ptset 2#16 ⟨some ⟨.image, 0x1FC0⟩, none, .cart⟩)) (.brd 0x0080#16) = some (.ok, 0x30, []) := by
  decide +kernel

/-- The example of R114. -/
theorem test_cinst_pages :
    boot.page 0 = ⟨none, none, .cart⟩ ∧ boot.page 0x41 = ⟨some ⟨.image, 0x0040⟩, none, .cart⟩ ∧
    boot.page 0x61 = ⟨some ⟨.image, 0x1840⟩, none, .cart⟩ ∧ boot.page 1 = Descriptor.unmapped ∧ boot.changed = true := by
  decide +kernel

/-- CV17: CINST under LOCKED leaves the lower window UNMAPPED. -/
theorem test_cinst_locked :
    said (after (after built (.clock true)) .cinst) (.brd 0x1000#16) = some (.unmapped, 0, []) := by decide +kernel

/-- CV15b: the fill, then the start bank. -/
theorem test_crst_fills :
    let t := after (pinned { rng := [0xEE#8, 0xEF#8] } pair3) .crst
    t.bufByte .ram 0 = 0xEE#8 ∧ t.bufByte .ram 1 = 0xEF#8 ∧ t.sel = 0#9 ∧ t.changed = true := by decide +kernel

/-- CV15: under LOCKED the fill happens, the selection does not. -/
theorem test_crst_locked :
    let t := after (pinned { rng := [0xEE#8] } (after pair3 (.clock true))) .crst
    t.bufByte .ram 0 = 0xEE#8 ∧ t.sel = 259#9 := by decide +kernel

/-- CV3b: `CSEL 300` leaves `256 + (44 mod 32)`. -/
theorem test_csel_reduces : (after boot (.csel 300#9)).sel = 268#9 := by decide +kernel

/-- CV5: a locked CSEL is OK and does nothing. -/
theorem test_csel_locked :
    let s := after (after boot (.clock true)) .cclr
    said s (.csel 1#9) = some (.ok, 0, []) ∧ (after s (.csel 1#9)).sel = 0#9 ∧ (after s (.csel 1#9)).changed = false := by
  decide +kernel

/-- CV10: a patch of the write port changes the cell the read port shows. -/
theorem test_cpat_write_port :
    said (after pair3 (.cpat 0x1400#16 0x42#8)) (.brd 0x1000#16) = some (.ok, 0x42, []) := by decide +kernel

/-- CV11: with SEL = R - 1 a patch of the lower window shows in the fixed slice. -/
theorem test_cpat_fixed_alias :
    said (after (after boot (.csel 3#9)) (.cpat 0x1005#16 0x99#8)) (.brd 0x1805#16) = some (.ok, 0x99, []) := by decide +kernel

/-- CV14: the first four fields. -/
theorem test_csave_fields :
    let t := after (pinned { serFault := [none] } (after pair3 (.bwr 0x1400#16 0xAB#8))) .csave
    t.status = some .ok ∧
    t.events.take 3 = [.serPut (.str "Cartridge3E"), .serPut (.int 259), .serPut (.int 32768)] ∧
    t.events[3 + 0x0C00]? = some (.serPut (.byte 0xAB#8)) := by decide +kernel

/-- R120: a fault at field 1 ends with FAIL after field 0. -/
theorem test_csave_fault :
    said (pinned { serFault := [some 1] } pair3) .csave = some (.fail, 0, [.serPut (.str "Cartridge3E")]) := by decide +kernel

/-- CV12: a tag that does not match changes nothing, and is no command fault. -/
theorem test_cload_tag_mismatch :
    said pair3 (.cload [.field (.str "Cartridge4K"), .field (.int 0)]) = some (.fail, 0, []) ∧
    (after pair3 (.cload [.field (.str "Cartridge4K"), .field (.int 0)])).sel = 259#9 ∧
    (after pair3 (.cload [.field (.str "Cartridge4K"), .field (.int 0)])).faults = [] := by decide +kernel

/-- CV13: SEL from the stream normalised, RAM as given, also under LOCKED; LOCKED and CHANGED untouched. -/
theorem test_cload_restores :
    let s := after (after boot .cclr) (.clock true)
    let t := after s (.cload (.field (.str "Cartridge3E") :: .field (.int 300) :: .field (.int 32768) ::
      List.replicate 32768 (.field (.byte 0x11#8))))
    t.status = some .ok ∧ t.sel = 268#9 ∧ t.page 0x41 = ⟨some ⟨.ram, 0x3040⟩, none, .cart⟩ ∧
    t.page 0x51 = ⟨none, some ⟨.ram, 0x3040⟩, .cart⟩ ∧ t.changed = false ∧ t.locked = true := by decide +kernel

/-- CV19. -/
theorem test_clock_both_ways :
    (after boot (.clock true)).locked = true ∧ (after (after boot (.clock true)) (.clock false)).locked = false := by
  decide +kernel

/-- CV18b. -/
theorem test_cclr_then_cstat : said (after boot .cclr) .cstat = some (.ok, 0x0000, []) := by decide +kernel

/-- CV18. -/
theorem test_cstat_packs : said (after pair3 (.clock true)) .cstat = some (.ok, 0x0703, []) := by decide +kernel

/-- QV7: a replaced entry moves to the tail of its bucket. -/
theorem test_qpush_replaces :
    said (after (after (after built (.qpush 1#8 0x0A#8 1#8)) (.qpush 2#8 0x0B#8 1#8)) (.qpush 1#8 0x0C#8 1#8)) .qexec =
      some (.ok, 0, [.fire 2#8 0x0B#8, .fire 1#8 0x0C#8]) := by decide +kernel

/-- QV2 and QV2b: delays 0 and L + 1; QV2c: delay L. -/
theorem test_qpush_range :
    said built (.qpush 1#8 1#8 0#8) = some (.qRange, 0, []) ∧ said built (.qpush 1#8 1#8 17#8) = some (.qRange, 0, []) ∧
    said built (.qpush 1#8 1#8 16#8) = some (.ok, 0, []) := by decide +kernel

/-- QV1: nothing on the first call, the entry on the second. -/
theorem test_qexec_second_cycle :
    let s := after built (.qpush 0x2C#8 7#8 2#8)
    said s .qexec = some (.ok, 0, []) ∧ said (after s .qexec) .qexec = some (.ok, 0, [.fire 0x2C#8 7#8]) := by decide +kernel

/-- QV4: with CURSOR = 15 a delay of 2 lands in bucket 0. -/
theorem test_qexec_wraps :
    let s := after { built with cursor := 15 } (.qpush 1#8 0xAA#8 2#8)
    s.slot 1#8 = some 0 ∧ (after s .qexec).cursor = 0 ∧ said (after s .qexec) .qexec = some (.ok, 0, [.fire 1#8 0xAA#8]) := by
  decide +kernel

/-- QV11: QRST keeps CURSOR and discards what was pending. -/
theorem test_qrst_discards :
    let s := after (after { built with cursor := 3 } (.qpush 0x2C#8 7#8 2#8)) .qrst
    s.cursor = 3 ∧ s.slot 0x2C#8 = none ∧ said (after s .qexec) .qexec = some (.ok, 0, []) := by decide +kernel

/-! ## States that meet the hypotheses of the statements

Each theorem is named after its statement and shows its hypotheses for a concrete state and operands, clause by clause at the
ends of a range. -/

theorem default_valid : Config.default.Valid := by decide

theorem built_queue : QueueOk built := queueOk_empty rfl (by decide) (by decide) rfl

theorem built_inv : built.Inv := by
  refine ⟨default_valid, ⟨by decide, by decide⟩, ⟨by decide, by decide⟩, .inl (by decide), ?_, built_queue⟩
  exact ⟨by decide, by decide, by decide, fun x hx => absurd hx List.not_mem_nil⟩

/-- The page table after the two static parts of CINST. -/
@[irreducible] def staticPages : Sparse Descriptor :=
  setPages (upperMap Config.default) (upperPages Config.default) (setPages hsMap (hotSpotPages Config.default) [])

theorem staticPages_ok : PageTableOk Config.default staticPages := by
  unfold staticPages
  exact pageTableOk_setPages
    (pageTableOk_setPages built_inv.pages (fun _ hp => hotSpotPages_lt default_valid hp) fun p _ => hsMap_ok _ p)
    (fun _ hp => upperPages_lt default_valid hp) fun _ hp => upperMap_ok default_valid hp

theorem staticPages_page (p : Nat) :
    pageOfTable staticPages p =
      if p ∈ upperPages Config.default then upperMap Config.default p
      else if p ∈ hotSpotPages Config.default then hsMap p else Descriptor.unmapped := by
  unfold staticPages
  simp only [pageOfTable_setPages]
  rfl

/-- The block after these two parts, before a selection. -/
def unselected : State := { built with pt := staticPages }

theorem unselected_cfg : unselected.cfg = Config.default := rfl

theorem unselected_page (p : Nat) : unselected.page p = pageOfTable staticPages p := rfl

theorem unselected_pages : PageTableOk unselected.cfg unselected.pt := by
  rw [unselected_cfg, show unselected.pt = staticPages from rfl]
  exact staticPages_ok

/-- The block as CINST installs it, with the bank `n` selected. -/
def installed (n : Nat) : State := select n unselected

theorem installed_cfg (n : Nat) : (installed n).cfg = Config.default := by rw [installed, select_cfg, unselected_cfg]

theorem installed_queue (n : Nat) : QueueOk (installed n) :=
  queueOk_of_same built_queue (by rw [installed_cfg]; rfl) (by rw [installed, select_buckets]; rfl)
    (by rw [installed, select_cursor]; rfl) (by rw [installed, select_index]; rfl)

theorem installed_inv (n : Nat) : (installed n).Inv := by
  obtain ⟨h1, h2⟩ := select_keeps (n := n) (s := unselected) (by rw [unselected_cfg]; exact default_valid) (.inl (by decide))
    unselected_pages
  rw [unselected_cfg] at h1 h2
  have himage : (installed n).image = image0 := by rw [installed, select_image]; rfl
  have hram : (installed n).ram = [] := by rw [installed, select_ram]; rfl
  have hcfg := installed_cfg n
  refine ⟨by rw [hcfg]; exact default_valid, by rw [hcfg, himage]; decide, by rw [hram]; exact wf_nil _,
    by rw [hcfg]; exact h1, by rw [hcfg]; exact h2, installed_queue n⟩

theorem installed_mapped (n : Nat) : (installed n).Mapped := by
  refine ⟨fun p hp => ?_, fun p hp => ?_, fun p hp => ?_⟩ <;> rw [installed_cfg] at hp
  · rw [installed_cfg, installed, select_page, if_pos ⟨rfl, hp⟩, select_sel, if_neg (by decide), normSel_toNat, unselected_cfg]
  · rw [installed_cfg, installed, select_page, if_neg (fun h => lower_not_upper h.2 hp), unselected_page,
      staticPages_page, if_pos hp]
  · rw [installed, select_page, if_neg (fun h => lower_not_hotSpot default_valid h.2 hp), unselected_page,
      staticPages_page, if_neg (fun h => upper_not_hotSpot default_valid h hp), if_pos hp]

/-- The block with one command waiting. -/
def waiting (w : Word) (s : State) : State := { s with inbox := [.command { word := w }] }

theorem witness_DecodeOfEncodeIsTheCommand : Instr.WellFormed Config.default (.ptset 0x3FF#16 ⟨none, none, .ext 1⟩) := by decide

theorem witness_EncodeOfDecodeIsTheWord :
    decode Config.default { word := 0x0503FF00#32 } = .ok (.ptset 0x3FF#16 Descriptor.unmapped) := rfl

theorem witness_StepRunsTheDecodedCommand :
    (waiting 0x06000000#32 built).inbox = [.command { word := 0x06000000#32 }] ∧ (waiting 0x06000000#32 built).tornDown = false ∧
    decode (waiting 0x06000000#32 built).cfg { word := 0x06000000#32 } = .ok .cinst := ⟨rfl, rfl, rfl⟩

/-- One word for each cause: an unassigned opcode, a reserved bit, and the page of vector EV8. -/
theorem witness_UnassignedWordAnswersIllegal :
    (waiting 0x12000000#32 built).inbox = [.command { word := 0x12000000#32 }] ∧ (waiting 0x12000000#32 built).tornDown = false ∧
    (∃ e, decode built.cfg { word := 0x12000000#32 } = .error e) ∧
    (∃ e, decode built.cfg { word := 0x01100501#32 } = .error e) ∧
    (∃ e, decode built.cfg { word := 0x05040000#32 } = .error e) :=
  ⟨rfl, rfl, ⟨.unassignedOpcode, rfl⟩, ⟨.reservedBit, rfl⟩, ⟨.pageOutOfRange, rfl⟩⟩

theorem witness_StepRefusesNestedAndLateCommands :
    { built with inbox := [.nested { word := 0x10000000#32 }] }.inbox = [.nested { word := 0x10000000#32 }] ∧
    { waiting 0x10000000#32 built with tornDown := true }.inbox = [.command { word := 0x10000000#32 }] ∧
    { waiting 0x10000000#32 built with tornDown := true }.tornDown = true ∧
    { built with inbox := [.teardown] }.inbox = [.teardown] ∧ built.inbox = [] ∧
    (tearDown boot).tornDown = true ∧ (∀ p, ((tearDown boot).page p).rd = none ∧ ((tearDown boot).page p).wr = none) ∧
    step (tearDown boot) = .next (tearDown boot) := by
  refine ⟨rfl, rfl, rfl, rfl, rfl, rfl, fun p => ?_, rfl⟩
  rw [tearDown_page]
  exact ⟨rfl, rfl⟩

theorem witness_ConstructionMeetsTheInvariant :
    Config.default.Valid ∧ Memory.wf Config.default.romSize [(0, 1#8), (8191, 2#8)] ∧ Memory.wf 32768 [(0, 1#8), (32767, 2#8)] := by
  decide

theorem witness_EveryStepKeepsTheInvariant :
    (waiting 0x08000102#32 (installed 3)).Inv ∧ ∃ t, step (waiting 0x08000102#32 (installed 3)) = .next t := by
  have h := installed_inv 3
  exact ⟨⟨h.params, h.image, h.ram, h.sel, h.pages, queueOk_of_same h.queue rfl rfl rfl rfl⟩, _, rfl⟩

theorem witness_EveryCommandEndsWithAStatus :
    (waiting 0x00000000#32 (installed 3)).Inv ∧ (waiting 0x00000000#32 (installed 3)).inbox = [.command { word := 0#32 }] ∧
    (waiting 0x00000000#32 (installed 3)).tornDown = false := by
  have h := installed_inv 3
  exact ⟨⟨h.params, h.image, h.ram, h.sel, h.pages, queueOk_of_same h.queue rfl rfl rfl rfl⟩, rfl, rfl⟩

theorem witness_SelectorStaysLegal :
    built.cfg.Valid ∧ exec (.csel 511#9) built = .next (after built (.csel 511#9)) ∧
    (built.sel.toNat < 256 ∧ built.sel.toNat < built.cfg.romBanks) := ⟨default_valid, rfl, by decide⟩

theorem witness_QueueInvariantsAreKept :
    QueueOk built ∧ exec (.qpush 0xFF#8 1#8 16#8) built = .next (after built (.qpush 0xFF#8 1#8 16#8)) := ⟨built_queue, rfl⟩

theorem witness_MappingInvariantIsKept :
    (built.cfg.Valid ∧ built.locked = false ∧ exec .cinst built = .next (after built .cinst)) ∧
    ((installed 1).cfg.Valid ∧ 0x41 ∈ claimedPages (installed 1).cfg ∧
      (installed 1).page 0x41 = publishedFor (installed 1) 0x41 ∧
      (∀ page desc, Instr.ptset 0x40#16 Descriptor.unmapped = .ptset page desc → page.toNat ≠ 0x41) ∧
      ∃ t, exec (.ptset 0x40#16 Descriptor.unmapped) (installed 1) = .next t) := by
  refine ⟨⟨default_valid, rfl, rfl⟩, by rw [installed_cfg]; exact default_valid, by rw [installed_cfg]; decide, ?_, ?_, _, rfl⟩
  · have hp : 0x41 ∈ lowerPages (installed 1).cfg := by rw [installed_cfg]; decide
    rw [(installed_mapped 1).lower _ hp, publishedFor, if_pos hp]
  · rintro page desc h
    cases h
    decide

theorem witness_BrdAnswersTheReferencedByte :
    (bank2.page (pageOf bank2.cfg 0x17FF#16)).rd = some ⟨.image, 0x17C0⟩ ∧ 0x17C0 + inPage bank2.cfg 0x17FF#16 < 8192 := by
  decide +kernel

/-- BOOT, then the PTSET of PV15. -/
def extPage : State := after boot (.ptset 2#16 ⟨none, none, .ext 1⟩)

theorem witness_BrdAsksTheExternalDevice :
    (extPage.page (pageOf extPage.cfg 0x0085#16)).rd = none ∧ (extPage.page (pageOf extPage.cfg 0x0085#16)).dev = .ext 1 ∧
    (pinned { extVal := [0x42#8] } extPage).draws.extVal = [0x42#8] := by decide +kernel

theorem witness_BusAccessToACartridgePageRunsItsHandler :
    (boot.page (pageOf boot.cfg 0x003E#16)).rd = none ∧ (boot.page (pageOf boot.cfg 0x003E#16)).wr = none ∧
    (boot.page (pageOf boot.cfg 0x003E#16)).dev = .cart := by decide +kernel

theorem witness_UnmappedAccessAnswersUnmapped :
    (built.page (pageOf built.cfg 0x1000#16)).rd = none ∧ (built.page (pageOf built.cfg 0x1000#16)).wr = none ∧
    (built.page (pageOf built.cfg 0x1000#16)).dev = .none := by decide

theorem witness_BwrStoresThroughTheReference :
    (pair3.page (pageOf pair3.cfg 0x17FF#16)).wr = some ⟨.ram, 0x0FC0⟩ ∧ 0x0FC0 + inPage pair3.cfg 0x17FF#16 < 32768 := by
  decide +kernel

theorem witness_BwrAsksTheExternalDevice :
    (extPage.page (pageOf extPage.cfg 0x0085#16)).wr = none ∧ (extPage.page (pageOf extPage.cfg 0x0085#16)).dev = .ext 1 ∧
    (pinned { extHandled := [true] } extPage).draws.extHandled = [true] := by decide +kernel

theorem witness_PtsetInstallsTheDescriptor :
    let desc : Descriptor := ⟨some ⟨.image, 0x1FC0⟩, some ⟨.ram, 0x7FC0⟩, .ext 0⟩
    (desc.dev = .none → desc.rd = none ∧ desc.wr = none) ∧
    (∀ r, desc.rd = some r ∨ desc.wr = some r → r.base + boot.cfg.pageSize ≤ bufSize boot.cfg r.buf) ∧
    (∀ r, desc.wr = some r → r.buf ≠ .image) := by
  refine ⟨by decide, ?_, ?_⟩
  · rintro r (h | h) <;> cases h <;> decide
  · rintro r h
    cases h
    decide

theorem witness_PtsetRejectsIllFormedDescriptors :
    (Descriptor.dev ⟨some ⟨.image, 0⟩, none, .none⟩ = .none ∧ Descriptor.rd ⟨some ⟨.image, 0⟩, none, .none⟩ ≠ none) ∧
    bufSize boot.cfg .image < 0x1FC1 + boot.cfg.pageSize ∧ bufSize boot.cfg .ram < 0x7FC1 + boot.cfg.pageSize ∧
    (Descriptor.wr ⟨none, some ⟨.image, 0⟩, .cart⟩ = some ⟨.image, 0⟩) := by decide

theorem witness_CrdAnswersTheByteShown :
    (bank2.cfg.Valid ∧ bank2.sel.toNat < 256 ∧ bank2.sel.toNat < bank2.cfg.romBanks ∧ (0x17FF#16).toNat % 4096 < 0x800) ∧
    (256 ≤ pair3.sel.toNat ∧ pair3.sel.toNat ≤ 287 ∧ (0x13FF#16).toNat % 4096 < 0x400) ∧
    (0x800 ≤ (0x1800#16).toNat % 4096 ∧ 0x800 ≤ (0xFFFF#16).toNat % 4096) := by decide +kernel

theorem witness_WritePortReadLatchesTheFloatingBus :
    (pair3.cfg.Valid ∧ 256 ≤ pair3.sel.toNat ∧ pair3.sel.toNat ≤ 287 ∧ pair3.locked = false) ∧
    ((pair3.page (pageOf pair3.cfg 0x1400#16)).rd = none ∧ (pair3.page (pageOf pair3.cfg 0x1400#16)).dev = .cart) ∧
    (0x400 ≤ (0x1400#16).toNat % 4096 ∧ (0x17FF#16).toNat % 4096 < 0x800) ∧
    (pinned { fb := [0x5A#8] } pair3).draws.fb = [0x5A#8] ∧ (after pair3 (.clock true)).locked = true := by decide +kernel

theorem witness_CselSelects : boot.locked = false ∧ (after boot (.clock true)).locked = true := by decide +kernel

theorem witness_CwrSelectsAtHotSpotsAndAlwaysPokes :
    boot.cfg.Valid ∧ boot.locked = false ∧ (0xF03F#16).toNat % 4096 = boot.cfg.hsRom ∧ (0x103E#16).toNat % 4096 = boot.cfg.hsRam ∧
    (0x183F#16).toNat % 4096 ≠ boot.cfg.hsRom ∧ (0x183F#16).toNat % 4096 ≠ boot.cfg.hsRam ∧
    (after boot (.clock true)).locked = true := by decide +kernel

theorem witness_CinstInstallsTheCartridge :
    built.cfg.Valid ∧ 0 ∈ hotSpotPages built.cfg ∧ 0x60 ∈ upperPages built.cfg ∧ 0x7F ∈ upperPages built.cfg ∧
    0x40 ∈ lowerPages built.cfg ∧ 0x5F ∈ lowerPages built.cfg ∧ 0x80 ∉ claimedPages built.cfg ∧ built.locked = false ∧
    (after built (.clock true)).locked = true := by decide

theorem witness_CrstFillsRamAndSelects :
    (pinned { rng := List.replicate 32768 0xEE#8 } boot).draws.rng[32767]? = some 0xEE#8 := by decide +kernel

theorem witness_CpatOverridesTheByteShown :
    (bank2.cfg.Valid ∧ bank2.sel.toNat < 256 ∧ bank2.sel.toNat < bank2.cfg.romBanks) ∧
    (256 ≤ pair3.sel.toNat ∧ pair3.sel.toNat ≤ 287) := by decide +kernel

theorem witness_CsavePutsTheSavedFields :
    (pinned { serFault := [none] } boot).draws.serFault = [none] ∧
    (pinned { serFault := [some 32770] } boot).draws.serFault = [some 32770] := ⟨rfl, rfl⟩

theorem witness_CloadRestoresTheSavedState :
    (List.replicate 32768 0x11#8).length = 32768 ∧ (List.replicate 32768 0x11#8)[32767]? = some 0x11#8 ∧
    0x40 ∈ lowerPages boot.cfg ∧ 0x60 ∉ lowerPages boot.cfg := by decide +kernel

theorem witness_CloadWithoutTheTagFails :
    (∀ rest, [] ≠ SerItem.field (.str boot.cfg.tag) :: rest) ∧ (∀ rest, [.fault] ≠ SerItem.field (.str boot.cfg.tag) :: rest) ∧
    ∀ rest, [.field (.str "Cartridge4K")] ≠ SerItem.field (.str built.cfg.tag) :: rest := by
  refine ⟨by simp, by simp, fun rest h => ?_⟩
  injection h with h
  injection h with h
  injection h with h
  exact absurd h (by decide)

theorem witness_CloadFailsPartiallyAfterTheTag :
    boot.cfg.Valid ∧
    (∀ (n : Nat) (bytes : List Byte) (extra : List SerItem), bytes.length = 32768 →
      [] ≠ SerItem.field (.int n) :: .field (.int 32768) :: (bytes.map (fun b => SerItem.field (.byte b)) ++ extra)) ∧
    ∀ (n : Nat) (bytes : List Byte) (extra : List SerItem), bytes.length = 32768 →
      [.field (.int 0), .field (.int 32767)] ≠
        SerItem.field (.int n) :: .field (.int 32768) :: (bytes.map (fun b => SerItem.field (.byte b)) ++ extra) := by
  refine ⟨default_valid, by simp, fun n bytes extra _ h => ?_⟩
  injection h with _ h
  injection h with h
  injection h with h
  injection h with h
  exact absurd h (by decide)

theorem witness_QpushSchedulesAndReplaces :
    QueueOk built ∧ 1 ≤ (1#8).toNat ∧ (16#8).toNat ≤ built.cfg.horizon ∧
    (built.bucket 15).length - (if built.slot 0xFF#8 = some 15 then 1 else 0) + 1 ≤ built.cfg.capacity :=
  ⟨built_queue, by decide, by decide, by decide⟩

/-- A full bucket 0. -/
def full : State := { built with buckets := changeBucket 0 (fun _ => List.replicate 16 ⟨0#8, 0#8⟩) built.buckets }

theorem witness_QpushRejectsOutOfRangeAndFull :
    (0#8).toNat = 0 ∧ full.cfg.horizon < (17#8).toNat ∧ 1 ≤ (1#8).toNat ∧ (1#8).toNat ≤ full.cfg.horizon ∧
    full.cfg.capacity < (full.bucket 0).length - (if full.slot 0x10#8 = some 0 then 1 else 0) + 1 := by decide

/-- One entry, due in the next cycle. -/
def due : State := after built (.qpush 0x2C#8 7#8 1#8)

theorem witness_QexecDeliversTheCurrentBucket :
    (⟨0x2C#8, 7#8⟩ : Entry) ∈ due.bucket due.cursor ∧ ¬ ∃ e ∈ due.bucket due.cursor, e.addr = 0x2D#8 := by decide

theorem witness_CommandsThatStoreNothingKeepEveryByte :
    exec (.cwr 0x1400#16 1#8) pair3 = .next (after pair3 (.cwr 0x1400#16 1#8)) ∧
    exec .qrst built = .next (after built .qrst) := ⟨rfl, rfl⟩

theorem witness_OnlyPatchChangesTheImage :
    PageTableOk (installed 0).cfg (installed 0).pt ∧ exec .crst (installed 0) = .next (after (installed 0) .crst) ∧
    ∀ addr data, Instr.crst ≠ .cpat addr data := ⟨(installed_inv 0).pages, rfl, by simp⟩

theorem witness_OnlyClockWritesLocked :
    exec (.clock true) built = .next (after built (.clock true)) ∧ exec .cinst built = .next (after built .cinst) := ⟨rfl, rfl⟩

theorem witness_ChangedIsWrittenAsStated :
    (exec (.cwr 0x003F#16 2#8) built = .next (after built (.cwr 0x003F#16 2#8)) ∧ built.locked = false ∧
      (0x003F#16).toNat % 4096 = built.cfg.hsRom) ∧
    ((boot.page (pageOf boot.cfg 0x103E#16)).wr = none ∧ (boot.page (pageOf boot.cfg 0x103E#16)).dev = .cart) ∧
    exec (.cpat 0x1000#16 1#8) built = .next (after built (.cpat 0x1000#16 1#8)) ∧
    exec .cclr built = .next (after built .cclr) ∧ exec .qexec built = .next (after built .qexec) := by
  refine ⟨⟨rfl, rfl, by decide⟩, by decide +kernel, rfl, rfl, rfl⟩

theorem witness_OnlyQexecMovesTheCursor :
    exec .qexec { built with cursor := 15 } = .next (after { built with cursor := 15 } .qexec) ∧ 15 < built.cfg.horizon :=
  ⟨rfl, by decide⟩

theorem witness_PagesAreWrittenOnlyByTheirClaim :
    exec .cinst built = .next (after built .cinst) ∧ (after built .cinst).page 0x40 ≠ built.page 0x40 :=
  ⟨rfl, by decide +kernel⟩

theorem witness_LockFreezesTheMapping :
    let s := after pair3 (.clock true)
    s.cfg.Valid ∧ 256 ≤ s.sel.toNat ∧ s.sel.toNat ≤ 287 ∧ s.locked = true ∧
    ((s.page (pageOf s.cfg 0x103F#16)).wr = none ∧ (s.page (pageOf s.cfg 0x103F#16)).dev = .cart) ∧
    ((s.page (pageOf s.cfg 0x1400#16)).rd = none ∧ (s.page (pageOf s.cfg 0x1400#16)).dev = .cart) ∧
    (List.replicate 32768 0#8).length = 32768 := by decide +kernel

theorem witness_RejectionsArePrecise :
    said built (.brd 0x1000#16) = some (.unmapped, 0, []) ∧
    said (pinned { serFault := [some 1] } built) .csave = some (.fail, 0, [.serPut (.str "Cartridge3E")]) ∧
    said built (.cload [.field (.str "Cartridge3E")]) = some (.fail, 0, []) ∧
    (after built (.cload [.field (.str "Cartridge3E")])).faults = [.failPartial] := by decide +kernel

theorem witness_CommandFaultsAreRecorded :
    (after built .cstat).status = some .ok ∧ (after built (.ptset 0#16 ⟨none, some ⟨.image, 0⟩, .cart⟩)).status = some .illegal ∧
    (after built (.bwr 0#16 0#8)).status = some .unmapped ∧ (after built (.qpush 0#8 0#8 0#8)).status = some .qRange ∧
    (after full (.qpush 0x10#8 0#8 1#8)).status = some .qFull ∧ (after built (.cload [])).status = some .fail := by
  decide +kernel

theorem witness_NormalisationIsTotalAndLegal : Config.default.Valid ∧ 255 < 256 ∧ 256 ≤ 511 := by decide

theorem witness_FastPathEqualsTheHandler :
    (pageOf bank2.cfg 0x17FF#16 ∈ lowerPages bank2.cfg ∧
      (lowerMap bank2.cfg bank2.sel.toNat (pageOf bank2.cfg 0x17FF#16)).rd = some ⟨.image, 0x17C0⟩) ∧
    (pageOf bank2.cfg 0x1FFF#16 ∈ upperPages bank2.cfg ∧
      (upperMap bank2.cfg (pageOf bank2.cfg 0x1FFF#16)).rd = some ⟨.image, 0x1FC0⟩) ∧
    (pageOf pair3.cfg 0x1400#16 ∈ lowerPages pair3.cfg ∧
      (lowerMap pair3.cfg pair3.sel.toNat (pageOf pair3.cfg 0x1400#16)).wr = some ⟨.ram, 0x0C00⟩ ∧
      pair3.page (pageOf pair3.cfg 0x1400#16) = lowerMap pair3.cfg pair3.sel.toNat (pageOf pair3.cfg 0x1400#16) ∧
      (0x1000#16).toNat + 0x400 = (0x1400#16).toNat) ∧
    said pair3 (.bwr 0x1400#16 0xAB#8) = some (.ok, 1, []) := by decide +kernel

theorem witness_SelectedBankIsRead :
    built.cfg.Valid ∧ built.locked = false ∧ (0x17FF#16).toNat = built.cfg.windowBase + 0x7FF ∧ (255#9).toNat < 256 ∧
    (0x13FF#16).toNat = built.cfg.windowBase + 0x3FF ∧ 256 ≤ (511#9).toNat := by decide

theorem witness_SelectionIsIdempotentAndWraps :
    built.cfg.Valid ∧ built.locked = false ∧ exec (.csel 4#9) built = .next (after built (.csel 4#9)) ∧ (4#9).toNat < 256 ∧
    (4#9).toNat = built.cfg.romBanks ∧ (3#9).toNat + 1 = built.cfg.romBanks :=
  ⟨default_valid, rfl, rfl, by decide, by decide, by decide⟩

theorem witness_WritePortIsReadAtTheReadPort :
    (installed 259).Inv ∧ (installed 259).Mapped ∧ 256 ≤ (installed 259).sel.toNat ∧
    (0x17FF#16).toNat = (installed 259).cfg.windowBase + 0x400 + 0x3FF ∧
    (0x13FF#16).toNat = (installed 259).cfg.windowBase + 0x3FF :=
  ⟨installed_inv 259, installed_mapped 259, by decide, by decide, by decide⟩

/-- A ROM selection, and a locked RAM selection at both ends of the write port. -/
theorem witness_PatchChangesTheByteCrdReads :
    (bank2.cfg.Valid ∧ SelLegal bank2.cfg bank2.sel ∧ bank2.sel.toNat < 256) ∧
    let s := after pair3 (.clock true)
    s.cfg.Valid ∧ SelLegal s.cfg s.sel ∧ s.locked = true ∧ 256 ≤ s.sel.toNat ∧ 0x400 ≤ (0x1400#16).toNat % 4096 ∧
      (0x17FF#16).toNat % 4096 < 0x800 := by
  refine ⟨⟨by decide +kernel, .inl (by decide +kernel), by decide +kernel⟩, by decide +kernel, .inr (by decide +kernel), ?_⟩
  decide +kernel

theorem witness_AcceptedPushIsTheOnlyPendingEntry :
    QueueOk built ∧ exec (.qpush 0x2C#8 7#8 1#8) built = .next due ∧ due.status = some .ok := ⟨built_queue, rfl, rfl⟩

theorem witness_EntryFiresAtItsCycleOnly :
    let t := after built (.qpush 0x2C#8 7#8 2#8)
    QueueOk built ∧ exec (.qpush 0x2C#8 7#8 2#8) built = .next t ∧ t.status = some .ok ∧
    runWithoutCancel 0x2C#8 [.qpush 0x10#8 1#8 2#8, .qexec] t = some (after (after t (.qpush 0x10#8 1#8 2#8)) .qexec) ∧
    cyclesIn [.qpush 0x10#8 1#8 2#8, .qexec] + 1 = (2#8).toNat ∧ cyclesIn [] + 1 ≠ (2#8).toNat :=
  ⟨built_queue, rfl, rfl, by decide +kernel, by decide, by decide⟩

theorem witness_SaveThenLoadRestoresTheCartridge :
    SelLegal pair3.cfg pair3.sel ∧ boot.cfg = pair3.cfg ∧
    Answered (after (pinned { serFault := [none] } pair3) .csave) .ok 0#16
      ((pinned { serFault := [none] } pair3).saveFields.map .serPut) :=
  ⟨.inr (by decide +kernel), by decide +kernel, rfl⟩

theorem witness_PseudoSelectReachesTheHotSpot :
    Config.default.Valid ∧ (installed 0).cfg = Config.default ∧ (installed 0).Mapped ∧ (installed 0).locked = false ∧
    Config.default.hsBase ≤ 0x103F ∧ 0x103F % 4096 = Config.default.hsRom :=
  ⟨default_valid, rfl, installed_mapped 0, rfl, by decide, by decide⟩

end Sys2Proof.Tests
end

/-! The obligations of 10_state.md: what every command and every step keeps of the state, each read off `exec_form`. -/

namespace Sys2Proof.Machine

/-! ## Equal fields read equal bytes and keep equal forms -/

/-- A byte of IMAGE depends on the bytes listed and the releases alone. -/
theorem bufByte_image_of_same {s t : State} (hi : t.image = s.image) (hr : t.imagesReleased = s.imagesReleased) (j : Nat) :
    t.bufByte .image j = s.bufByte .image j := by
  simp [State.bufByte, hi, hr]

/-- The bytes of both buffers depend on what they list, the releases and the fills alone. -/
theorem sameBytes_of_same {s t : State} (hi : t.image = s.image) (hr : t.imagesReleased = s.imagesReleased)
    (hm : t.ram = s.ram) (hf : t.ramFill = s.ramFill) : SameBytes s t := by
  intro b j
  cases b with
  | image => exact bufByte_image_of_same hi hr j
  | ram => simp [State.bufByte, hm, hf]

theorem buffersOk_of_same {s t : State} (h : BuffersOk s) (hc : t.cfg = s.cfg) (hi : t.image = s.image)
    (hm : t.ram = s.ram) : BuffersOk t :=
  ⟨by rw [hc, hi]; exact h.image, by rw [hm]; exact h.ram⟩

/-! ## The end of a CLOAD, field by field (R122, R123) -/

section LoadFields

variable (n : Nat) (bytes : List Byte) (s : State)

@[simp] theorem loadComplete_cfg : (loadComplete n bytes s).cfg = s.cfg := rfl
@[simp] theorem loadComplete_image : (loadComplete n bytes s).image = s.image := rfl
@[simp] theorem loadComplete_imagesReleased : (loadComplete n bytes s).imagesReleased = s.imagesReleased := rfl
@[simp] theorem loadComplete_startBank : (loadComplete n bytes s).startBank = s.startBank := rfl
@[simp] theorem loadComplete_locked : (loadComplete n bytes s).locked = s.locked := rfl
@[simp] theorem loadComplete_changed : (loadComplete n bytes s).changed = s.changed := rfl
@[simp] theorem loadComplete_buckets : (loadComplete n bytes s).buckets = s.buckets := rfl
@[simp] theorem loadComplete_cursor : (loadComplete n bytes s).cursor = s.cursor := rfl
@[simp] theorem loadComplete_index : (loadComplete n bytes s).index = s.index := rfl

@[simp] theorem loadFailPartial_cfg : (loadFailPartial s).cfg = s.cfg := rfl
@[simp] theorem loadFailPartial_image : (loadFailPartial s).image = s.image := rfl
@[simp] theorem loadFailPartial_imagesReleased : (loadFailPartial s).imagesReleased = s.imagesReleased := rfl
@[simp] theorem loadFailPartial_startBank : (loadFailPartial s).startBank = s.startBank := rfl
@[simp] theorem loadFailPartial_locked : (loadFailPartial s).locked = s.locked := rfl
@[simp] theorem loadFailPartial_changed : (loadFailPartial s).changed = s.changed := rfl
@[simp] theorem loadFailPartial_buckets : (loadFailPartial s).buckets = s.buckets := rfl
@[simp] theorem loadFailPartial_cursor : (loadFailPartial s).cursor = s.cursor := rfl
@[simp] theorem loadFailPartial_index : (loadFailPartial s).index = s.index := rfl

end LoadFields

/-! ## Parameters, start bank, lock and cursor -/

section Exec

variable {s t : State} {i : Instr}

/-- No command writes a parameter (R7-R14). -/
theorem exec_cfg (h : exec i s = .next t) : t.cfg = s.cfg := by
  cases exec_form h with
  | quiet hq => obtain ⟨r, f, d, rfl⟩ := hq; rfl
  | _ => simp

/-- No command writes START_BANK (R31). -/
theorem exec_startBank (h : exec i s = .next t) : t.startBank = s.startBank := by
  cases exec_form h with
  | quiet hq => obtain ⟨r, f, d, rfl⟩ := hq; rfl
  | _ => simp

/-- CLOCK writes its operand to LOCKED; every other command keeps it (R32). -/
theorem exec_locked (h : exec i s = .next t) :
    (∃ lk, i = .clock lk ∧ t.locked = lk) ∨ ((∀ lk, i ≠ .clock lk) ∧ t.locked = s.locked) := by
  cases exec_form h with
  | quiet hq hm =>
    obtain ⟨r, f, d, rfl⟩ := hq
    exact .inr ⟨by rintro lk rfl; exact hm.2, rfl⟩
  | latch hi => exact .inr ⟨by rcases hi with rfl | rfl <;> simp, by simp⟩
  | hotSpot n hi => exact .inr ⟨by rcases hi with rfl | ⟨rfl, -⟩ <;> simp, by simp⟩
  | clock => exact .inl ⟨_, rfl, rfl⟩
  | _ => exact .inr ⟨by simp, by simp⟩

/-- QEXEC advances CURSOR by one modulo L, and every other command keeps it (R40, R133). -/
theorem exec_cursor (h : exec i s = .next t) : t.cursor = if i = .qexec then (s.cursor + 1) % s.cfg.horizon else s.cursor := by
  cases exec_form h with
  | quiet hq hm =>
    obtain ⟨r, f, d, rfl⟩ := hq
    rw [if_neg (by rintro rfl; exact hm.2)]
  | latch hi => rcases hi with rfl | rfl <;> simp
  | hotSpot n hi => rcases hi with rfl | ⟨rfl, -⟩ <;> simp
  | _ => simp

/-! ## CHANGED (R33) -/

/-- The command asks for a selection: CINST, CRST, CSEL, or a write that runs the write handler at a hot spot (R107, R110,
R114, R116). -/
def RequestsSelection (s : State) (i : Instr) : Prop :=
  i = .cinst ∨ i = .crst ∨ (∃ sel, i = .csel sel) ∨ ∃ a v, RunsWriteHandler s i a v ∧ AtHotSpot s.cfg a

theorem requestsSelection_iff : RequestsSelection s i ↔
    i = .cinst ∨ i = .crst ∨ (∃ sel, i = .csel sel) ∨ (∃ a v, i = .cwr a v ∧ AtHotSpot s.cfg a) ∨
      ∃ a v, i = .bwr a v ∧ (s.page (pageOf s.cfg a)).wr = none ∧ (s.page (pageOf s.cfg a)).dev = .cart ∧
        AtHotSpot s.cfg a := by
  simp only [RequestsSelection, RunsWriteHandler, or_and_right, exists_or, and_assoc]

theorem not_requestsSelection_cpat (a : Addr) (v : Byte) : ¬ RequestsSelection s (.cpat a v) := by
  simp [RequestsSelection, RunsWriteHandler]

theorem not_requestsSelection_cclr : ¬ RequestsSelection s .cclr := by simp [RequestsSelection, RunsWriteHandler]

/-- Everything a command can do to CHANGED: a selection sets it unless LOCKED, a CPAT sets it, a CCLR clears it. -/
inductive ChangedForm (s : State) (i : Instr) (t : State) : Prop
  | selection (hi : RequestsSelection s i) (hc : t.changed = (s.changed || !s.locked))
  | patch {a : Addr} {v : Byte} (hi : i = .cpat a v) (hc : t.changed = true)
  | clear (hi : i = .cclr) (hc : t.changed = false)
  | kept (hsel : ¬ RequestsSelection s i) (hpat : ∀ a v, i ≠ .cpat a v) (hclr : i ≠ .cclr) (hc : t.changed = s.changed)

theorem exec_changedForm (h : exec i s = .next t) : ChangedForm s i t := by
  cases exec_form h with
  | quiet hq hm =>
    obtain ⟨r, f, d, rfl⟩ := hq
    refine .kept ?_ (by rintro a v rfl; exact hm.2) (by rintro rfl; exact hm.2) rfl
    rintro (rfl | rfl | ⟨sel, rfl⟩ | ⟨a, v, hrun, hat⟩)
    · exact hm.2
    · exact hm.2
    · exact hm.2
    · exact hm.1 a v hrun hat
  | latch hi =>
    rcases hi with rfl | rfl <;> exact .kept (by simp [RequestsSelection, RunsWriteHandler]) (by simp) (by simp) (by simp)
  | direct hw => exact .kept (by simp [RequestsSelection, RunsWriteHandler, hw]) (by simp) (by simp) (by simp)
  | hotSpot n hi ha => exact .selection (.inr (.inr (.inr ⟨_, _, hi, ha⟩))) (by simp [select_changed])
  | cinst => exact .selection (.inl rfl) (by simp [select_changed])
  | crst => exact .selection (.inr (.inl rfl)) (by simp [select_changed])
  | csel => exact .selection (.inr (.inr (.inl ⟨_, rfl⟩))) (by simp [select_changed])
  | cpat => exact .patch rfl (by simp)
  | cclr => exact .clear rfl (by simp)
  | _ => exact .kept (by simp [RequestsSelection, RunsWriteHandler]) (by simp) (by simp) (by simp)

/-! ## Bytes of the buffers -/

/-- The six commands some run of which stores a byte: a read may latch the floating bus, a write may go through a reference
(R97, R106, R116, R118, R122). -/
def MayStore : Instr → Prop
  | .brd _ | .bwr _ _ | .crd _ | .crst | .cpat _ _ | .cload _ => True
  | .cwr _ _ | .ptset _ _ | .cinst | .csel _ | .csave | .clock _ | .cclr | .cstat | .qpush _ _ _ | .qexec | .qrst => False

/-- A command that may not store leaves every byte as it was. -/
theorem exec_sameBytes (h : exec i s = .next t) (hi : ¬ MayStore i) : SameBytes s t := by
  cases exec_form h with
  | quiet hq => obtain ⟨r, f, d, rfl⟩ := hq; exact sameBytes_of_same rfl rfl rfl rfl
  | latch hr => rcases hr with rfl | rfl <;> exact absurd trivial hi
  | direct | crst | cpat | loaded | loadedPartly => exact absurd trivial hi
  | _ => exact sameBytes_of_same (by simp) (by simp) (by simp) (by simp)

/-- A command other than CPAT leaves every byte of IMAGE as it was: no write reference names IMAGE (R21, R51). -/
theorem exec_imageByte (hp : PageTableOk s.cfg s.pt) (h : exec i s = .next t) (hi : ∀ a v, i ≠ .cpat a v) (j : Nat) :
    t.bufByte .image j = s.bufByte .image j := by
  cases exec_form h with
  | quiet hq => obtain ⟨r, f, d, rfl⟩ := hq; rfl
  | latch => exact bufByte_image_of_same rfl rfl j
  | direct hw =>
    have hne := (descriptorOk_page hp _).writeNotImage _ hw
    simp [setBufByte_bufByte, hne.symm]
  | cpat => exact absurd rfl (hi _ _)
  | _ => exact bufByte_image_of_same (by simp) (by simp) j

/-- Every command keeps the canonical form of both buffers (R21, R22). -/
theorem exec_buffersOk (hb : BuffersOk s) (h : exec i s = .next t) : BuffersOk t := by
  cases exec_form h with
  | quiet hq => obtain ⟨r, f, d, rfl⟩ := hq; exact buffersOk_of_same hb rfl rfl rfl
  | latch hi hat hl hj => exact ⟨hb.image, wf_insert _ hj hb.ram⟩
  | direct hw hj => exact buffersOk_of_same (buffersOk_setBufByte _ hj hb) rfl rfl rfl
  | cpat ht hj => exact buffersOk_of_same (buffersOk_setBufByte _ hj hb) rfl rfl rfl
  | crst => exact buffersOk_of_same (buffersOk_drawRamFill hb) (by simp) (by simp) (by simp)
  | loaded hlen => exact ⟨hb.image, wf_ofList hlen.le⟩
  | loadedPartly => exact ⟨hb.image, wf_nil _⟩
  | _ => exact buffersOk_of_same hb (by simp) (by simp) (by simp)

/-! ## The delay queue (R39-R42) -/

/-- Every command keeps the queue invariants. -/
theorem exec_queueOk (hq : QueueOk s) (h : exec i s = .next t) : QueueOk t := by
  cases exec_form h with
  | quiet hs => obtain ⟨r, f, d, rfl⟩ := hs; exact queueOk_of_same hq rfl rfl rfl rfl
  | pushed h1 h2 hroom => exact queueOk_of_same (queueOk_pushed hq _ _ (targetBucket_lt hq _) hroom) rfl rfl rfl rfl
  | qexec => exact queueOk_of_same (queueOk_drain hq) rfl rfl rfl rfl
  | qrst => exact queueOk_empty (by simpa using hq.bucketCount) (by simp) hq.cursorBelow rfl
  | _ => exact queueOk_of_same hq (by simp) (by simp) (by simp) (by simp)

/-- A bucket holds at most C entries, also one past the last, which reads empty (R42 c). -/
theorem QueueOk.bucket_length_le (hq : QueueOk s) (j : Nat) : (s.bucket j).length ≤ s.cfg.capacity := by
  by_cases hj : j < s.buckets.length
  · exact hq.capacity _ (bucketOf_mem_of_lt hj)
  · simp [bucket_eq, bucketOf, List.getElem?_eq_none (Nat.le_of_not_lt hj)]

/-! ## SEL and the page table -/

/-- SEL becomes the normal form of `n` and the lower window is published for it: a selection without its lock and without
CHANGED, as CLOAD does it (R108, R122). -/
def republish (n : Nat) (s : State) : State := { s with sel := normSel s.cfg n }.publishLower (normSel s.cfg n)

/-- The block with the hot-spot pages and the fixed slice installed, as CINST leaves them before its selection (R114). -/
def withFixedPages (s : State) : State :=
  { s with pt := setPages (upperMap s.cfg) (upperPages s.cfg) (setPages hsMap (hotSpotPages s.cfg) s.pt) }

/-- Everything a command can do to SEL and the page table. -/
inductive MappingForm (s : State) (i : Instr) (t : State) : Prop
  | kept (hsel : t.sel = s.sel) (hpt : t.pt = s.pt)
  | ptset {p : BitVec 16} {d : Descriptor} (hi : i = .ptset p d) (hd : descriptorIllFormed s.cfg d = false)
      (hsel : t.sel = s.sel) (hpt : t.pt = setPage p.toNat d s.pt)
  | selected {n : Nat} (hsel : t.sel = (select n s).sel) (hpt : t.pt = (select n s).pt)
  | installed (hsel : t.sel = (select s.startBank (withFixedPages s)).sel)
      (hpt : t.pt = (select s.startBank (withFixedPages s)).pt)
  | loaded {n : Nat} (hsel : t.sel = (republish n s).sel) (hpt : t.pt = (republish n s).pt)

/-- What a selection leaves in SEL and the page table depends on the parameters, the lock, SEL and the table alone. -/
theorem select_of_same (n : Nat) {s u : State} (hc : u.cfg = s.cfg) (hl : u.locked = s.locked) (hs : u.sel = s.sel)
    (hp : u.pt = s.pt) : (select n u).sel = (select n s).sel ∧ (select n u).pt = (select n s).pt := by
  rw [select_eq, select_eq, hc, hl, hp]
  split
  · exact ⟨hs, hp⟩
  · exact ⟨rfl, rfl⟩

theorem exec_mappingForm (h : exec i s = .next t) : MappingForm s i t := by
  cases exec_form h with
  | quiet hq => obtain ⟨r, f, d, rfl⟩ := hq; exact .kept rfl rfl
  | hotSpot n => exact .selected (n := n) rfl rfl
  | csel => exact .selected rfl rfl
  | crst =>
    obtain ⟨hsel, hpt⟩ := select_of_same s.startBank (u := drawRamFill s) (s := s) rfl rfl rfl rfl
    exact .selected hsel hpt
  | ptset hd => exact .ptset rfl hd rfl rfl
  | cinst => exact .installed rfl rfl
  | loaded => exact .loaded rfl rfl
  | loadedPartly => exact .loaded rfl rfl
  | _ => exact .kept (by simp) (by simp)

/-- A selection keeps a legal SEL (R30, R108). -/
theorem select_selLegal {n : Nat} {s : State} (hc : s.cfg.Valid) (hs : SelLegal s.cfg s.sel) :
    SelLegal s.cfg (select n s).sel := by
  rw [select_sel]
  split
  · exact hs
  · exact normSel_legal hc n

/-- Every command keeps a legal SEL (R30). -/
theorem exec_selLegal (hc : s.cfg.Valid) (hs : SelLegal s.cfg s.sel) (h : exec i s = .next t) : SelLegal t.cfg t.sel := by
  rw [exec_cfg h]
  cases exec_mappingForm h with
  | kept hsel => rwa [hsel]
  | ptset hi hd hsel => rwa [hsel]
  | selected hsel => rw [hsel]; exact select_selLegal hc hs
  | installed hsel => rw [hsel]; exact select_selLegal (s := withFixedPages s) hc hs
  | loaded hsel => rw [hsel]; exact normSel_legal hc _

theorem pageTableOk_withFixedPages {s : State} (hc : s.cfg.Valid) (hp : PageTableOk s.cfg s.pt) :
    PageTableOk s.cfg (withFixedPages s).pt :=
  pageTableOk_setPages (pageTableOk_setPages hp (fun _ => hotSpotPages_lt hc) (fun p _ => hsMap_ok s.cfg p))
    (fun _ => upperPages_lt hc) (fun _ => upperMap_ok hc)

theorem pageTableOk_republish {n : Nat} {s : State} (hc : s.cfg.Valid) (hp : PageTableOk s.cfg s.pt) :
    PageTableOk s.cfg (republish n s).pt :=
  pageTableOk_setPages hp (fun _ => lowerPages_lt hc) (fun _ => lowerMap_ok hc (normSel_legal hc n))

/-- Every command a word can carry keeps the page table well formed (R24-R28). -/
theorem exec_pageTableOk (hc : s.cfg.Valid) (hs : SelLegal s.cfg s.sel) (hp : PageTableOk s.cfg s.pt)
    (hi : i.WellFormed s.cfg) (h : exec i s = .next t) : PageTableOk t.cfg t.pt := by
  rw [exec_cfg h]
  cases exec_mappingForm h with
  | kept hsel hpt => rwa [hpt]
  | ptset hi' hd hsel hpt =>
    subst hi'
    rw [hpt]
    exact pageTableOk_setPage hp (of_decide_eq_true hi) (accepted_ok hd)
  | selected hsel hpt => rw [hpt]; exact (select_keeps hc hs hp).2
  | installed hsel hpt =>
    rw [hpt]
    exact (select_keeps (s := withFixedPages s) hc hs (pageTableOk_withFixedPages hc hp)).2
  | loaded hsel hpt => rw [hpt]; exact pageTableOk_republish hc hp

/-! ## The published mapping (R37, R38) -/

/-- Page `p` is as the cartridge publishes it. -/
def PublishedAt (p : Nat) (s : State) : Prop := s.page p = publishedFor s p

/-- Whether a page is published depends on the parameters, SEL and what the page reads as. -/
theorem publishedAt_of_same {p : Nat} {s t : State} (h : PublishedAt p s) (hc : t.cfg = s.cfg) (hs : t.sel = s.sel)
    (hp : t.page p = s.page p) : PublishedAt p t := by
  unfold PublishedAt publishedFor at *
  rwa [hc, hs, hp]

theorem page_of_pt {s t : State} (h : t.pt = s.pt) (p : Nat) : t.page p = s.page p := by rw [page_eq, page_eq, h]

/-- A new SEL with its lower window published keeps every published page published. -/
theorem publishedAt_republish {p : Nat} {s : State} (n : Nat) (h : PublishedAt p s) : PublishedAt p (republish n s) := by
  have hpage : (republish n s).page p = if p ∈ lowerPages s.cfg then lowerMap s.cfg (normSel s.cfg n).toNat p else s.page p :=
    publishLower_page _ _ p
  have hcfg : (republish n s).cfg = s.cfg := rfl
  have hsel : (republish n s).sel = normSel s.cfg n := rfl
  unfold PublishedAt publishedFor at *
  rw [hpage, hcfg, hsel]
  split
  · rfl
  · rename_i hlow
    rwa [if_neg hlow] at h

theorem publishedAt_select {p : Nat} {s : State} (n : Nat) (h : PublishedAt p s) : PublishedAt p (select n s) := by
  unfold select
  split
  · exact h
  · exact publishedAt_republish n h

/-- With the fixed pages installed, a page of the fixed slice or the hot-spot range reads its mapping, and others as before. -/
theorem withFixedPages_page (s : State) (p : Nat) :
    (withFixedPages s).page p =
      if p ∈ upperPages s.cfg then upperMap s.cfg p else if p ∈ hotSpotPages s.cfg then hsMap p else s.page p := by
  rw [page_eq, withFixedPages, pageOfTable_setPages, pageOfTable_setPages]
  rfl

theorem publishedAt_withFixedPages {p : Nat} {s : State} (hc : s.cfg.Valid) (h : PublishedAt p s) :
    PublishedAt p (withFixedPages s) := by
  have hpub : publishedFor (withFixedPages s) p = publishedFor s p := rfl
  unfold PublishedAt at *
  rw [withFixedPages_page, hpub]
  split
  · rename_i hup
    have hlow : p ∉ lowerPages s.cfg := fun hl => lower_not_upper hl hup
    rw [publishedFor, if_neg hlow, if_pos hup]
  · split
    · rename_i hup hhs
      have hlow : p ∉ lowerPages s.cfg := fun hl => lower_not_hotSpot hc hl hhs
      rw [publishedFor, if_neg hlow, if_neg hup]
    · exact h

/-- Every command but a PTSET of the page keeps a published page published (R38). -/
theorem exec_publishedAt {p : Nat} (hc : s.cfg.Valid) (hp : PublishedAt p s)
    (hi : ∀ page desc, i = .ptset page desc → page.toNat ≠ p) (h : exec i s = .next t) : PublishedAt p t := by
  cases exec_mappingForm h with
  | kept hsel hpt => exact publishedAt_of_same hp (exec_cfg h) hsel (page_of_pt hpt p)
  | ptset hi' hd hsel hpt =>
    refine publishedAt_of_same hp (exec_cfg h) hsel ?_
    rw [page_eq, hpt, pageOfTable_setPage, if_neg (hi _ _ hi').symm, ← page_eq]
  | selected hsel hpt =>
    exact publishedAt_of_same (publishedAt_select _ hp) (by simp [exec_cfg h]) hsel (page_of_pt hpt p)
  | installed hsel hpt =>
    have hcfg : t.cfg = (select s.startBank (withFixedPages s)).cfg := by rw [exec_cfg h, select_cfg]; rfl
    exact publishedAt_of_same (publishedAt_select _ (publishedAt_withFixedPages hc hp)) hcfg hsel (page_of_pt hpt p)
  | @loaded n hsel hpt =>
    have hcfg : t.cfg = (republish n s).cfg := by rw [exec_cfg h]; rfl
    exact publishedAt_of_same (publishedAt_republish n hp) hcfg hsel (page_of_pt hpt p)

/-- CINST with LOCKED = 0 publishes every page the cartridge claims (R114, R38). -/
theorem mapped_of_cinst (hc : s.cfg.Valid) (hl : s.locked = false) (h : exec .cinst s = .next t) : t.Mapped := by
  obtain rfl : (select s.startBank (withFixedPages s)).respond 0#16 [] = t := Host.Outcome.next.inj h
  have hcfg : (withFixedPages s).cfg = s.cfg := rfl
  have hlock : (withFixedPages s).locked = false := hl
  refine ⟨fun p hp => ?_, fun p hp => ?_, fun p hp => ?_⟩ <;>
    simp only [respond_cfg, respond_page, respond_sel, select_cfg, select_page, select_sel, hcfg, hlock, true_and] at hp ⊢
  · simp [hp]
  · have hlow : p ∉ lowerPages s.cfg := fun hl => lower_not_upper hl hp
    rw [if_neg hlow, withFixedPages_page, if_pos hp]
  · have hlow : p ∉ lowerPages s.cfg := fun hl => lower_not_hotSpot hc hl hp
    have hup : p ∉ upperPages s.cfg := fun hu => upper_not_hotSpot hc hu hp
    rw [if_neg hlow, withFixedPages_page, if_neg hup, if_pos hp]

/-! ## The invariant along a step -/

/-- Every well-formed command keeps the invariant. -/
theorem exec_inv (hs : s.Inv) (hi : i.WellFormed s.cfg) (h : exec i s = .next t) : t.Inv := by
  have hcfg := exec_cfg h
  obtain ⟨himage, hram⟩ := exec_buffersOk ⟨hs.image, hs.ram⟩ h
  exact ⟨hcfg ▸ hs.params, himage, hram, exec_selLegal hs.params hs.sel h,
    exec_pageTableOk hs.params hs.sel hs.pages hi h, exec_queueOk hs.queue h⟩

end Exec

/-- The invariant says nothing of what waits at the port. -/
theorem inv_withInbox {s : State} (h : s.Inv) (rest : List Arrival) : ({ s with inbox := rest } : State).Inv :=
  ⟨h.params, h.image, h.ram, h.sel, h.pages, queueOk_of_same h.queue rfl rfl rfl rfl⟩

theorem inv_reject {s : State} (h : s.Inv) (st : Status) : (s.reject st).Inv :=
  ⟨h.params, h.image, h.ram, h.sel, h.pages, queueOk_of_same h.queue rfl rfl rfl rfl⟩

/-- An opcode row that builds a PTSET has format P and takes the page from the address field (R72, R74). -/
theorem opRow_build_ptset {op : Nat} {row : OpRow} {r : Request} {p : BitVec 16} {d : Descriptor} (h : opRow op = some row)
    (hb : row.build r = .ptset p d) : row.format = .p ∧ p = addrField r.word := by
  unfold opRow at h
  split at h <;> cases h <;> cases hb
  exact ⟨rfl, rfl⟩

/-- What the decoder answers is well formed (R73, R85). -/
theorem decode_wellFormed {c : Config} {r : Request} {i : Instr} (h : decode c r = .ok i) : i.WellFormed c := by
  unfold decode at h
  split at h
  · cases h
  · rename_i row hrow
    split at h
    · cases h
    · split at h
      · cases h
      · rename_i hpage
        obtain hb := Except.ok.inj h
        cases i with
        | ptset p d =>
          obtain ⟨hformat, rfl⟩ := opRow_build_ptset hrow hb
          exact decide_eq_true (Nat.lt_of_not_le fun hle => hpage ⟨hformat, hle⟩)
        | _ => rfl

/-- A request that answers a next state keeps the invariant, rejected words too (R85, R140). -/
theorem runRequest_inv {s t : State} {r : Request} (hs : s.Inv) (h : runRequest r s = .next t) : t.Inv := by
  unfold runRequest at h
  split at h
  · rename_i i hdec
    exact exec_inv hs (decode_wellFormed hdec) h
  · obtain rfl := Host.Outcome.next.inj h
    exact inv_reject hs .illegal

/-- A step that answers a next state keeps the invariant. -/
theorem step_inv {s t : State} (hs : s.Inv) (h : step s = .next t) : t.Inv := by
  unfold step fetch at h
  cases hin : s.inbox with
  | nil =>
    rw [hin] at h
    exact Host.Outcome.next.inj h ▸ hs
  | cons a rest =>
    rw [hin] at h
    have hrest := inv_withInbox hs rest
    cases a with
    | teardown => exact Host.Outcome.next.inj h ▸ tearDown_inv hrest
    | nested r => cases h
    | command r =>
      simp only at h
      split at h
      · cases h
      · exact runRequest_inv hrest h

/-! ## The obligations -/

/-- Settles O11: a step is idle, a teardown, or a decoded command, and each keeps every part of the invariant. -/
theorem everyStepKeepsTheInvariant : Obligations.EveryStepKeepsTheInvariant := fun _ _ hs h => step_inv hs h

/-- Settles O14: a push, a delivery and a clear keep the queue invariants, and no other command touches the queue. -/
theorem queueInvariantsAreKept : Obligations.QueueInvariantsAreKept := by
  intro s t i hq h
  have hq' := exec_queueOk hq h
  exact ⟨hq'.indexExact, hq'.onePending, hq'.bucket_length_le⟩

/-- Settles O15: whatever changes SEL publishes the lower window for it, and CINST writes what the cartridge publishes. -/
theorem mappingInvariantIsKept : Obligations.MappingInvariantIsKept :=
  ⟨fun _ _ hc hl h => mapped_of_cinst hc hl h, fun _ _ _ _ hc _ hp hi h => exec_publishedAt hc hp hi h⟩

/-- Settles O13: every value written to SEL is a normal form, which is legal. -/
theorem selectorStaysLegal : Obligations.SelectorStaysLegal :=
  ⟨fun _ _ _ startBank hc => normSel_legal hc startBank, fun _ _ _ hc h hs => exec_selLegal hc hs h⟩

/-- Settles O41: none of the eleven is among the six commands that may store. -/
theorem commandsThatStoreNothingKeepEveryByte : Obligations.CommandsThatStoreNothingKeepEveryByte := by
  intro s t i h hi
  refine exec_sameBytes h ?_
  rcases hi with ⟨_, _, rfl⟩ | ⟨_, _, rfl⟩ | rfl | ⟨_, rfl⟩ | rfl | ⟨_, rfl⟩ | rfl | rfl | ⟨_, _, _, rfl⟩ | rfl | rfl <;>
    exact id

/-- Settles O42: a direct write goes through a reference that does not name IMAGE, and no other command but CPAT stores there. -/
theorem onlyPatchChangesTheImage : Obligations.OnlyPatchChangesTheImage := fun _ _ _ hp h hi j => exec_imageByte hp h hi j

/-- Settles O43: CLOCK writes LOCKED, and no command writes the other two. -/
theorem onlyClockWritesLocked : Obligations.OnlyClockWritesLocked := by
  intro s t i h
  refine ⟨exec_cfg h, exec_startBank h, ?_⟩
  obtain ⟨lk, rfl, hlk⟩ | ⟨hne, hkept⟩ := exec_locked h
  · exact ⟨fun _ heq => Instr.clock.inj heq ▸ hlk, fun hne => absurd rfl (hne lk)⟩
  · exact ⟨fun lk heq => absurd heq (hne lk), fun _ => hkept⟩

/-- Settles O44: the commands that select, patch, clear and keep CHANGED exclude each other. -/
theorem changedIsWrittenAsStated : Obligations.ChangedIsWrittenAsStated := by
  refine ⟨fun _ _ _ _ => rfl, fun s t i h => ?_⟩
  intro hit selects patches
  have hselects : selects ↔ s.locked = false ∧ RequestsSelection s i := and_congr_right' requestsSelection_iff.symm
  rw [hselects]
  cases exec_changedForm h with
  | selection hi hc =>
    refine ⟨?_, ?_, fun hno _ _ => ?_⟩
    · rintro (⟨hl, -⟩ | ⟨a, v, rfl⟩)
      · simp [hc, hl]
      · exact absurd hi (not_requestsSelection_cpat a v)
    · rintro rfl
      exact absurd hi not_requestsSelection_cclr
    · have hl : s.locked = true := by simpa [hi] using hno
      simp [hc, hl]
  | @patch a v hi hc => exact ⟨fun _ => hc, fun hclr => by simp [hi] at hclr, fun _ hno _ => absurd ⟨a, v, hi⟩ hno⟩
  | clear hi hc =>
    subst hi
    refine ⟨?_, fun _ => hc, fun _ _ hno => absurd rfl hno⟩
    rintro (⟨-, hsel⟩ | ⟨a, v, hpat⟩)
    · exact absurd hsel not_requestsSelection_cclr
    · cases hpat
  | kept hsel hpat hclr hc =>
    refine ⟨?_, fun h => absurd h hclr, fun _ _ _ => hc⟩
    rintro (⟨-, h⟩ | ⟨a, v, h⟩)
    · exact absurd h hsel
    · exact absurd h (hpat a v)

/-- Settles O45: QEXEC alone moves CURSOR, and a remainder modulo L is below L. -/
theorem onlyQexecMovesTheCursor : Obligations.OnlyQexecMovesTheCursor := by
  refine ⟨fun _ _ _ _ => rfl, fun s t i h => ?_⟩
  have hcur := exec_cursor h
  refine ⟨fun hi => by rw [hcur, if_pos hi], fun hi => by rw [hcur, if_neg hi], fun hlt => ?_⟩
  rw [hcur]
  split
  · exact Nat.mod_lt _ (Nat.zero_lt_of_lt hlt)
  · exact hlt

/-- Settles O50: the case split at 256; in the RAM case `256 + (n - 256) % 32` names the pair `n % 32`, as 32 divides 256. -/
theorem normalisationIsTotalAndLegal : Obligations.NormalisationIsTotalAndLegal := by
  intro c n hc
  have hlegal := normSel_legal hc n
  refine ⟨norm_rom, fun hn => by rw [norm, if_neg (by omega)], hlegal, normSel_toNat c n, fun hn => ?_, ?_⟩
  · have hpair : 256 + n % 32 - 256 = n % 32 := Nat.add_sub_cancel_left _ _
    rw [norm_ram hn]
    unfold ramBase
    rw [hpair]
  · unfold SelLegal at hlegal
    rw [normSel_toNat] at hlegal
    exact hlegal.imp_left And.left

end Sys2Proof.Machine

/-! The obligations of 20_memory.md: what a step makes of the oldest arrival (R61, R159), and the two ports of a RAM selection
(R67). -/

namespace Sys2Proof.Machine

/-! ## A step by the oldest arrival (R61, R159) -/

section Arrivals

variable {s : State} {r : Request} {rest : List Arrival}

/-- With nothing waiting a step changes nothing. -/
theorem step_empty (h : s.inbox = []) : step s = .next s := by simp [step, fetch, h]

theorem step_nested (h : s.inbox = .nested r :: rest) : step s = .refused .commandInProgress := by simp [step, fetch, h]

theorem step_teardown (h : s.inbox = .teardown :: rest) : step s = .next (tearDown { s with inbox := rest }) := by
  simp [step, fetch, h]

theorem step_command_live (h : s.inbox = .command r :: rest) (hlive : s.tornDown = false) :
    step s = runRequest r { s with inbox := rest } := by
  simp [step, fetch, h, hlive]

theorem step_command_tornDown (h : s.inbox = .command r :: rest) (hdead : s.tornDown = true) :
    step s = .refused .afterTeardown := by
  simp [step, fetch, h, hdead]

/-- A request whose word is decoded runs its command (R85). -/
theorem runRequest_decoded {i : Instr} (h : decode s.cfg r = .ok i) : runRequest r s = exec i s := by simp [runRequest, h]

/-- A destroyed block is idle or torn down once more: nothing else leads it to a next state (R159). -/
theorem step_tornDown_cases {t : State} (hdead : s.tornDown = true) (h : step s = .next t) :
    t = s ∨ ∃ rest, t = tearDown { s with inbox := rest } := by
  cases hin : s.inbox with
  | nil =>
    rw [step_empty hin] at h
    exact .inl (Host.Outcome.next.inj h).symm
  | cons a rest =>
    cases a with
    | command r => rw [step_command_tornDown hin hdead] at h; cases h
    | nested r => rw [step_nested hin] at h; cases h
    | teardown =>
      rw [step_teardown hin] at h
      exact .inr ⟨rest, (Host.Outcome.next.inj h).symm⟩

end Arrivals

/-- The arrival of a teardown changes only the inbox, the flag of the teardown, IMAGE and the pages (R159). -/
theorem tearDown_unchangedBut (s : State) (rest : List Arrival) :
    UnchangedBut [.inbox, .tornDown, .image, .pages] s (tearDown { s with inbox := rest }) := by
  intro p hp
  cases p with
  | inbox | tornDown | image | pages => simp at hp
  | ram => exact tearDown_bufByte_ram s
  | buckets => exact tearDown_bucket s
  | index => exact tearDown_slot s
  | _ => rfl

/-- After a teardown no page holds a direct reference (R159, R168). -/
theorem tearDown_noRefs (s : State) (p : Nat) : ((tearDown s).page p).rd = none ∧ ((tearDown s).page p).wr = none := by
  rw [tearDown_page]
  exact ⟨rfl, rfl⟩

/-! ## Bus accesses through a direct reference (R96, R97) -/

theorem exec_brd_direct {s : State} {a : Addr} {ref : DirectRef} (h : (s.page (pageOf s.cfg a)).rd = some ref)
    (hin : ref.base + inPage s.cfg a < bufSize s.cfg ref.buf) :
    exec (.brd a) s = .next (s.respond ((s.bufByte ref.buf (ref.base + inPage s.cfg a)).setWidth 16) []) := by
  simp only [exec, execBrd, h, bufRead_ok s hin]

theorem exec_bwr_direct {s : State} {a : Addr} {v : Byte} {ref : DirectRef} (h : (s.page (pageOf s.cfg a)).wr = some ref)
    (hin : ref.base + inPage s.cfg a < bufSize s.cfg ref.buf) :
    exec (.bwr a v) s = .next ((s.setBufByte ref.buf (ref.base + inPage s.cfg a) v).respond 1#16 []) := by
  simp only [exec, execBwr, h, bufWrite_ok s v hin]

/-! ## The ports of a RAM selection (R37, R67) -/

/-- An aligned bound at or below an address is at or below the base of its page. -/
theorem le_pageBase_of_dvd {c : Config} {a : Addr} {x : Nat} (hx : c.pageSize ∣ x) (h : x ≤ a.toNat) :
    x ≤ pageBase c (pageOf c a) := by
  obtain ⟨k, rfl⟩ := hx
  rw [pageBase, pageOf, Nat.mul_comm]
  exact Nat.mul_le_mul_right _ ((Nat.le_div_iff_mul_le (pageSize_pos c)).mpr (Nat.mul_comm _ k ▸ h))

/-- The addresses of the banked segment lie on the lower-window pages (R37). -/
theorem pageOf_mem_lowerPages {c : Config} (hc : c.Valid) {a : Addr} {o : Nat} (ha : a.toNat = c.windowBase + o)
    (ho : o < 0x800) : pageOf c a ∈ lowerPages c := by
  have hlow : c.windowBase ≤ pageBase c (pageOf c a) := le_pageBase_of_dvd (windowBase_dvd hc) (by omega)
  have hsum := pageBase_add_inPage c a
  exact mem_pagesIn.mpr ⟨hlow, by omega⟩

section Ports

variable {c : Config} {n i : Nat} {a : Addr}

/-- In a RAM selection the page of a read-port address holds a read reference that leads the address to its cell. -/
theorem lowerMap_readPort (hc : c.Valid) (hn : 256 ≤ n) (hi : i < 0x400) (ha : a.toNat = c.windowBase + i) :
    ∃ base, (lowerMap c n (pageOf c a)).rd = some ⟨.ram, base⟩ ∧ base + inPage c a = ramBase n + i := by
  have hlow : c.windowBase ≤ pageBase c (pageOf c a) := le_pageBase_of_dvd (windowBase_dvd hc) (by omega)
  have hsum := pageBase_add_inPage c a
  refine ⟨ramBase n + (pageBase c (pageOf c a) - c.windowBase), ?_, by omega⟩
  simp only [lowerMap]
  rw [if_neg (by omega), if_pos (by omega)]

/-- In a RAM selection the page of a write-port address holds a write reference that leads the address to its cell. -/
theorem lowerMap_writePort (hc : c.Valid) (hn : 256 ≤ n) (ha : a.toNat = c.windowBase + 0x400 + i) :
    ∃ base, (lowerMap c n (pageOf c a)).wr = some ⟨.ram, base⟩ ∧ base + inPage c a = ramBase n + i := by
  have hport : c.windowBase + 0x400 ≤ pageBase c (pageOf c a) :=
    le_pageBase_of_dvd (Nat.dvd_add (windowBase_dvd hc) (pageSize_dvd_kib hc)) (by omega)
  have hsum := pageBase_add_inPage c a
  refine ⟨ramBase n + (pageBase c (pageOf c a) - c.windowBase - 0x400), ?_, by omega⟩
  simp only [lowerMap]
  rw [if_neg (by omega), if_neg (by omega)]

end Ports

section RamSelection

variable {s : State} {i : Nat} {a : Addr} (hs : SelLegal s.cfg s.sel) (hram : 256 ≤ s.sel.toNat) (hi : i < 0x400)

include hs hram hi

/-- A cell of the selected bank-pair lies in RAM (R30, R35). -/
theorem selectedCell_inside : ramBase s.sel.toNat + i < bufSize s.cfg .ram := by
  rcases hs with ⟨hrom, -⟩ | ⟨-, hle⟩
  · omega
  · exact ramBase_inside hle hi

variable (hc : s.cfg.Valid) (hlower : ∀ p ∈ lowerPages s.cfg, s.page p = lowerMap s.cfg s.sel.toNat p)

include hc hlower

/-- A bus read of the read port answers the cell of the selected bank-pair (R67, R96). -/
theorem exec_brd_readPort (ha : a.toNat = s.cfg.windowBase + i) :
    exec (.brd a) s = .next (s.respond ((s.bufByte .ram (ramBase s.sel.toNat + i)).setWidth 16) []) := by
  obtain ⟨base, hrd, hcell⟩ := lowerMap_readPort hc hram hi ha
  rw [← hlower _ (pageOf_mem_lowerPages hc ha (by omega))] at hrd
  have hin := selectedCell_inside hs hram hi
  rw [← hcell] at hin ⊢
  exact exec_brd_direct hrd hin

/-- A bus write of the write port stores the byte in the cell of the selected bank-pair (R67, R97). -/
theorem exec_bwr_writePort (v : Byte) (ha : a.toNat = s.cfg.windowBase + 0x400 + i) :
    exec (.bwr a v) s = .next ((s.setBufByte .ram (ramBase s.sel.toNat + i) v).respond 1#16 []) := by
  obtain ⟨base, hwr, hcell⟩ := lowerMap_writePort hc hram ha
  rw [← hlower _ (pageOf_mem_lowerPages hc (ha.trans (Nat.add_assoc _ _ _)) (by omega))] at hwr
  have hin := selectedCell_inside hs hram hi
  rw [← hcell] at hin ⊢
  exact exec_bwr_direct hwr hin

end RamSelection

/-! ## The obligations -/

/-- Settles O54: both ports of the selected bank-pair lead to one RAM cell, and the write changes neither SEL nor a page. -/
theorem writePortIsReadAtTheReadPort : Obligations.WritePortIsReadAtTheReadPort := by
  intro s i data wAddr rAddr hinv hmapped hram hi hw hr
  have hwrite := exec_bwr_writePort hinv.sel hram hi hinv.params hmapped.lower data hw
  refine ⟨_, _, hwrite, exec_brd_readPort (i := i) hinv.sel hram hi hinv.params hmapped.lower hr, ?_⟩
  simp [Answered, setBufByte_bufByte_self]

/-- Settles O5: a live block hands the command to the decoder, and the decoded command to `exec`. -/
theorem stepRunsTheDecodedCommand : Obligations.StepRunsTheDecodedCommand := by
  intro s r rest i hin hlive hdec
  rw [step_command_live hin hlive]
  exact runRequest_decoded hdec

/-- Settles O7: one clause for each arrival, and in a destroyed block only the idle step and a further teardown. -/
theorem stepRefusesNestedAndLateCommands : Obligations.StepRefusesNestedAndLateCommands := by
  refine ⟨fun _ _ _ => step_nested, fun _ _ _ => step_command_tornDown, ?_, ?_, fun _ => step_empty⟩
  · intro s rest hin
    exact ⟨_, step_teardown hin, rfl, rfl, rfl, tearDown_bufByte_image _, tearDown_page _,
      tearDown_unchangedBut s rest⟩
  · intro s t hdead hrefs h
    rcases step_tornDown_cases hdead h with rfl | ⟨rest, rfl⟩
    · exact ⟨hdead, hrefs⟩
    · exact ⟨rfl, tearDown_noRefs _⟩

end Sys2Proof.Machine

/-! The obligations of 30_encoding.md: the encoder and the decoder undo each other (R72, R85), the decoder accepts what the opcode
table lists (R74, R82), and the pseudo-commands that select (R88). -/

namespace Sys2Proof

open Sys2Proof.Machine

/-! ## A word is its opcode, the operand fields of its format and the reserved bits (R71, R72) -/

/-- A word is its opcode and its low 24 bits. -/
theorem opField_append_low (w : Word) : (opField w ++ w.extractLsb' 0 24 : Word) = w :=
  BitVec.extractLsb'_append_extractLsb' (w := 8) (len := 24)

/-- A field that a mask covers is 0 in every word that is 0 under the mask. -/
theorem field_eq_zero_of_mask {w mask : Word} {s n : Nat} (h : w &&& mask = 0#32)
    (hmask : mask.extractLsb' s n = BitVec.allOnes n) : w.extractLsb' s n = 0#n := by
  have hfield : (w &&& mask).extractLsb' s n = (0#32).extractLsb' s n := congrArg _ h
  rw [BitVec.extractLsb'_and, hmask, BitVec.and_allOnes] at hfield
  simpa using hfield

/-- The low 24 bits of a word of the format that has the operand fields of `w`. -/
def Format.operands (w : Word) : Format → BitVec 24
  | .n => 0#24
  | .a => addrField w ++ 0#8
  | .ad => addrField w ++ lowField w
  | .p => addrField w ++ 0#8
  | .s => 0#15 ++ selField w
  | .k => 0#23 ++ BitVec.ofBool (lockField w)
  | .q => qaddrField w ++ (valueField w ++ lowField w : BitVec 16)

/-- With the reserved bits of a format 0, its operand fields are all there is below the opcode. -/
theorem Format.operands_eq_low {w : Word} {f : Format} (h : w &&& f.reserved = 0#32) : f.operands w = w.extractLsb' 0 24 := by
  have join {s m n : Nat} : w.extractLsb' (s + n) m ++ w.extractLsb' s n = w.extractLsb' s (m + n) :=
    BitVec.extractLsb'_append_extractLsb'_eq_extractLsb' rfl
  cases f with
  | n => exact (field_eq_zero_of_mask h rfl).symm
  | a | p =>
    rw [← join (s := 0) (m := 16) (n := 8), field_eq_zero_of_mask (s := 0) (n := 8) h rfl]
    rfl
  | ad => exact join
  | s =>
    rw [← join (s := 0) (m := 15) (n := 9), field_eq_zero_of_mask (s := 0 + 9) (n := 15) h rfl]
    rfl
  | k =>
    rw [← join (s := 0) (m := 23) (n := 1), field_eq_zero_of_mask (s := 0 + 1) (n := 23) h rfl]
    exact congrArg (0#23 ++ ·) BitVec.setWidth_one.symm
  | q =>
    rw [← join (s := 0) (m := 8) (n := 16), ← join (s := 0) (m := 8) (n := 8)]
    rfl

/-! ## The rows of the opcode map (R74) -/

/-- The row of a command's opcode makes the command again from its request, every operand as it was. -/
theorem opRow_encode (i : Instr) :
    (opRow (opField (encode i).word).toNat).map (fun row => row.build (encode i)) = some i := by
  cases i <;> simp [encode, opRow]

section Rows

variable {c : Config} {r : Request} {n : Nat} {row : OpRow} (h : opRow n = some row)

include h

/-- The command a row makes is encoded with the row's opcode and the word's own operand fields. -/
theorem encode_build_word (hop : opField r.word = BitVec.ofNat 8 n) :
    (encode (row.build r)).word = opField r.word ++ row.format.operands r.word := by
  unfold opRow at h
  split at h <;> cases h <;> simp [encode, hop, Format.operands, wordN, wordA, wordAD, wordS, wordK, wordQ]

/-- The side-band operand of a PTSET or a CLOAD is the request's (R76, R77). -/
theorem build_sideBand :
    (∀ page desc, row.build r = .ptset page desc → desc = r.desc) ∧
      (∀ stream, row.build r = .cload stream → stream = r.stream) := by
  unfold opRow at h
  split at h <;> cases h <;> simp

/-- Format P is that of PTSET alone. -/
theorem opRow_format_p_iff : row.format = .p ↔ n = 0x05 := by
  unfold opRow at h
  split at h <;> cases h <;> simp

/-- The page check of the decoder is the well-formedness of the command (R73, R85). -/
theorem build_wellFormed_iff : (row.build r).WellFormed c ↔ (row.format = .p → (addrField r.word).toNat < c.pageCount) := by
  unfold opRow at h
  split at h <;> cases h <;> simp [Instr.WellFormed, Instr.wellFormed]

end Rows

/-! ## What the decoder answers (R85) -/

/-- For an assigned opcode the decoder checks the reserved bits, then that the command is well formed. -/
theorem decode_of_opRow {c : Config} {r : Request} {row : OpRow} (h : opRow (opField r.word).toNat = some row) :
    decode c r =
      if r.word &&& row.format.reserved ≠ 0#32 then .error .reservedBit
      else if (row.build r).WellFormed c then .ok (row.build r) else .error .pageOutOfRange := by
  have hpage : row.format = .p ∧ c.pageCount ≤ (addrField r.word).toNat ↔ ¬ (row.build r).WellFormed c := by
    rw [build_wellFormed_iff h, Classical.not_imp, not_lt]
  simp only [decode, h, hpage, ite_not]

/-- The decoder answers the command of the opcode's row when the reserved bits are 0 and the command is well formed. -/
theorem decode_eq_ok_iff {c : Config} {r : Request} {i : Instr} :
    decode c r = .ok i ↔
      ∃ row, opRow (opField r.word).toNat = some row ∧ r.word &&& row.format.reserved = 0#32 ∧ row.build r = i ∧
        i.WellFormed c := by
  cases hrow : opRow (opField r.word).toNat with
  | none => simp [decode, hrow]
  | some row =>
    rw [decode_of_opRow hrow]
    simp only [Option.some.injEq, exists_eq_left']
    by_cases hres : r.word &&& row.format.reserved = 0#32
    · by_cases hwf : (row.build r).WellFormed c
      · rw [if_neg (not_not_intro hres), if_pos hwf, Except.ok.injEq]
        exact ⟨fun h => ⟨hres, h, h ▸ hwf⟩, fun h => h.2.1⟩
      · rw [if_neg (not_not_intro hres), if_neg hwf]
        exact iff_of_false nofun fun ⟨_, hbuild, hi⟩ => hwf (hbuild ▸ hi)
    · rw [if_pos hres]
      exact iff_of_false nofun fun h => hres h.1

/-- The decoder is total: a word it does not accept it rejects. -/
theorem decode_rejects_iff {c : Config} {r : Request} :
    (∃ e, decode c r = .error e) ↔ ¬ ∃ i, decode c r = .ok i := by
  cases decode c r <;> simp

/-! ## The rows of the opcode table as match and mask -/

/-- Two bit vectors cut at the same place are equal part by part. -/
theorem bitVec_append_inj {u v : Nat} {x a : BitVec u} {y b : BitVec v} : x ++ y = a ++ b ↔ x = a ∧ y = b := by
  refine ⟨fun h => ?_, fun ⟨hx, hy⟩ => hx ▸ hy ▸ rfl⟩
  have hhigh := congrArg (BitVec.extractLsb' v u) h
  have hlow := congrArg (BitVec.extractLsb' 0 v) h
  simp only [BitVec.extractLsb'_append_eq_left, BitVec.extractLsb'_append_eq_right] at hhigh hlow
  exact ⟨hhigh, hlow⟩

/-- The match and mask of an opcode with a format: the opcode, and every bit that is no operand's. -/
def tableRow (op : BitVec 8) (f : Format) : Word × Word := (op ++ 0#24, 0xFF000000#32 ||| f.reserved)

/-- A word matches the row exactly when it has the row's opcode and the reserved bits of the format are 0. -/
theorem matches_tableRow_iff {w : Word} {op : BitVec 8} {f : Format} :
    w &&& (tableRow op f).2 = (tableRow op f).1 ↔ opField w = op ∧ w &&& f.reserved = 0#32 := by
  obtain ⟨m, hres, hmask⟩ : ∃ m : BitVec 24, f.reserved = 0#8 ++ m ∧ (tableRow op f).2 = BitVec.allOnes 8 ++ m :=
    ⟨f.reserved.extractLsb' 0 24, by cases f <;> exact ⟨rfl, rfl⟩⟩
  have hand (h : BitVec 8) : w &&& (h ++ m) = (opField w &&& h) ++ (w.extractLsb' 0 24 &&& m) := by
    rw [← BitVec.and_append, opField_append_low]
  rw [hres, hmask, hand, hand, BitVec.and_allOnes, BitVec.and_zero]
  exact bitVec_append_inj.trans (and_congr_right' (BitVec.append_right_inj 0#8).symm)

/-- The table's list holds the rows of the opcode map, in the order of their opcodes (R74). -/
theorem tableRows_eq : tableRows =
    (List.range 0x12).filterMap fun n => (opRow n).map fun row => tableRow (BitVec.ofNat 8 n) row.format := rfl

/-- Opcodes 0x12 to 0xFF are reserved (R74). -/
theorem opRow_lt {n : Nat} {row : OpRow} (h : opRow n = some row) : n < 0x12 := by
  unfold opRow at h
  split at h <;> cases h <;> decide

/-- The rows of the table are those of the opcodes that have one. -/
theorem mem_tableRows_iff {p : Word × Word} :
    p ∈ tableRows ↔ ∃ n row, opRow n = some row ∧ tableRow (BitVec.ofNat 8 n) row.format = p := by
  simp only [tableRows_eq, List.mem_filterMap, List.mem_range, Option.map_eq_some_iff]
  exact ⟨fun ⟨n, _, hrow⟩ => ⟨n, hrow⟩, fun ⟨n, row, hrow, hp⟩ => ⟨n, opRow_lt hrow, row, hrow, hp⟩⟩

/-- A row of the table matches a word exactly when its opcode has a row in the opcode map and the reserved bits of the row's
format are 0 (R72, R74, R82). -/
theorem matchesRow_iff {w : Word} :
    MatchesRow w ↔ ∃ row, opRow (opField w).toNat = some row ∧ w &&& row.format.reserved = 0#32 := by
  constructor
  · rintro ⟨_, hp, hmatch⟩
    obtain ⟨n, row, hrow, rfl⟩ := mem_tableRows_iff.mp hp
    obtain ⟨hop, hres⟩ := matches_tableRow_iff.mp hmatch
    have hn : (opField w).toNat = n := by
      rw [hop, BitVec.toNat_ofNat]
      exact Nat.mod_eq_of_lt ((opRow_lt hrow).trans (by decide))
    exact ⟨row, hn ▸ hrow, hres⟩
  · rintro ⟨row, hrow, hres⟩
    exact ⟨_, mem_tableRows_iff.mpr ⟨_, row, hrow, rfl⟩, matches_tableRow_iff.mpr ⟨by simp, hres⟩⟩

/-- The word of every command is one a row of the table matches: an opcode of the table, its reserved bits 0. -/
theorem encode_matchesRow (i : Instr) : MatchesRow (encode i).word := by
  cases i with
  | brd addr => exact Laws.EncodedWord.brd addr
  | bwr addr data => exact Laws.EncodedWord.bwr addr data
  | crd addr => exact Laws.EncodedWord.crd addr
  | cwr addr data => exact Laws.EncodedWord.cwr addr data
  | ptset page desc => exact Laws.EncodedWord.ptset page desc
  | cinst => exact Laws.EncodedWord.cinst
  | crst => exact Laws.EncodedWord.crst
  | csel sel => exact Laws.EncodedWord.csel sel
  | cpat addr data => exact Laws.EncodedWord.cpat addr data
  | csave => exact Laws.EncodedWord.csave
  | cload stream => exact Laws.EncodedWord.cload stream
  | clock lk => exact Laws.EncodedWord.clock lk
  | cclr => exact Laws.EncodedWord.cclr
  | cstat => exact Laws.EncodedWord.cstat
  | qpush qaddr value delay => exact Laws.EncodedWord.qpush qaddr value delay
  | qexec => exact Laws.EncodedWord.qexec
  | qrst => exact Laws.EncodedWord.qrst

/-! ## The obligations on words -/

/-- Settles O2: the row of the command's opcode makes it again, and its word has the reserved bits 0. -/
theorem decodeOfEncodeIsTheCommand : Obligations.DecodeOfEncodeIsTheCommand := by
  intro c i hwf
  obtain ⟨row, hrow, hbuild⟩ := Option.map_eq_some_iff.mp (opRow_encode i)
  obtain ⟨row', hrow', hres⟩ := matchesRow_iff.mp (encode_matchesRow i)
  obtain rfl : row' = row := Option.some.inj (hrow'.symm.trans hrow)
  exact decode_eq_ok_iff.mpr ⟨row', hrow, hres, hbuild, hwf⟩

/-- Settles O3: with the reserved bits 0 the opcode and the operand fields are the whole word. -/
theorem encodeOfDecodeIsTheWord : Obligations.EncodeOfDecodeIsTheWord := by
  intro c r i hdec
  obtain ⟨row, hrow, hres, rfl, hwf⟩ := decode_eq_ok_iff.mp hdec
  refine ⟨?_, hwf, build_sideBand hrow⟩
  calc (encode (row.build r)).word
    _ = opField r.word ++ row.format.operands r.word := encode_build_word hrow (by simp)
    _ = opField r.word ++ r.word.extractLsb' 0 24 := by rw [Format.operands_eq_low hres]
    _ = r.word := opField_append_low r.word

/-- Settles O4: format P is that of opcode 5 alone, so the page check is the one of PTSET. -/
theorem decoderAcceptsExactlyTheTableRows : Obligations.DecoderAcceptsExactlyTheTableRows := by
  intro c r
  have hpage {row : OpRow} (hrow : opRow (opField r.word).toNat = some row) :
      (row.build r).WellFormed c ↔ (r.word.extractLsb' 24 8 = 0x05#8 → (r.word.extractLsb' 8 16).toNat < c.pageCount) := by
    rw [build_wellFormed_iff hrow, opRow_format_p_iff hrow, ← BitVec.toNat_inj]
    rfl
  simp only [decode_eq_ok_iff, matchesRow_iff]
  constructor
  · rintro ⟨_, row, hrow, hres, rfl, hwf⟩
    exact ⟨⟨row, hrow, hres⟩, (hpage hrow).mp hwf⟩
  · rintro ⟨⟨row, hrow, hres⟩, hbelow⟩
    exact ⟨_, row, hrow, hres, rfl, (hpage hrow).mpr hbelow⟩

/-- Settles O1: the decoder run on each word. -/
theorem decodesWordsWrittenFromTheSpec : Obligations.DecodesWordsWrittenFromTheSpec :=
  ⟨rfl, rfl, rfl, rfl, rfl, rfl, rfl, rfl, rfl, rfl, rfl⟩

end Sys2Proof

namespace Sys2Proof.Machine

/-! ## A rejected word (R82, R140) -/

/-- A request whose word is rejected answers ILLEGAL (R85, R140). -/
theorem runRequest_rejected {s : State} {r : Request} {e : DecodeError} (h : decode s.cfg r = .error e) :
    runRequest r s = .next (s.reject .illegal) := by
  simp [runRequest, h, illegalWord]

/-- A rejection changes only the faults recorded (R17). -/
theorem reject_unchangedBut (s : State) (st : Status) (rest : List Arrival) :
    UnchangedBut [.inbox, .faults] s (State.reject st { s with inbox := rest }) := by
  intro p hp
  cases p with
  | inbox | faults => simp at hp
  | image | ram | pages | buckets | index => exact fun _ => rfl
  | _ => rfl

/-- Settles O6: the decoder rejects what it does not accept, and a rejection gives a response and records the fault. -/
theorem unassignedWordAnswersIllegal : Obligations.UnassignedWordAnswersIllegal := by
  intro s r rest hin hlive
  refine ⟨?_, fun e hdec => ?_⟩
  · rw [decode_rejects_iff, decoderAcceptsExactlyTheTableRows, not_and_or, Classical.not_imp, not_lt]
  · have hstep := (step_command_live hin hlive).trans (runRequest_rejected hdec)
    exact ⟨_, hstep, rfl, reject_unchangedBut s .illegal rest, rfl, rfl⟩

/-! ## The pseudo-commands that select (R88) -/

/-- The hot-spot address of an offset is the lowest address from HS_BASE up that has the local offset. -/
theorem hsAddr_spec {c : Config} {o : Nat} (ho : o < 4096) :
    c.hsBase ≤ c.hsAddr o ∧ c.hsAddr o % 4096 = o ∧ ∀ a, c.hsBase ≤ a → a % 4096 = o → c.hsAddr o ≤ a := by
  unfold Config.hsAddr
  refine ⟨by omega, by omega, by omega⟩

/-- The addresses of the hot-spot range lie on the hot-spot pages (R37). -/
theorem pageOf_mem_hotSpotPages {c : Config} (hc : c.Valid) {a : Addr} (hlow : c.hsBase ≤ a.toNat)
    (hhigh : a.toNat < c.hsBase + c.hsSize) : pageOf c a ∈ hotSpotPages c := by
  obtain ⟨-, ⟨-, -, hbase, -⟩, -⟩ := hc
  have hstart := le_pageBase_of_dvd (Nat.dvd_of_mod_eq_zero hbase) hlow
  have hsum := pageBase_add_inPage c a
  exact mem_pagesIn.mpr ⟨hstart, by omega⟩

/-- A bus write to a fully indirect CART page is a cartridge write (R97). -/
theorem exec_bwr_hsMap {s : State} {a : Addr} (v : Byte) (h : s.page (pageOf s.cfg a) = hsMap (pageOf s.cfg a)) :
    exec (.bwr a v) s = .next (cartWrite a v s) := by
  simp only [exec, execBwr, h, hsMap]

/-- An unlocked selection is a successful one (R108). -/
theorem selected_select (n : Nat) {s : State} (hl : s.locked = false) : Selected n s (select n s) where
  sel := by simp [select_sel, hl]
  lower p hp := by rw [select_page, if_pos ⟨hl, hp⟩]
  others p hp := by rw [select_page, if_neg fun h => hp h.2]
  changed := by simp [select_changed, hl]

section PseudoSelect

variable {c : Config} {s : State} {o n : Nat} {v : Byte}

/-- The hot-spot addresses lie below the window, so on the 16-bit bus. -/
theorem toNat_hsAddr (hc : c.Valid) (ho : c.hsAddr o < c.hsBase + c.hsSize) :
    (BitVec.ofNat 16 (c.hsAddr o)).toNat = c.hsAddr o := by
  obtain ⟨-, -, ⟨-, hbus⟩, ⟨-, hbelow, -⟩, -⟩ := hc
  rw [BitVec.toNat_ofNat]
  exact Nat.mod_eq_of_lt (by omega)

/-- On the published mapping a bus write at the hot-spot address of an offset makes the selection of that offset and pokes the
chip (R88, R110). -/
theorem exec_bwr_hsAddr (hc : s.cfg.Valid) (hm : s.Mapped) (hl : s.locked = false) (ho : o < 4096)
    (hin : s.cfg.hsAddr o < s.cfg.hsBase + s.cfg.hsSize)
    (hsel : ∀ a, localOffset a = o → hotSpotSelect a v s = select n s) :
    ∃ t, exec (.bwr (BitVec.ofNat 16 (s.cfg.hsAddr o)) v) s = .next t ∧ Selected n s t ∧
      Answered t .ok 0#16 [.chipPoke (BitVec.ofNat 16 (s.cfg.hsAddr o)) v] := by
  obtain ⟨hlow, hoff, -⟩ := hsAddr_spec (c := s.cfg) ho
  have haddr := toNat_hsAddr hc hin
  have hpage := pageOf_mem_hotSpotPages hc (hlow.trans_eq haddr.symm) (haddr.trans_lt hin)
  refine ⟨_, exec_bwr_hsMap v (hm.hotSpot _ hpage), ?_, rfl⟩
  rw [cartWrite, hsel _ ((congrArg (· % 4096) haddr).trans hoff)]
  have hselected := selected_select n hl
  exact ⟨hselected.sel, hselected.lower, hselected.others, hselected.changed⟩

end PseudoSelect

/-- Settles O59: the hot-spot page is fully indirect, so the write reaches the cartridge, which compares the local offset. -/
theorem pseudoSelectReachesTheHotSpot : Obligations.PseudoSelectReachesTheHotSpot := by
  intro c v hc
  have ⟨_, _, _, ⟨_, _, hrom, hram, hne, hromIn, hramIn⟩, _⟩ := hc
  refine ⟨fun o ho => ?_, ?_⟩
  · have hlt : o < 4096 ∧ c.hsAddr o < c.hsBase + c.hsSize := by
      rcases ho with rfl | rfl
      · exact ⟨hrom, hromIn⟩
      · exact ⟨hram, hramIn⟩
    obtain ⟨hlow, hoff, hleast⟩ := hsAddr_spec (c := c) hlt.1
    exact ⟨hlow, hlt.2, hoff, hleast⟩
  · rintro s rfl hm hl
    refine ⟨exec_bwr_hsAddr hc hm hl hrom hromIn fun a ha => ?_, exec_bwr_hsAddr hc hm hl hram hramIn fun a ha => ?_⟩
    · rw [hotSpotSelect, if_pos ha]
    · rw [hotSpotSelect, if_neg (ha ▸ hne.symm), if_pos ha, ramRequest]

end Sys2Proof.Machine

/-! The obligations of 40_pagetable.md: what the bus commands do on each kind of page (R96-R98), which descriptors a PTSET installs
(R99), which command writes which page (R101), and that the direct references serve what the cartridge reads (R100). -/

namespace Sys2Proof.Machine

/-! ## What an update of one piece leaves unchanged -/

theorem unchanged_refl (s : State) (p : Piece) : Unchanged s s p := by
  cases p with
  | image | ram | pages | buckets | index => exact fun _ => rfl
  | _ => rfl

/-- A response is no piece of the state, so it changes none. -/
theorem unchangedBut_respond {named : List Piece} {s t : State} (data : BitVec 16) (events : List Event)
    (h : UnchangedBut named s t) : UnchangedBut named s (t.respond data events) := by
  intro p hp
  have hpiece := h p hp
  cases p <;> exact hpiece

/-- A rejection changes only the faults recorded (R17). -/
theorem unchangedBut_reject (s : State) (st : Status) : UnchangedBut [.faults] s (s.reject st) := by
  intro p hp
  by_cases hin : p = .inbox
  · subst hin
    rfl
  · exact reject_unchangedBut s st s.inbox p (by simp_all)

theorem unchangedBut_draws (s : State) (d : Draws) : UnchangedBut [.draws] s { s with draws := d } := by
  intro p hp
  have hsame := unchanged_refl s p
  cases p with
  | draws => simp at hp
  | _ => exact hsame

theorem unchangedBut_pt (s : State) (pt : Sparse Descriptor) : UnchangedBut [.pages] s { s with pt := pt } := by
  intro p hp
  have hsame := unchanged_refl s p
  cases p with
  | pages => simp at hp
  | _ => exact hsame

theorem unchangedBut_setBufByte (s : State) (b : Buf) (i : Nat) (v : Byte) :
    UnchangedBut [.image, .ram] s (s.setBufByte b i v) := by
  intro p hp
  have hsame := unchanged_refl s p
  cases p with
  | image | ram => simp at hp
  | _ => cases b <;> exact hsame

/-! ## Bus accesses without a direct reference (R96-R98) -/

section Indirect

variable {s : State} {a : Addr}

/-- A bus read of an indirect CART page is a cartridge read (R96). -/
theorem exec_brd_cart (hrd : (s.page (pageOf s.cfg a)).rd = none) (hdev : (s.page (pageOf s.cfg a)).dev = .cart) :
    exec (.brd a) s = exec (.crd a) s := by
  simp only [exec, execBrd, execCrd, hrd, hdev]

/-- A bus write of an indirect CART page is a cartridge write (R97). -/
theorem exec_bwr_cart (v : Byte) (hwr : (s.page (pageOf s.cfg a)).wr = none) (hdev : (s.page (pageOf s.cfg a)).dev = .cart) :
    exec (.bwr a v) s = exec (.cwr a v) s := by
  simp only [exec, execBwr, execCwr, hwr, hdev]

/-- A bus read of an indirect external page answers the draw of its device (R96, R102). -/
theorem exec_brd_ext {k : Nat} (hrd : (s.page (pageOf s.cfg a)).rd = none) (hdev : (s.page (pageOf s.cfg a)).dev = .ext k) :
    exec (.brd a) s =
      .next ((drawExtVal k a s).2.respond ((drawExtVal k a s).1.setWidth 16) [.extRead k a]) := by
  simp only [exec, execBrd, hrd, hdev]

/-- A bus write of an indirect external page answers the handled flag its device draws (R97, R102). -/
theorem exec_bwr_ext {k : Nat} (v : Byte) (hwr : (s.page (pageOf s.cfg a)).wr = none)
    (hdev : (s.page (pageOf s.cfg a)).dev = .ext k) :
    exec (.bwr a v) s =
      .next ((drawExtHandled k a v s).2.respond ((BitVec.ofBool (drawExtHandled k a v s).1).setWidth 16)
        [.extWrite k a v]) := by
  simp only [exec, execBwr, hwr, hdev]

theorem exec_brd_unmapped (hrd : (s.page (pageOf s.cfg a)).rd = none) (hdev : (s.page (pageOf s.cfg a)).dev = .none) :
    exec (.brd a) s = .next (s.reject .unmapped) := by
  simp only [exec, execBrd, hrd, hdev]

theorem exec_bwr_unmapped (v : Byte) (hwr : (s.page (pageOf s.cfg a)).wr = none)
    (hdev : (s.page (pageOf s.cfg a)).dev = .none) : exec (.bwr a v) s = .next (s.reject .unmapped) := by
  simp only [exec, execBwr, hwr, hdev]

end Indirect

/-- With a value set the draw takes the oldest one (R59). -/
theorem drawExtVal_of_set {s : State} {x : Byte} {xs : List Byte} (k : Nat) (a : Addr) (h : s.draws.extVal = x :: xs) :
    drawExtVal k a s = (x, { s with draws := { s.draws with extVal := xs } }) := by
  simp only [drawExtVal, h]

theorem drawExtHandled_of_set {s : State} {x : Bool} {xs : List Bool} (k : Nat) (a : Addr) (v : Byte)
    (h : s.draws.extHandled = x :: xs) :
    drawExtHandled k a v s = (x, { s with draws := { s.draws with extHandled := xs } }) := by
  simp only [drawExtHandled, h]

/-- A flag in the data field is 1 or 0 (R75). -/
theorem setWidth_ofBool (h : Bool) : (BitVec.ofBool h).setWidth 16 = if h then 1#16 else 0#16 := by
  cases h <;> rfl

/-! ## The obligations on bus accesses -/

/-- Settles O16: the byte is read inside its buffer. -/
theorem brdAnswersTheReferencedByte : Obligations.BrdAnswersTheReferencedByte := fun _ _ _ => exec_brd_direct

/-- Settles O17: the draw is the byte answered, and takes the oldest value set. -/
theorem brdAsksTheExternalDevice : Obligations.BrdAsksTheExternalDevice := by
  intro s a k hrd hdev
  refine ⟨_, _, exec_brd_ext hrd hdev, rfl, fun x xs hset => ?_, unchangedBut_respond _ _ ?_⟩
  · rw [respond_draws, drawExtVal_of_set k a hset]
    exact ⟨rfl, rfl⟩
  · rw [drawExtVal_state]
    exact unchangedBut_draws s _

/-- Settles O18: without a reference the device decides, and CART runs the cartridge's handler. -/
theorem busAccessToACartridgePageRunsItsHandler : Obligations.BusAccessToACartridgePageRunsItsHandler :=
  ⟨fun _ _ => exec_brd_cart, fun _ _ => exec_bwr_cart⟩

/-- Settles O19: both accesses are rejected with UNMAPPED, and a rejection records its fault. -/
theorem unmappedAccessAnswersUnmapped : Obligations.UnmappedAccessAnswersUnmapped :=
  ⟨fun s _ hrd hdev => ⟨_, exec_brd_unmapped hrd hdev, rfl, unchangedBut_reject s _, rfl⟩,
    fun s _ v hwr hdev => ⟨_, exec_bwr_unmapped v hwr hdev, rfl, unchangedBut_reject s _, rfl⟩⟩

/-- Settles O20: one byte is written, inside its buffer. -/
theorem bwrStoresThroughTheReference : Obligations.BwrStoresThroughTheReference := by
  intro s a v ref hwr hin
  refine ⟨_, exec_bwr_direct hwr hin, rfl, ?_, ?_, unchangedBut_respond _ _ (unchangedBut_setBufByte s _ _ _)⟩
  · rw [respond_bufByte, setBufByte_bufByte_self]
  · intro b i hother
    rw [respond_bufByte]
    exact setBufByte_sameBytesBut s _ _ v b i hother

/-- Settles O21: the draw is the flag answered, and takes the oldest value set. -/
theorem bwrAsksTheExternalDevice : Obligations.BwrAsksTheExternalDevice := by
  intro s a v k hwr hdev
  have hexec := exec_bwr_ext v hwr hdev
  rw [setWidth_ofBool] at hexec
  refine ⟨_, _, hexec, rfl, fun x xs hset => ?_, unchangedBut_respond _ _ ?_⟩
  · rw [respond_draws, drawExtHandled_of_set k a v hset]
    exact ⟨rfl, rfl⟩
  · rw [drawExtHandled_state]
    exact unchangedBut_draws s _

/-! ## The descriptors a PTSET installs (R99) -/

theorem refLeavesBuffer_iff {c : Config} {o : Option DirectRef} :
    refLeavesBuffer c o = true ↔ ∃ r, o = some r ∧ bufSize c r.buf < r.base + c.pageSize := by
  cases o <;> simp [refLeavesBuffer]

theorem refIntoImage_iff {o : Option DirectRef} : refIntoImage o = true ↔ ∃ r, o = some r ∧ r.buf = .image := by
  rcases o with _ | ⟨_ | _, base⟩ <;> simp [refIntoImage]

/-- The three checks of PTSET, each as R99 words it. -/
theorem descriptorIllFormed_iff {c : Config} {d : Descriptor} :
    descriptorIllFormed c d = true ↔
      (d.dev = .none ∧ (d.rd ≠ none ∨ d.wr ≠ none)) ∨
        (∃ r, (d.rd = some r ∨ d.wr = some r) ∧ bufSize c r.buf < r.base + c.pageSize) ∨
        ∃ r, d.wr = some r ∧ r.buf = .image := by
  simp only [descriptorIllFormed, Bool.or_eq_true, Bool.and_eq_true, decide_eq_true_eq, refLeavesBuffer_iff,
    refIntoImage_iff, Option.isSome_iff_ne_none, or_and_right, exists_or, or_assoc]

theorem exec_ptset_illFormed {s : State} {d : Descriptor} (q : BitVec 16) (h : descriptorIllFormed s.cfg d = true) :
    exec (.ptset q d) s = .next (s.reject .illegal) := by
  simp only [exec, execPtset, h, ↓reduceIte]

theorem exec_ptset_accepted {s : State} {d : Descriptor} (q : BitVec 16) (h : ¬ descriptorIllFormed s.cfg d = true) :
    exec (.ptset q d) s = .next ({ s with pt := setPage q.toNat d s.pt }.respond 0#16 []) := by
  simp only [exec, execPtset, h, Bool.false_eq_true, ↓reduceIte]

/-- After a PTSET its page reads the descriptor and every other page as before (R99). -/
theorem ptset_page (s : State) (q : Nat) (d : Descriptor) (p : Nat) :
    ({ s with pt := setPage q d s.pt } : State).page p = if p = q then d else s.page p :=
  pageOfTable_setPage s.pt q p d

/-- Settles O22: a descriptor that passes the three checks is not ill-formed. -/
theorem ptsetInstallsTheDescriptor : Obligations.PtsetInstallsTheDescriptor := by
  intro s q d howned hinside himage
  have hok : ¬ descriptorIllFormed s.cfg d = true := by
    rw [descriptorIllFormed_iff]
    rintro (⟨hdev, href⟩ | ⟨r, hr, hout⟩ | ⟨r, hr, hbuf⟩)
    · obtain ⟨hrd, hwr⟩ := howned hdev
      exact href.elim (· hrd) (· hwr)
    · exact Nat.not_lt.mpr (hinside r hr) hout
    · exact himage r hr hbuf
  refine ⟨_, exec_ptset_accepted q hok, rfl, ?_, fun p hp => ?_, unchangedBut_respond _ _ (unchangedBut_pt s _)⟩
  · rw [respond_page, ptset_page, if_pos rfl]
  · rw [respond_page, ptset_page, if_neg hp]

/-- Settles O23: each of the three causes makes the descriptor ill-formed. -/
theorem ptsetRejectsIllFormedDescriptors : Obligations.PtsetRejectsIllFormedDescriptors := fun s q _ hill =>
  ⟨_, exec_ptset_illFormed q (descriptorIllFormed_iff.mpr hill), rfl, unchangedBut_reject s _⟩

/-! ## Claim locality (R101) -/

/-- A page that a selection changes is of the lower window, and LOCKED is 0 (R108). -/
theorem select_page_changed {n p : Nat} {s : State} (h : (select n s).page p ≠ s.page p) :
    p ∈ lowerPages s.cfg ∧ s.locked = false := by
  by_contra hno
  exact h (by rw [select_page, if_neg (mt And.symm hno)])

/-- A page that publishing the lower window changes is of the lower window (R37). -/
theorem publishLower_page_changed {n : BitVec 9} {p : Nat} {s : State} (h : (s.publishLower n).page p ≠ s.page p) :
    p ∈ lowerPages s.cfg := by
  by_contra hno
  exact h (by rw [publishLower_page, if_neg hno])

/-- A page that installing the fixed pages changes is a hot-spot page or of the fixed slice (R114). -/
theorem withFixedPages_page_changed {p : Nat} {s : State} (h : (withFixedPages s).page p ≠ s.page p) :
    p ∈ hotSpotPages s.cfg ∨ p ∈ upperPages s.cfg := by
  by_contra hno
  obtain ⟨hhs, hup⟩ := not_or.mp hno
  exact h (by rw [withFixedPages_page, if_neg hup, if_neg hhs])

/-- Settles O46: only a PTSET, the fixed pages of a CINST, a selection and a CLOAD touch the page table. -/
theorem pagesAreWrittenOnlyByTheirClaim : Obligations.PagesAreWrittenOnlyByTheirClaim := by
  intro s t i h p hp
  cases exec_form h with
  | quiet hq =>
    obtain ⟨r, f, d, rfl⟩ := hq
    exact absurd rfl hp
  | @ptset q d =>
    refine .inl ⟨q, d, rfl, ?_⟩
    by_contra hne
    exact hp ((ptset_page s _ d p).trans (if_neg hne))
  | cinst =>
    by_cases hfix : (withFixedPages s).page p = s.page p
    · obtain ⟨hlow, hl⟩ := select_page_changed (s := withFixedPages s) fun hsel => hp (hsel.trans hfix)
      exact .inr (.inr (.inr ⟨hlow, hl, .inl rfl⟩))
    · exact .inr (.inl ⟨rfl, withFixedPages_page_changed hfix⟩)
  | hotSpot n hi ha =>
    obtain ⟨hlow, hl⟩ := select_page_changed hp
    exact .inr (.inr (.inr ⟨hlow, hl, .inr (.inr (.inr ⟨_, _, ha, hi⟩))⟩))
  | crst =>
    obtain ⟨hlow, hl⟩ := select_page_changed (s := drawRamFill s) hp
    exact .inr (.inr (.inr ⟨hlow, hl, .inr (.inl rfl)⟩))
  | csel =>
    obtain ⟨hlow, hl⟩ := select_page_changed hp
    exact .inr (.inr (.inr ⟨hlow, hl, .inr (.inr (.inl ⟨_, rfl⟩))⟩))
  | @loaded stream n =>
    exact .inr (.inr (.inl ⟨publishLower_page_changed (n := normSel s.cfg n) hp, stream, rfl⟩))
  | @loadedPartly stream =>
    exact .inr (.inr (.inl ⟨publishLower_page_changed (n := normSel s.cfg (drawPartial s).1) hp, stream, rfl⟩))
  | _ => exact absurd (page_of_pt (by simp) p) hp

/-! ## The fast path (R100) -/

/-- A cartridge read of a cell answers the byte there and changes nothing (R105). -/
theorem exec_crd_cell {s : State} {a : Addr} {b : Buf} {i : Nat}
    (h : shownAt s.cfg s.sel.toNat (localOffset a) = .cell b i) (hi : i < bufSize s.cfg b) :
    exec (.crd a) s = .next (s.respond ((s.bufByte b i).setWidth 16) []) := by
  simp only [exec, execCrd, cartReadResponse, cartRead_cell h hi, settle]

section Published

variable {c : Config} {n : Nat} {a : Addr} {ref : DirectRef} (hc : c.Valid)

include hc

/-- The local offset of an address in the window is its distance from WINDOW_BASE (R11, R104). -/
theorem localOffset_of_window {o : Nat} (ho : o < 4096) (ha : a.toNat = c.windowBase + o) : localOffset a = o := by
  obtain ⟨-, -, ⟨hwin, -⟩, -⟩ := hc
  unfold localOffset
  omega

/-- On a page inside the window the local offset is the offset of the page and the place in it. -/
theorem localOffset_of_page (hlow : c.windowBase ≤ pageBase c (pageOf c a))
    (hfit : pageBase c (pageOf c a) - c.windowBase + c.pageSize ≤ 4096) :
    localOffset a = pageBase c (pageOf c a) - c.windowBase + inPage c a := by
  have hin := inPage_lt c a
  have hsum := pageBase_add_inPage c a
  exact localOffset_of_window hc (by omega) (by omega)

/-- A fixed-slice page ends inside the fixed slice. -/
theorem upper_offset {p : Nat} (hp : p ∈ upperPages c) : pageBase c p - c.windowBase - 0x800 + c.pageSize ≤ 0x800 := by
  have hmem := mem_pagesIn.mp hp
  have hd : c.pageSize ∣ pageBase c p - c.windowBase - 0x800 :=
    Nat.dvd_sub (Nat.dvd_sub (Nat.dvd_mul_left _ _) (windowBase_dvd hc)) (pageSize_dvd_slice hc)
  exact aligned_page_fits hd (pageSize_dvd_slice hc) (by omega)

/-- A published read reference of a lower-window page leads each address to what its offset shows (R100). -/
theorem lowerMap_rd_shown (hp : pageOf c a ∈ lowerPages c) (h : (lowerMap c n (pageOf c a)).rd = some ref) :
    shownAt c n (localOffset a) = .cell ref.buf (ref.base + inPage c a) := by
  obtain ⟨hd, hfit⟩ := lower_offset hc hp
  have hin := inPage_lt c a
  rw [localOffset_of_page hc (mem_pagesIn.mp hp).1 (by omega)]
  simp only [lowerMap] at h
  split at h
  · rename_i hrom
    obtain rfl := Option.some.inj h
    rw [shownAt_rom c (by omega) hrom, Nat.mod_eq_of_lt (by omega), Nat.add_assoc]
  · split at h
    · rename_i hram hport
      have hkib := aligned_page_fits hd (pageSize_dvd_kib hc) hport
      obtain rfl := Option.some.inj h
      rw [shownAt_readPort c (by omega) (by omega), Nat.mod_eq_of_lt (by omega), Nat.add_assoc]
    · cases h

/-- The published read reference of a fixed-slice page leads each address to what its offset shows (R100). -/
theorem upperMap_rd_shown (hp : pageOf c a ∈ upperPages c) (h : (upperMap c (pageOf c a)).rd = some ref) :
    shownAt c n (localOffset a) = .cell ref.buf (ref.base + inPage c a) := by
  have hlow := (mem_pagesIn.mp hp).1
  have hfit := upper_offset hc hp
  have hin := inPage_lt c a
  obtain rfl := Option.some.inj h
  have hcell : fixedBase c + (pageBase c (pageOf c a) - c.windowBase + inPage c a) % 0x800 =
      fixedBase c + (pageBase c (pageOf c a) - c.windowBase - 0x800) + inPage c a := by omega
  rw [localOffset_of_page hc (by omega) (by omega), shownAt_fixed c n (by omega), hcell]

/-- A published write reference leads each address to the cell its mirrored read-port offset shows (R100). -/
theorem lowerMap_wr_shown {m : Addr} (hp : pageOf c a ∈ lowerPages c) (h : (lowerMap c n (pageOf c a)).wr = some ref)
    (hm : m.toNat + 0x400 = a.toNat) : shownAt c n (localOffset m) = .cell ref.buf (ref.base + inPage c a) := by
  have hlow := (mem_pagesIn.mp hp).1
  obtain ⟨-, hfit⟩ := lower_offset hc hp
  have hin := inPage_lt c a
  have hsum := pageBase_add_inPage c a
  simp only [lowerMap] at h
  split at h
  · cases h
  · split at h
    · cases h
    · rename_i hram hport
      obtain rfl := Option.some.inj h
      have hoff : localOffset m = pageBase c (pageOf c a) - c.windowBase - 0x400 + inPage c a :=
        localOffset_of_window hc (by omega) (by omega)
      rw [hoff, shownAt_readPort c (by omega) (by omega), Nat.mod_eq_of_lt (by omega), Nat.add_assoc]

end Published

/-- Under legal parameters and a legal SEL a cell that an offset shows lies in its buffer (R30, R35). -/
theorem shownCell_inside {c : Config} {sel : BitVec 9} {off i : Nat} {b : Buf} (hc : c.Valid) (hs : SelLegal c sel)
    (h : shownAt c sel.toNat off = .cell b i) : i < bufSize c b := by
  have hin := shownAt_inside hc hs off
  rw [h] at hin
  exact hin

/-- Settles O51: a published reference leads to the cell the offset shows, which is the cell the read handler reads. -/
theorem fastPathEqualsTheHandler : Obligations.FastPathEqualsTheHandler := by
  intro s hc hs
  refine ⟨fun a ref hpub => ?_, fun a m ref v t hp hwr hpage hm hexec => ?_⟩
  · have hshown : shownAt s.cfg s.sel.toNat (localOffset a) = .cell ref.buf (ref.base + inPage s.cfg a) := by
      rcases hpub with ⟨hp, hrd⟩ | ⟨hp, hrd⟩
      · exact lowerMap_rd_shown hc hp hrd
      · exact upperMap_rd_shown hc hp hrd
    exact exec_crd_cell hshown (shownCell_inside hc hs hshown)
  · have hshown := lowerMap_wr_shown hc hp hwr hm
    have hin := shownCell_inside hc hs hshown
    rw [← hpage] at hwr
    rw [exec_bwr_direct hwr hin] at hexec
    obtain rfl := Host.Outcome.next.inj hexec
    refine ⟨_, exec_crd_cell (b := ref.buf) (i := ref.base + inPage s.cfg a) ?_ ?_, ?_⟩
    · simpa using hshown
    · simpa using hin
    · simp [Answered]

end Sys2Proof.Machine

/-! The obligations of 41_cartridge.md: what the cartridge's commands do (R105-R127), and what a selection, a patch and a saved
state mean for a later read (R109, R119). -/

namespace Sys2Proof.Machine

/-! ## Composing what is unchanged -/

theorem Unchanged.trans {s t u : State} {p : Piece} (h₁ : Unchanged s t p) (h₂ : Unchanged t u p) : Unchanged s u p := by
  cases p with
  | image | ram | pages | buckets | index => exact fun x => (h₂ x).trans (h₁ x)
  | _ => exact Eq.trans h₂ h₁

theorem UnchangedBut.mono {named more : List Piece} {s t : State} (h : UnchangedBut named s t) (hsub : named ⊆ more) :
    UnchangedBut more s t := fun p hp => h p fun hin => hp (hsub hin)

theorem UnchangedBut.trans {first second : List Piece} {s t u : State} (h₁ : UnchangedBut first s t)
    (h₂ : UnchangedBut second t u) : UnchangedBut (first ++ second) s u := by
  intro p hp
  obtain ⟨hp₁, hp₂⟩ := not_or.mp (mt List.mem_append.mpr hp)
  exact (h₁ p hp₁).trans (h₂ p hp₂)

theorem unchangedBut_refl (named : List Piece) (s : State) : UnchangedBut named s s := fun p _ => unchanged_refl s p

/-- Whatever the response, it is no piece of the state. -/
theorem unchangedBut_response {named : List Piece} {s t : State} (r : Option Response) (h : UnchangedBut named s t) :
    UnchangedBut named s { t with response := r } := by
  intro p hp
  have hpiece := h p hp
  cases p <;> exact hpiece

theorem unchangedBut_ram (s : State) (m : Memory) (fills : Nat) :
    UnchangedBut [.ram] s { s with ram := m, ramFill := fills } := by
  intro p hp
  have hsame := unchanged_refl s p
  cases p with
  | ram => simp at hp
  | _ => exact hsame

theorem unchangedBut_sel (s : State) (sel : BitVec 9) : UnchangedBut [.sel] s { s with sel := sel } := by
  intro p hp
  have hsame := unchanged_refl s p
  cases p with
  | sel => simp at hp
  | _ => exact hsame

theorem unchangedBut_faults (s : State) (f : List CommandFault) : UnchangedBut [.faults] s { s with faults := f } := by
  intro p hp
  have hsame := unchanged_refl s p
  cases p with
  | faults => simp at hp
  | _ => exact hsame

theorem unchangedBut_markChanged (s : State) : UnchangedBut [.changed] s s.markChanged := by
  intro p hp
  have hsame := unchanged_refl s p
  cases p with
  | changed => simp at hp
  | _ => exact hsame

theorem unchangedBut_republish (n : Nat) (s : State) : UnchangedBut [.sel, .pages] s (republish n s) :=
  (unchangedBut_sel s _).trans (unchangedBut_pt _ _)

theorem unchangedBut_select (n : Nat) (s : State) : UnchangedBut [.sel, .pages, .changed] s (select n s) := by
  unfold select
  split
  · exact unchangedBut_refl _ s
  · exact (unchangedBut_republish n s).trans (unchangedBut_markChanged _)

theorem unchangedBut_drawRamFill (s : State) : UnchangedBut [.ram, .draws] s (drawRamFill s) :=
  (unchangedBut_ram s _ _).trans (unchangedBut_draws _ _)

theorem unchangedBut_drawPartial (s : State) : UnchangedBut [.ram, .draws] s (drawPartial s).2 :=
  (unchangedBut_ram s _ _).trans (unchangedBut_draws _ _)

/-! ## The read handler (R105, R106) -/

/-- The commands that run the read handler do what CRD does (R96, R105). -/
theorem exec_eq_crd {s : State} {i : Instr} {a : Addr}
    (h : i = .crd a ∨ (i = .brd a ∧ (s.page (pageOf s.cfg a)).rd = none ∧ (s.page (pageOf s.cfg a)).dev = .cart)) :
    exec i s = exec (.crd a) s := by
  rcases h with rfl | ⟨rfl, hrd, hdev⟩
  · rfl
  · exact exec_brd_cart hrd hdev

/-- A locked write-port read answers the floating-bus draw and stores nothing (R106). -/
theorem exec_crd_writePort_locked {s : State} {a : Addr} {i : Nat}
    (h : shownAt s.cfg s.sel.toNat (localOffset a) = .writePort i) (hl : s.locked = true) :
    exec (.crd a) s = .next ((drawFloatingBus s).2.respond ((drawFloatingBus s).1.setWidth 16) []) := by
  simp only [exec, execCrd, cartReadResponse, cartRead_writePort_locked h hl, settle]

/-- An unlocked write-port read answers the floating-bus draw and stores it in the cell behind the port (R106). -/
theorem exec_crd_writePort_unlocked {s : State} {a : Addr} {i : Nat}
    (h : shownAt s.cfg s.sel.toNat (localOffset a) = .writePort i) (hl : s.locked = false) (hi : i < ramSize) :
    exec (.crd a) s = .next (((drawFloatingBus s).2.setBufByte .ram i (drawFloatingBus s).1).respond
      ((drawFloatingBus s).1.setWidth 16) []) := by
  simp only [exec, execCrd, cartReadResponse, cartRead_writePort_unlocked h hl hi, settle]

/-- Under legal parameters and a legal SEL the cell behind the write port lies in RAM (R30, R35). -/
theorem writePort_inside {c : Config} {sel : BitVec 9} {off i : Nat} (hc : c.Valid) (hs : SelLegal c sel)
    (h : shownAt c sel.toNat off = .writePort i) : i < ramSize := by
  have hin := shownAt_inside hc hs off
  rw [h] at hin
  exact hin

/-- Only the upper kibibyte of the banked segment in a RAM selection shows the write port (R105). -/
theorem shownAt_eq_writePort {c : Config} {sel off i : Nat} (h : shownAt c sel off = .writePort i) :
    256 ≤ sel ∧ 0x400 ≤ off ∧ off < 0x800 := by
  unfold shownAt at h
  split at h
  · split at h
    · cases h
    · split at h
      · cases h
      · omega
  · cases h

/-- With a value set the floating bus holds the oldest one (R59). -/
theorem drawFloatingBus_of_set {s : State} {x : Byte} {xs : List Byte} (h : s.draws.fb = x :: xs) :
    drawFloatingBus s = (x, { s with draws := { s.draws with fb := xs } }) := by
  simp only [drawFloatingBus, h]

theorem unchangedBut_drawFloatingBus (s : State) : UnchangedBut [.draws] s (drawFloatingBus s).2 := by
  rw [drawFloatingBus_state]
  exact unchangedBut_draws s _

/-- Settles O24: each clause's offset shows one cell, which lies in its buffer. -/
theorem crdAnswersTheByteShown : Obligations.CrdAnswersTheByteShown := by
  intro s a hc hs off answer
  have hcell : ∀ {b i}, shownAt s.cfg s.sel.toNat off = .cell b i → exec (.crd a) s = .next (answer (s.bufByte b i)) :=
    fun h => exec_crd_cell h (shownCell_inside hc hs h)
  refine ⟨fun ho hrom => hcell ?_, fun ho hram => hcell ?_, fun ho => hcell ?_⟩
  · rw [shownAt_rom _ ho hrom, Nat.mod_eq_of_lt ho]
    rfl
  · rw [shownAt_readPort _ ho hram, Nat.mod_eq_of_lt ho]
    unfold ramBase
    rfl
  · have hslice : off % 0x800 = off - 0x800 := by omega
    rw [shownAt_fixed _ _ ho, hslice]
    unfold fixedBase
    rfl

/-- Settles O25: BRD reaches the same handler as CRD, the draw is the byte answered, and only an unlocked read stores it. -/
theorem writePortReadLatchesTheFloatingBus : Obligations.WritePortReadLatchesTheFloatingBus := by
  intro s a i hc hs hi hram hlow hhigh
  have hshown : shownAt s.cfg s.sel.toNat (localOffset a) =
      .writePort ((s.sel.toNat - 256) * 1024 + (a.toNat % 4096 - 0x400)) := by
    have hport : localOffset a % 0x400 = a.toNat % 4096 - 0x400 := by
      unfold localOffset
      omega
    rw [shownAt_writePort (off := localOffset a) _ hlow hhigh hram, hport]
    unfold ramBase
    rfl
  rw [exec_eq_crd hi]
  cases hl : s.locked with
  | true =>
    refine ⟨_, _, exec_crd_writePort_locked hshown hl, rfl, fun x xs hset => ?_, nofun, fun _ b j => by simp,
      unchangedBut_respond _ _ ((unchangedBut_drawFloatingBus s).mono (by simp))⟩
    rw [respond_draws, drawFloatingBus_of_set hset]
    exact ⟨rfl, rfl⟩
  | false =>
    refine ⟨_, _, exec_crd_writePort_unlocked hshown hl (writePort_inside hc hs hshown), rfl, fun x xs hset => ?_,
      fun _ => ⟨by simp, fun b j hother => ?_⟩, nofun, unchangedBut_respond _ _ ?_⟩
    · rw [respond_draws, setBufByte_draws, drawFloatingBus_of_set hset]
      exact ⟨rfl, rfl⟩
    · rw [respond_bufByte, setBufByte_sameBytesBut _ _ _ _ b j hother, drawFloatingBus_bufByte]
    · exact ((unchangedBut_drawFloatingBus s).trans (unchangedBut_ram _ _ _)).mono (by simp)

/-! ## Selection (R107, R108) -/

/-- What a selection did is not seen in the response. -/
theorem Selected.respond {n : Nat} {s t : State} (h : Selected n s t) (data : BitVec 16) (events : List Event) :
    Selected n s (t.respond data events) := ⟨h.sel, h.lower, h.others, h.changed⟩

/-- `Select(n)` does what R108 says of it. -/
theorem selectRan_select (n : Nat) (s : State) : SelectRan n s (select n s) := by
  refine ⟨selected_select n, fun hl p _ => ?_⟩
  rw [select_locked hl]
  exact unchanged_refl s p

theorem SelectRan.respond {n : Nat} {s t : State} (h : SelectRan n s t) (data : BitVec 16) (events : List Event) :
    SelectRan n s (t.respond data events) := by
  refine ⟨fun hl => (h.1 hl).respond data events, fun hl p hp => ?_⟩
  have hpiece := h.2 hl p hp
  cases p <;> exact hpiece

/-- `SelectRan` compares with the parameters, LOCKED, SEL, CHANGED and the pages before, so a change of RAM before the
selection does not matter. -/
theorem SelectRan.of_same {n : Nat} {s u t : State} (h : SelectRan n u t) (hc : u.cfg = s.cfg) (hl : u.locked = s.locked)
    (hsel : u.sel = s.sel) (hch : u.changed = s.changed) (hpage : ∀ p, u.page p = s.page p) : SelectRan n s t := by
  obtain ⟨hfree, hlocked⟩ := h
  rw [hl] at hfree hlocked
  refine ⟨fun h => ?_, fun h p hp => (?_ : Unchanged s u p).trans (hlocked h p hp)⟩
  · obtain ⟨h₁, h₂, h₃, h₄⟩ := hfree h
    rw [hc] at h₁ h₂ h₃
    exact ⟨h₁, h₂, fun p hp => (h₃ p hp).trans (hpage p), h₄⟩
  · simp only [List.mem_cons, List.not_mem_nil, or_false] at hp
    rcases hp with rfl | rfl | rfl
    · exact hsel
    · exact hpage
    · exact hch

/-- Settles O26: CSEL is `Select` and a response. -/
theorem cselSelects : Obligations.CselSelects := fun s sel =>
  ⟨_, rfl, rfl, (selectRan_select sel.toNat s).respond _ _, unchangedBut_respond _ _ (unchangedBut_select _ s)⟩

/-! ## The write handler (R110-R112) -/

section HotSpots

variable {s : State} {a : Addr}

/-- The commands that run the write handler do what CWR does (R97, R110). -/
theorem exec_eq_cwr {i : Instr} {v : Byte} (h : RunsWriteHandler s i a v) : exec i s = exec (.cwr a v) s := by
  rcases h with rfl | ⟨rfl, hwr, hdev⟩
  · rfl
  · exact exec_bwr_cart v hwr hdev

theorem hotSpotSelect_hsRom (v : Byte) (h : localOffset a = s.cfg.hsRom) : hotSpotSelect a v s = select v.toNat s := by
  rw [hotSpotSelect, if_pos h]

/-- At HS_RAM the value names a bank-pair, since the two offsets differ (R10, R80). -/
theorem hotSpotSelect_hsRam (hc : s.cfg.Valid) (v : Byte) (h : localOffset a = s.cfg.hsRam) :
    hotSpotSelect a v s = select (v.toNat + 256) s := by
  obtain ⟨-, -, -, ⟨-, -, -, -, hne, -⟩, -⟩ := hc
  rw [hotSpotSelect, if_neg (h ▸ hne.symm), if_pos h, ramRequest]

/-- Under LOCKED, and away from the hot spots, the write handler selects nothing (R108, R110). -/
theorem hotSpotSelect_none (v : Byte)
    (h : s.locked = true ∨ (localOffset a ≠ s.cfg.hsRom ∧ localOffset a ≠ s.cfg.hsRam)) :
    hotSpotSelect a v s = s := by
  rcases h with hl | ⟨hrom, hram⟩
  · rcases hotSpotSelect_cases a v s with h | ⟨n, h⟩
    · exact h
    · rw [h, select_locked hl]
  · rw [hotSpotSelect, if_neg hrom, if_neg hram]

end HotSpots

theorem unchangedBut_hotSpotSelect (a : Addr) (v : Byte) (s : State) :
    UnchangedBut [.sel, .pages, .changed] s (hotSpotSelect a v s) := by
  rcases hotSpotSelect_cases a v s with h | ⟨n, h⟩ <;> rw [h]
  · exact unchangedBut_refl _ s
  · exact unchangedBut_select n s

/-- Settles O27: the handler compares the local offset, and its response is the same whether it selects or not. -/
theorem cwrSelectsAtHotSpotsAndAlwaysPokes : Obligations.CwrSelectsAtHotSpotsAndAlwaysPokes := by
  intro s a v hc
  refine ⟨_, rfl, rfl, fun hl hrom => ?_, fun hl hram => ?_, fun hnone => ?_,
    unchangedBut_respond _ _ (unchangedBut_hotSpotSelect a v s)⟩
  · rw [cartWrite, hotSpotSelect_hsRom v hrom]
    exact (selected_select _ hl).respond _ _
  · rw [cartWrite, hotSpotSelect_hsRam hc v hram]
    exact (selected_select _ hl).respond _ _
  · rw [cartWrite, hotSpotSelect_none v hnone]
    exact unchangedBut_respond _ _ (unchangedBut_refl _ s)

/-! ## CINST and CRST (R114, R116) -/

/-- What a page reads as after a CINST: the lower window waits for the lock, every other page is as the fixed pages are
installed (R114). -/
theorem cinst_page (s : State) (p : Nat) :
    (select s.startBank (withFixedPages s)).page p =
      if s.locked = false ∧ p ∈ lowerPages s.cfg then lowerMap s.cfg (norm s.cfg s.startBank) p
      else (withFixedPages s).page p :=
  select_page s.startBank (withFixedPages s) p

/-- Outside the lower window a CINST leaves the fixed pages. -/
theorem cinst_page_of_not_lower {s : State} {p : Nat} (hp : p ∉ lowerPages s.cfg) :
    (select s.startBank (withFixedPages s)).page p = (withFixedPages s).page p := by
  rw [cinst_page, if_neg (fun h => hp h.2)]

/-- Settles O28: the three ranges share no page, and only the lower window waits for the lock. -/
theorem cinstInstallsTheCartridge : Obligations.CinstInstallsTheCartridge := by
  intro s hc
  obtain ⟨hfree, hlocked⟩ := selectRan_select s.startBank (withFixedPages s)
  refine ⟨(select s.startBank (withFixedPages s)).respond 0#16 [], rfl, rfl, fun p hp => ?_, fun p hp => ?_, fun p hp => ?_,
    fun p hp => ?_, fun hl => ⟨(hfree hl).sel, (hfree hl).changed⟩,
    fun hl => ⟨hlocked hl .sel (by simp), hlocked hl .changed (by simp)⟩, unchangedBut_respond _ _ ?_⟩
  · have hlow : p ∉ lowerPages s.cfg := fun hlow => lower_not_hotSpot hc hlow hp
    have hup : p ∉ upperPages s.cfg := fun hup => upper_not_hotSpot hc hup hp
    rw [respond_page, cinst_page_of_not_lower hlow, withFixedPages_page, if_neg hup, if_pos hp, hsMap]
  · have hlow : p ∉ lowerPages s.cfg := fun hlow => lower_not_upper hlow hp
    rw [respond_page, cinst_page_of_not_lower hlow, withFixedPages_page, if_pos hp]
    rfl
  · have hother : (withFixedPages s).page p = s.page p := by
      rw [withFixedPages_page, if_neg (lower_not_upper hp), if_neg (lower_not_hotSpot hc hp)]
    rw [respond_page, cinst_page, hother]
    cases s.locked <;> simp [hp]
  · simp only [claimedPages, List.mem_append, not_or] at hp
    obtain ⟨⟨hlow, hup⟩, hhs⟩ := hp
    rw [respond_page, cinst_page_of_not_lower hlow, withFixedPages_page, if_neg hup, if_neg hhs]
  · exact ((unchangedBut_pt s _).trans (unchangedBut_select _ _)).mono (by simp)

/-- Settles O29: the fill takes the values set in index order, and `Select` runs after it. -/
theorem crstFillsRamAndSelects : Obligations.CrstFillsRamAndSelects := by
  intro s
  refine ⟨(select s.startBank (drawRamFill s)).respond 0#16 [], rfl, rfl, fun i v hi hv => ?_, ?_, ?_,
    unchangedBut_respond _ _ ?_⟩
  · have hfill := fillRam_bufByte s s.draws.rng hi
    rw [hv, Option.getD_some] at hfill
    rw [respond_bufByte, select_bufByte]
    exact hfill
  · rw [respond_draws, select_draws, drawRamFill_draws, ramSize]
  · exact ((selectRan_select s.startBank (drawRamFill s)).of_same (s := s) rfl rfl rfl rfl fun _ => rfl).respond _ _
  · exact ((unchangedBut_drawRamFill s).trans (unchangedBut_select _ _)).mono (by simp)

/-! ## CPAT (R118, R119) -/

/-- The state a CPAT leaves, but for its response: the cell behind the offset overridden, CHANGED set (R118). -/
def patched (off : Nat) (v : Byte) (s : State) : State :=
  (s.setBufByte (patchTarget s.cfg s.sel.toNat off).1 (patchTarget s.cfg s.sel.toNat off).2 v).markChanged

/-- Under legal parameters and a legal SEL a CPAT always writes its target: LOCKED is not consulted (R118). -/
theorem exec_cpat {s : State} (a : Addr) (v : Byte) (hc : s.cfg.Valid) (hs : SelLegal s.cfg s.sel) :
    exec (.cpat a v) s = .next ((patched (localOffset a) v s).respond 0#16 []) := by
  simp only [exec, execCpat, bufWrite_ok s v (patchTarget_inside hc hs (localOffset a)), patched]

theorem patched_bufByte_target (off : Nat) (v : Byte) (s : State) :
    (patched off v s).bufByte (patchTarget s.cfg s.sel.toNat off).1 (patchTarget s.cfg s.sel.toNat off).2 = v := by
  rw [patched, markChanged_bufByte, setBufByte_bufByte_self]

theorem patched_sameBytesBut (off : Nat) (v : Byte) (s : State) :
    SameBytesBut (patchTarget s.cfg s.sel.toNat off).1 (patchTarget s.cfg s.sel.toNat off).2 s (patched off v s) := by
  intro b i hother
  rw [patched, markChanged_bufByte]
  exact setBufByte_sameBytesBut s _ _ v b i hother

theorem unchangedBut_patched (off : Nat) (v : Byte) (s : State) :
    UnchangedBut [.image, .ram, .changed] s (patched off v s) :=
  (unchangedBut_setBufByte s _ _ v).trans (unchangedBut_markChanged _)

/-- The cell CPAT changes, in the terms of R118: both ports of a bank-pair lead to the same kibibyte. -/
theorem patchTarget_eq {c : Config} {sel off : Nat} (hoff : off < 4096) :
    patchTarget c sel off =
      if off < 0x800 then
        if sel < 256 then (.image, sel * 2048 + off) else (.ram, (sel - 256) * 1024 + off % 0x400)
      else (.image, c.romSize - 2048 + (off - 0x800)) := by
  rw [patchTarget_eq_place]
  split
  · rename_i hlow
    split
    · rename_i hrom
      rw [shownAt_rom c hlow hrom, Nat.mod_eq_of_lt hlow]
      rfl
    · by_cases hport : off < 0x400
      · rw [shownAt_readPort c hport (by omega)]
        rfl
      · rw [shownAt_writePort c (by omega) hlow (by omega)]
        rfl
  · have hslice : off % 0x800 = off - 0x800 := by omega
    rw [shownAt_fixed c sel (by omega), hslice]
    rfl

/-- Settles O30: CPAT writes the byte at its target, which is the cell R118 names. -/
theorem cpatOverridesTheByteShown : Obligations.CpatOverridesTheByteShown := by
  intro s a v hc hs off target
  have htarget : target = patchTarget s.cfg s.sel.toNat (localOffset a) := (patchTarget_eq (localOffset_lt a)).symm
  rw [htarget]
  exact ⟨_, exec_cpat a v hc hs, rfl, patched_bufByte_target _ v s, patched_sameBytesBut _ v s, rfl,
    unchangedBut_respond _ _ (unchangedBut_patched _ v s)⟩

/-- Settles O55: what the offset shows decides both, a cell being what CRD answers and the write port what CRD latches. -/
theorem patchChangesTheByteCrdReads : Obligations.PatchChangesTheByteCrdReads := by
  intro s a v hc hs target onWritePort
  refine ⟨⟨_, exec_cpat a v hc hs, patched_bufByte_target _ v s, patched_sameBytesBut _ v s⟩, fun hoff => ?_, fun hon => ?_⟩
  · cases hshown : shownAt s.cfg s.sel.toNat (localOffset a) with
    | writePort i => exact absurd (shownAt_eq_writePort hshown) hoff
    | cell b i =>
      have htarget : target = (b, i) := by rw [← Shown.place, ← hshown, ← patchTarget_eq_place]
      rw [htarget]
      exact ⟨_, exec_crd_cell hshown (shownCell_inside hc hs hshown), rfl⟩
  · obtain ⟨hram, hlow, hhigh⟩ := hon
    have hshown := shownAt_writePort (off := localOffset a) s.cfg hlow hhigh hram
    have htarget : target = (.ram, ramBase s.sel.toNat + localOffset a % 0x400) := by
      show patchTarget _ _ _ = _
      rw [patchTarget_eq_place, hshown, Shown.place]
    rw [htarget]
    refine ⟨_, _, exec_crd_writePort_unlocked hshown rfl (writePort_inside hc hs hshown), rfl, by simp, fun b i hother => ?_⟩
    rw [respond_bufByte, setBufByte_sameBytesBut _ _ _ _ b i hother, drawFloatingBus_bufByte]
    exact setLocked_bufByte s false b i

/-! ## CSAVE (R120) -/

/-- The saved fields, spelled out (R86, R120). -/
theorem saveFields_eq (s : State) :
    s.saveFields =
      [.str s.cfg.tag, .int s.sel.toNat, .int 32768] ++ (List.range 32768).map (fun i => .byte (s.bufByte .ram i)) := by
  rw [State.saveFields, State.ramBytes, List.map_map, List.cons_append, List.cons_append, List.cons_append, List.nil_append]
  rfl

/-- With a value set the serializer faults as it says (R59). -/
theorem drawSerFault_of_set {s : State} {x : Option (Fin saveFieldCount)} {xs : List (Option (Fin saveFieldCount))}
    (h : s.draws.serFault = x :: xs) : drawSerFault s = (x, { s with draws := { s.draws with serFault := xs } }) := by
  simp only [drawSerFault, h]

/-- The end of a CSAVE gives a response and nothing else. -/
theorem unchangedBut_endSave {named : List Piece} {s t : State} (f : Option (Fin saveFieldCount)) (fields : List SerField)
    (h : UnchangedBut named s t) : UnchangedBut named s (endSave f fields t) := by
  cases f <;> exact unchangedBut_response _ h

theorem endSave_draws (f : Option (Fin saveFieldCount)) (fields : List SerField) (s : State) :
    (endSave f fields s).draws = s.draws := by
  cases f <;> rfl

/-- Settles O31: the draw decides how the save ends, and takes the oldest value set. -/
theorem csavePutsTheSavedFields : Obligations.CsavePutsTheSavedFields := by
  intro s fields
  have hexec : exec .csave s = .next (endSave (drawSerFault s).1 fields (drawSerFault s).2) :=
    congrArg (fun f => Host.Outcome.next (endSave _ f _)) (saveFields_eq s)
  refine ⟨_, (drawSerFault s).1, hexec, fun hf => ?_, fun j hf => ?_, fun x xs hset => ?_, unchangedBut_endSave _ _ ?_⟩
  · rw [hf]
    rfl
  · rw [hf]
    rfl
  · rw [endSave_draws, drawSerFault_of_set hset]
    exact ⟨rfl, rfl⟩
  · rw [drawSerFault_state]
    exact unchangedBut_draws s _

/-! ## CLOAD (R122, R123) -/

/-- A stream that goes on after its tag with a selector, the length of RAM and that many bytes is loaded (R122). -/
theorem exec_cload_complete {s : State} {bytes : List Byte} (n : Nat) (extra : List SerItem) (hlen : bytes.length = ramSize) :
    exec (.cload (.field (.str s.cfg.tag) :: .field (.int n) :: .field (.int ramSize) ::
      (bytes.map (fun b => SerItem.field (.byte b)) ++ extra))) s = .next (loadComplete n bytes s) := by
  have hbytes := getBytes_eq_some_iff.mpr ⟨hlen, extra, rfl⟩
  simp only [exec, execCload, getStr, getInt, ne_eq, not_true_eq_false, ↓reduceIte, hbytes]

/-- After a matching tag every other stream fails partly (R123). -/
theorem exec_cload_partial {s : State} {items : List SerItem}
    (h : ∀ (n : Nat) (bytes : List Byte) (extra : List SerItem), bytes.length = ramSize →
      items ≠ .field (.int n) :: .field (.int ramSize) :: (bytes.map (fun b => SerItem.field (.byte b)) ++ extra)) :
    exec (.cload (.field (.str s.cfg.tag) :: items)) s = .next (loadFailPartial s) := by
  simp only [exec, execCload, getStr, ne_eq, not_true_eq_false, ↓reduceIte]
  split
  · rfl
  · rename_i n afterSel hsel
    split
    · rfl
    · rename_i len afterLen hlength
      split
      · rfl
      · rename_i hsize
        obtain rfl := Decidable.not_not.mp hsize
        split
        · rfl
        · rename_i bytes hbytes
          obtain ⟨hlen, extra, rfl⟩ := getBytes_eq_some_iff.mp hbytes
          obtain rfl := getInt_eq_some_iff.mp hlength
          exact absurd (getInt_eq_some_iff.mp hsel) (h n bytes extra hlen)

/-- A stream that does not begin with the tag is rejected with FAIL (R122). -/
theorem exec_cload_untagged {s : State} {stream : List SerItem} (h : ∀ rest, stream ≠ .field (.str s.cfg.tag) :: rest) :
    exec (.cload stream) s = .next (s.reject .fail) := by
  simp only [exec, execCload]
  split
  · rfl
  · rename_i tag rest hstr
    rw [if_pos]
    rintro rfl
    exact h rest (getStr_eq_some_iff.mp hstr)

/-- After a CLOAD that succeeds RAM holds the bytes read (R122). -/
theorem loadComplete_bufByte {bytes : List Byte} {i : Nat} {v : Byte} (n : Nat) (s : State) (h : bytes[i]? = some v) :
    (loadComplete n bytes s).bufByte .ram i = v := by
  have hram : (loadComplete n bytes s).ram = Sparse.ofList 0 bytes := rfl
  rw [State.bufByte, hram, Sparse.lookup_ofList, if_pos (Nat.zero_le i), Nat.sub_zero, h, Option.getD_some]

/-- After a CLOAD that succeeds the lower window maps the selector read, whatever LOCKED (R122). -/
theorem loadComplete_page (n : Nat) (bytes : List Byte) (s : State) (p : Nat) :
    (loadComplete n bytes s).page p = if p ∈ lowerPages s.cfg then lowerMap s.cfg (norm s.cfg n) p else s.page p :=
  (publishLower_page (normSel s.cfg n) s p).trans (by rw [normSel_toNat])

theorem unchangedBut_loadComplete (n : Nat) (bytes : List Byte) (s : State) :
    UnchangedBut [.sel, .ram, .pages] s (loadComplete n bytes s) := by
  have hram := unchangedBut_ram s (Sparse.ofList 0 bytes) s.ramFill
  exact unchangedBut_respond _ _ ((hram.trans (unchangedBut_republish n _)).mono (by simp))

/-- Settles O32: the stream passes every check of CLOAD. -/
theorem cloadRestoresTheSavedState : Obligations.CloadRestoresTheSavedState := by
  intro s n bytes extra hlen
  refine ⟨_, exec_cload_complete n extra hlen, rfl, normSel_toNat s.cfg n, fun i v => loadComplete_bufByte n s,
    fun p hp => ?_, fun p hp => ?_, unchangedBut_loadComplete n bytes s⟩
  · rw [loadComplete_page, if_pos hp]
  · rw [loadComplete_page, if_neg hp]

/-- Settles O33: the first check of CLOAD fails, and FAIL records no command fault. -/
theorem cloadWithoutTheTagFails : Obligations.CloadWithoutTheTagFails := by
  intro s stream h
  rw [exec_cload_untagged h, State.reject, Status.commandFault, List.append_nil]

/-- After FAILPARTIAL the lower window maps the SEL left (R123). -/
theorem loadFailPartial_page (s : State) (p : Nat) :
    (loadFailPartial s).page p =
      if p ∈ lowerPages s.cfg then lowerMap s.cfg (loadFailPartial s).sel.toNat p else s.page p :=
  publishLower_page (loadFailPartial s).sel s p

theorem unchangedBut_loadFailPartial (s : State) :
    UnchangedBut [.sel, .ram, .pages, .draws, .faults] s (loadFailPartial s) := by
  have hmap := (unchangedBut_drawPartial s).trans (unchangedBut_republish (drawPartial s).1 (drawPartial s).2)
  have hall := hmap.trans (unchangedBut_faults _ (s.faults ++ [.failPartial]))
  exact (unchangedBut_response _ hall).mono (by simp)

/-- Settles O34: FAILPARTIAL leaves a normal form in SEL, published as a selection of it would be. -/
theorem cloadFailsPartiallyAfterTheTag : Obligations.CloadFailsPartiallyAfterTheTag := by
  intro s items hc h
  refine ⟨_, exec_cload_partial h, rfl, normSel_legal hc _, fun p hp => ?_, fun p hp => ?_, rfl,
    unchangedBut_loadFailPartial s⟩
  · rw [loadFailPartial_page, if_pos hp]
  · rw [loadFailPartial_page, if_neg hp]

/-- Settles O58: a CSAVE that ends with OK put all the fields, and a legal SEL is its own normal form. -/
theorem saveThenLoadRestoresTheCartridge : Obligations.SaveThenLoadRestoresTheCartridge := by
  intro s t u fields hs hcfg hsave hok
  have hfields : fields = s.saveFields := by
    obtain rfl := Host.Outcome.next.inj hsave
    unfold Answered at hok
    cases hf : (drawSerFault s).1 with
    | some j =>
      rw [hf] at hok
      cases congrArg Response.status (Option.some.inj hok)
    | none =>
      rw [hf] at hok
      have hevents := congrArg Response.events (Option.some.inj hok)
      exact (List.map_injective_iff.mpr (fun _ _ => Event.serPut.inj) hevents).symm
  have hload := exec_cload_complete (s := u) s.sel.toNat [] (ramBytes_length s)
  rw [hcfg, List.append_nil] at hload
  refine ⟨loadComplete s.sel.toNat s.ramBytes u, ?_, rfl, ?_, fun i hi => loadComplete_bufByte _ u (ramBytes_getElem s hi)⟩
  · rw [hfields, State.saveFields, List.map_cons, List.map_cons, List.map_cons, List.map_map]
    exact hload
  · refine BitVec.eq_of_toNat_eq ((normSel_toNat u.cfg s.sel.toNat).trans ?_)
    rw [hcfg, norm_of_legal hs]

/-! ## The flags and CSTAT (R124-R126) -/

/-- Settles O35: each writes one field. -/
theorem clockAndCclrWriteTheirFlag : Obligations.ClockAndCclrWriteTheirFlag := ⟨fun _ _ => rfl, fun _ => rfl⟩

/-- The upper part of a concatenation counts in units of the lower part's range. -/
theorem toNat_append_eq_add {m n : Nat} (x : BitVec m) (y : BitVec n) : (x ++ y).toNat = x.toNat * 2 ^ n + y.toNat := by
  rw [BitVec.toNat_append, ← Nat.shiftLeft_add_eq_or_of_lt y.isLt, Nat.shiftLeft_eq]

/-- The number in the data field of a CSTAT (R126, R75). -/
theorem statWord_toNat (s : State) : s.statWord.toNat = s.sel.toNat + 512 * s.locked.toNat + 1024 * s.changed.toNat := by
  rw [State.statWord, BitVec.toNat_setWidth_of_le (by decide), toNat_append_eq_add, toNat_append_eq_add, BitVec.toNat_ofBool,
    BitVec.toNat_ofBool]
  omega

/-- Settles O36: the three registers stand one above the other in the word. -/
theorem cstatAnswersTheRegisters : Obligations.CstatAnswersTheRegisters := fun s => ⟨s.statWord, rfl, statWord_toNat s⟩

/-! ## What a bus read returns after a selection (R109) -/

/-- In a ROM selection the page of a banked-segment address holds a read reference that leads the address to its byte. -/
theorem lowerMap_romBank {c : Config} {n o : Nat} {a : Addr} (hc : c.Valid) (hn : n < 256)
    (ha : a.toNat = c.windowBase + o) :
    ∃ base, (lowerMap c n (pageOf c a)).rd = some ⟨.image, base⟩ ∧ base + inPage c a = romBase n + o := by
  have hlow : c.windowBase ≤ pageBase c (pageOf c a) := le_pageBase_of_dvd (windowBase_dvd hc) (by omega)
  have hsum := pageBase_add_inPage c a
  refine ⟨romBase n + (pageBase c (pageOf c a) - c.windowBase), ?_, by omega⟩
  simp only [lowerMap]
  rw [if_pos hn]

/-- A bus read of the banked segment in a ROM selection answers the byte of the selected bank (R96, R109 a). -/
theorem exec_brd_romBank {s : State} {o : Nat} {a : Addr} (hs : SelLegal s.cfg s.sel) (hrom : s.sel.toNat < 256)
    (ho : o < 0x800) (hc : s.cfg.Valid) (hlower : ∀ p ∈ lowerPages s.cfg, s.page p = lowerMap s.cfg s.sel.toNat p)
    (ha : a.toNat = s.cfg.windowBase + o) :
    exec (.brd a) s = .next (s.respond ((s.bufByte .image (romBase s.sel.toNat + o)).setWidth 16) []) := by
  obtain ⟨base, hrd, hbyte⟩ := lowerMap_romBank hc hrom ha
  rw [← hlower _ (pageOf_mem_lowerPages hc ha ho)] at hrd
  have hbank : s.sel.toNat < s.cfg.romBanks := by
    rcases hs with ⟨-, hlt⟩ | ⟨hram, -⟩
    · exact hlt
    · omega
  have hin : romBase s.sel.toNat + o < bufSize s.cfg .image := romBase_inside hc hbank ho
  rw [← hbyte] at hin ⊢
  exact exec_brd_direct hrd hin

/-- The state a CSEL leaves: `Select` and an OK response (R107). -/
def selectedState (n : Nat) (s : State) : State := (select n s).respond 0#16 []

section SelectedState

variable (n : Nat) (s : State)

theorem exec_csel (sel : BitVec 9) : exec (.csel sel) s = .next (selectedState sel.toNat s) := rfl

theorem selectedState_cfg : (selectedState n s).cfg = s.cfg := select_cfg n s

theorem selectedState_locked : (selectedState n s).locked = s.locked := select_locked_field n s

theorem selectedState_bufByte (b : Buf) (i : Nat) : (selectedState n s).bufByte b i = s.bufByte b i := by
  rw [selectedState, respond_bufByte, select_bufByte]

variable {s} (hl : s.locked = false)

include hl

theorem selectedState_sel : (selectedState n s).sel = normSel s.cfg n := by
  rw [selectedState, respond_sel, select_sel, hl, if_neg Bool.false_ne_true]

theorem selectedState_selLegal (hc : s.cfg.Valid) : SelLegal (selectedState n s).cfg (selectedState n s).sel := by
  rw [selectedState_cfg, selectedState_sel n hl]
  exact normSel_legal hc n

theorem selectedState_page (p : Nat) :
    (selectedState n s).page p = if p ∈ lowerPages s.cfg then lowerMap s.cfg (norm s.cfg n) p else s.page p := by
  simp only [selectedState, respond_page, select_page, hl, true_and]

/-- The lower window maps the SEL just written (R108). -/
theorem selectedState_lower (p : Nat) (hp : p ∈ lowerPages (selectedState n s).cfg) :
    (selectedState n s).page p = lowerMap (selectedState n s).cfg (selectedState n s).sel.toNat p := by
  rw [selectedState_cfg] at hp ⊢
  rw [selectedState_sel n hl, normSel_toNat, selectedState_page n hl, if_pos hp]

end SelectedState

/-- Settles O52: the lower window published by the selection leads the read to the bank, and a selection writes no byte. -/
theorem selectedBankIsRead : Obligations.SelectedBankIsRead := by
  intro s sel o a hc hl ha
  have hcfg := selectedState_cfg sel.toNat s
  have hlegal := selectedState_selLegal sel.toNat hl hc
  have hlower := selectedState_lower sel.toNat hl
  have hsel : (selectedState sel.toNat s).sel.toNat = norm s.cfg sel.toNat := by
    rw [selectedState_sel _ hl, normSel_toNat]
  rw [← hcfg] at hc ha
  refine ⟨_, exec_csel s sel, fun hrom ho => ?_, fun hram ho => ?_⟩
  · rw [norm_rom hrom] at hsel
    have hlt : (selectedState sel.toNat s).sel.toNat < 256 := hsel ▸ (Nat.mod_le _ _).trans_lt hrom
    refine ⟨_, exec_brd_romBank hlegal hlt ho hc hlower ha, ?_⟩
    rw [selectedState_bufByte, hsel]
    rfl
  · rw [norm_ram hram] at hsel
    have hpair : ramBase (256 + sel.toNat % 32) = sel.toNat % 32 * 1024 := by
      unfold ramBase
      omega
    refine ⟨_, exec_brd_readPort hlegal (by omega) ho hc hlower ha, ?_⟩
    rw [selectedState_bufByte, hsel, hpair]
    rfl

/-- Settles O53: a selection depends on the parameters and the selector, not on SEL; R is a multiple of itself, and a selector
below R is its own normal form. -/
theorem selectionIsIdempotentAndWraps : Obligations.SelectionIsIdempotentAndWraps := by
  refine ⟨fun s t sel hl h => ?_, fun s sel hc hl hrom => ⟨fun hR => ?_, fun hlast => ?_⟩⟩
  · obtain rfl : selectedState sel.toNat s = t := Host.Outcome.next.inj h
    have hl' := (selectedState_locked sel.toNat s).trans hl
    refine ⟨_, exec_csel _ sel, ?_, fun p => ?_, fun b i => ?_⟩
    · rw [selectedState_sel _ hl', selectedState_sel _ hl, selectedState_cfg]
    · rw [selectedState_page _ hl', selectedState_cfg, selectedState_page _ hl]
      split_ifs <;> rfl
    · rw [selectedState_bufByte, selectedState_bufByte]
  · refine ⟨_, exec_csel s sel, BitVec.eq_of_toNat_eq ?_⟩
    rw [selectedState_sel _ hl, normSel_toNat, norm_rom hrom, hR, Nat.mod_self]
    rfl
  · have hsel : (selectedState sel.toNat s).sel = sel := by
      rw [selectedState_sel _ hl]
      refine BitVec.eq_of_toNat_eq ?_
      rw [normSel_toNat, norm_rom hrom, Nat.mod_eq_of_lt (by omega)]
    have hslice : romBase sel.toNat = s.cfg.romSize - 2048 := by
      have hsize := romBanks_mul hc
      have hbase : romBase sel.toNat = sel.toNat * 2048 := rfl
      omega
    exact ⟨_, exec_csel s sel, hsel, (congrArg (romBase ∘ BitVec.toNat) hsel).trans hslice⟩

/-! ## The lock (R127) -/

/-- A selection that runs under LOCKED changes neither SEL nor CHANGED nor a page (R108). -/
theorem SelectRan.frozen {n : Nat} {s t : State} (h : SelectRan n s t) (hl : s.locked = true) :
    t.sel = s.sel ∧ t.changed = s.changed ∧ ∀ p, t.page p = s.page p := by
  have hpiece := h.2 hl
  exact ⟨hpiece .sel (by simp), hpiece .changed (by simp), hpiece .pages (by simp)⟩

/-- A locked read of the cartridge stores nothing, not even on the write port (R106, R127). -/
theorem exec_crd_locked {s : State} (a : Addr) (hc : s.cfg.Valid) (hs : SelLegal s.cfg s.sel) (hl : s.locked = true) :
    ∃ t, exec (.crd a) s = .next t ∧ SameBytes s t := by
  cases hshown : shownAt s.cfg s.sel.toNat (localOffset a) with
  | cell b i => exact ⟨_, exec_crd_cell hshown (shownCell_inside hc hs hshown), fun b' i' => by simp⟩
  | writePort i => exact ⟨_, exec_crd_writePort_locked hshown hl, fun b' i' => by simp⟩

/-- Settles O47: each part is what the command does, with LOCKED = 1. -/
theorem lockFreezesTheMapping : Obligations.LockFreezesTheMapping := by
  intro s hc hs hl writes reads
  refine ⟨fun i hi => ?_, fun i a hi => ?_, fun n bytes hlen => ?_, fun a v => ?_, fun i a v hi => ?_⟩
  · rcases hi with ⟨sel, rfl⟩ | ⟨a, v, hi⟩ | rfl | rfl
    · obtain ⟨t, hexec, -, hran, -⟩ := cselSelects s sel
      obtain ⟨hsel, hchanged, hpage⟩ := hran.frozen hl
      exact ⟨t, hexec, hsel, hchanged, fun p _ => hpage p⟩
    · obtain ⟨t, hexec, -, -, -, hnone, -⟩ := cwrSelectsAtHotSpotsAndAlwaysPokes s a v hc
      have hkept := hnone (.inl hl)
      exact ⟨t, (exec_eq_cwr hi).trans hexec, hkept .sel (by simp), hkept .changed (by simp), fun p _ => hkept .pages (by simp) p⟩
    · obtain ⟨t, hexec, -, -, -, hlower, -, -, hlocked, -⟩ := cinstInstallsTheCartridge s hc
      obtain ⟨hsel, hchanged⟩ := hlocked hl
      exact ⟨t, hexec, hsel, hchanged, fun p hp => (hlower p hp).trans (if_pos hl)⟩
    · obtain ⟨t, hexec, -, -, -, hran, -⟩ := crstFillsRamAndSelects s
      obtain ⟨hsel, hchanged, hpage⟩ := hran.frozen hl
      exact ⟨t, hexec, hsel, hchanged, fun p _ => hpage p⟩
  · rw [exec_eq_crd hi]
    exact exec_crd_locked a hc hs hl
  · obtain ⟨t, hexec, -, -, -, hlower, -⟩ := cloadRestoresTheSavedState s n bytes [] hlen
    rw [List.append_nil] at hexec
    exact ⟨t, hexec, hlower⟩
  · exact ⟨_, exec_cpat a v hc hs, patched_bufByte_target _ v s⟩
  · obtain ⟨t, hexec, hpoke, -⟩ := cwrSelectsAtHotSpotsAndAlwaysPokes s a v hc
    exact ⟨t, (exec_eq_cwr hi).trans hexec, hpoke⟩

end Sys2Proof.Machine

/-! The obligations of 42_delayqueue.md: what a push, a delivery and a clear do to the queue (R131-R136), and the cycle at which an
accepted entry fires (R134). -/

namespace Sys2Proof.Machine

/-! ## What a queue command leaves unchanged -/

theorem unchangedBut_bucketsAndIndex (s : State) (bs : List (List Entry)) (idx : Sparse Nat) :
    UnchangedBut [.buckets, .index] s { s with buckets := bs, index := idx } := by
  intro p hp
  have hsame := unchanged_refl s p
  cases p with
  | buckets | index => simp at hp
  | _ => exact hsame

theorem unchangedBut_unschedule (a : BitVec 8) (s : State) : UnchangedBut [.buckets, .index] s (s.unschedule a) := by
  unfold State.unschedule
  split
  · exact unchangedBut_refl _ s
  · exact unchangedBut_bucketsAndIndex s _ s.index

theorem unchangedBut_pushed (a : BitVec 8) (v : Byte) (j : Nat) (s : State) :
    UnchangedBut [.buckets, .index] s (pushed a v j s) :=
  ((unchangedBut_unschedule a s).trans (unchangedBut_bucketsAndIndex _ _ _)).mono (by simp)

theorem unchangedBut_drain (s : State) : UnchangedBut [.buckets, .index, .cursor] s s.drain := by
  intro p hp
  have hsame := unchanged_refl s p
  cases p with
  | buckets | index | cursor => simp at hp
  | _ => exact hsame

/-! ## The three ways of a QPUSH (R131) -/

section Push

variable {s t : State} {a : BitVec 8} {v : Byte} {d : BitVec 8}

theorem exec_qpush_outOfRange (hd : d.toNat < 1 ∨ s.cfg.horizon < d.toNat) :
    exec (.qpush a v d) s = .next (s.reject .qRange) := if_pos hd

theorem exec_qpush_full (h1 : 1 ≤ d.toNat) (hL : d.toNat ≤ s.cfg.horizon)
    (hfull : s.cfg.capacity < s.countBeside a (s.targetBucket d) + 1) :
    exec (.qpush a v d) s = .next (s.reject .qFull) := by
  have hin : ¬ (d.toNat < 1 ∨ s.cfg.horizon < d.toNat) := by omega
  exact (if_neg hin).trans (if_pos hfull)

theorem exec_qpush_accepted (h1 : 1 ≤ d.toNat) (hL : d.toNat ≤ s.cfg.horizon)
    (hroom : s.countBeside a (s.targetBucket d) + 1 ≤ s.cfg.capacity) :
    exec (.qpush a v d) s = .next ((pushed a v (s.targetBucket d) s).respond 0#16 []) := by
  have hin : ¬ (d.toNat < 1 ∨ s.cfg.horizon < d.toNat) := by omega
  exact (if_neg hin).trans (if_neg hroom.not_gt)

theorem status_reject (st : Status) : (s.reject st).status = some st := rfl

/-- A QPUSH that answers OK had a delay in `1..L` and left the state of a push. -/
theorem pushed_of_exec_qpush_ok (h : exec (.qpush a v d) s = .next t) (hok : t.status = some .ok) :
    1 ≤ d.toNat ∧ d.toNat ≤ s.cfg.horizon ∧ t = (pushed a v (s.targetBucket d) s).respond 0#16 [] := by
  by_cases hd : d.toNat < 1 ∨ s.cfg.horizon < d.toNat
  · obtain rfl := Host.Outcome.next.inj ((exec_qpush_outOfRange hd).symm.trans h)
    cases (status_reject _).symm.trans hok
  · have h1 : 1 ≤ d.toNat := by omega
    have hL : d.toNat ≤ s.cfg.horizon := by omega
    by_cases hfull : s.cfg.capacity < s.countBeside a (s.targetBucket d) + 1
    · obtain rfl := Host.Outcome.next.inj ((exec_qpush_full h1 hL hfull).symm.trans h)
      cases (status_reject _).symm.trans hok
    · have hexec := exec_qpush_accepted (v := v) h1 hL (Nat.le_of_not_lt hfull)
      exact ⟨h1, hL, Host.Outcome.next.inj (h.symm.trans hexec)⟩

end Push

/-! ## QEXEC and QRST as single updates (R133, R136) -/

theorem exec_qexec (s : State) : exec .qexec s = .next (s.drain.respond 0#16 (fireEvents (s.bucket s.cursor))) := rfl

/-- The queue emptied, CURSOR kept, as a QRST leaves it (R136). -/
def cleared (s : State) : State := { s with buckets := s.buckets.map (fun _ => []), index := [] }

theorem exec_qrst (s : State) : exec .qrst s = .next ((cleared s).respond 0#16 []) := rfl

theorem cleared_bucket (s : State) (j : Nat) : (cleared s).bucket j = [] := by
  rw [bucket_eq, cleared, bucketOf, List.getElem?_map]
  cases s.buckets[j]? <;> rfl

theorem cleared_buckets_length (s : State) : (cleared s).buckets.length = s.buckets.length := List.length_map _

theorem cleared_slot (s : State) (a : BitVec 8) : (cleared s).slot a = none := rfl

theorem unchangedBut_cleared (s : State) : UnchangedBut [.buckets, .index] s (cleared s) :=
  unchangedBut_bucketsAndIndex s _ _

/-! ## The entries of one address -/

/-- The entries bucket `k` holds for address `a`. -/
def State.entriesFor (a : BitVec 8) (k : Nat) (s : State) : List Entry := (s.bucket k).filter (fun e => e.addr = a)

/-- Taking out an address does not touch the entries of another. -/
theorem filter_dropAddr_of_ne {a a' : BitVec 8} (hne : a' ≠ a) (b : List Entry) :
    (dropAddr a' b).filter (fun e => e.addr = a) = b.filter (fun e => e.addr = a) := by
  rw [dropAddr, List.filter_filter]
  refine List.filter_congr fun e _ => ?_
  by_cases he : e.addr = a
  · simp [he, hne.symm]
  · simp [he]

theorem filter_dropAddr_self (a : BitVec 8) (b : List Entry) : (dropAddr a b).filter (fun e => e.addr = a) = [] := by
  simp [dropAddr]

/-- After a push the one entry for its address is the new one, at its bucket (R132). -/
theorem entriesFor_pushed_self {s : State} (hq : QueueOk s) (a : BitVec 8) (v : Byte) {j : Nat} (hj : j < s.cfg.horizon)
    (k : Nat) : (pushed a v j s).entriesFor a k = if k = j then [⟨a, v⟩] else [] := by
  rw [State.entriesFor, pushed_bucket hq a v hj]
  split
  · simp [filter_dropAddr_self]
  · exact filter_dropAddr_self a _

/-- A push leaves the entries of every other address where they are. -/
theorem entriesFor_pushed_of_ne {s : State} (hq : QueueOk s) {a a' : BitVec 8} (hne : a' ≠ a) (v : Byte) {j : Nat}
    (hj : j < s.cfg.horizon) (k : Nat) : (pushed a' v j s).entriesFor a k = s.entriesFor a k := by
  rw [State.entriesFor, pushed_bucket hq a' v hj]
  split
  · simp [filter_dropAddr_of_ne hne, hne, State.entriesFor]
  · exact filter_dropAddr_of_ne hne _

theorem entriesFor_drain (a : BitVec 8) (k : Nat) (s : State) :
    s.drain.entriesFor a k = if k = s.cursor then [] else s.entriesFor a k := by
  rw [State.entriesFor, drain_bucket]
  split <;> rfl

/-- A command that discards nothing for `a` moves no entry of `a`; a QEXEC takes those of the current bucket (R134). -/
theorem exec_entriesFor {s t : State} {i : Instr} {a : BitVec 8} (hq : QueueOk s) (h : exec i s = .next t)
    (hkeep : cancels a i t = false) (k : Nat) :
    t.entriesFor a k = if i = .qexec ∧ k = s.cursor then [] else s.entriesFor a k := by
  have hsame : ∀ {u : State}, i ≠ .qexec → u.buckets = s.buckets →
      u.entriesFor a k = if i = .qexec ∧ k = s.cursor then [] else s.entriesFor a k := by
    intro u hi hb
    rw [if_neg (fun hc => hi hc.1), State.entriesFor, bucket_eq, hb]
    rfl
  cases exec_form h with
  | quiet hs hm =>
    obtain ⟨r, f, d, rfl⟩ := hs
    exact hsame (by rintro rfl; exact hm.2) rfl
  | latch hi => exact hsame (by rcases hi with rfl | rfl <;> simp) (by simp)
  | hotSpot n hi => exact hsame (by rcases hi with rfl | ⟨rfl, -⟩ <;> simp) (by simp)
  | @pushed a' v d =>
    have hne : a' ≠ a := by
      rintro rfl
      simp [cancels, State.status] at hkeep
    rw [if_neg (by simp)]
    exact entriesFor_pushed_of_ne hq hne v (targetBucket_lt hq d) k
  | qexec =>
    simp only [true_and]
    exact entriesFor_drain a k s
  | qrst => simp [cancels] at hkeep
  | _ => exact hsame (by simp) (by simp)

/-! ## The cycles left until an entry fires (R129, R134) -/

/-- The bucket due at the `m`-th QEXEC from now (R129). -/
def State.dueBucket (m : Nat) (s : State) : Nat := (s.cursor + m - 1) % s.cfg.horizon

/-- The only entry for `a` is `v`'s, due at the `m`-th QEXEC from now; with `m = 0` it has fired and `a` has no entry. -/
structure DueIn (a : BitVec 8) (v : Byte) (m : Nat) (s : State) : Prop where
  queue : QueueOk s
  inHorizon : m ≤ s.cfg.horizon
  entries : ∀ k, s.entriesFor a k = if 1 ≤ m ∧ k = s.dueBucket m then [⟨a, v⟩] else []

/-- Within the horizon, the current bucket is the one due next and no other. -/
theorem cursor_eq_dueBucket_iff {s : State} {m : Nat} (hc : s.cursor < s.cfg.horizon) (h1 : 1 ≤ m) (hL : m ≤ s.cfg.horizon) :
    s.cursor = s.dueBucket m ↔ m = 1 := by
  unfold State.dueBucket
  rcases Nat.lt_or_ge (s.cursor + m - 1) s.cfg.horizon with hlt | hge
  · rw [Nat.mod_eq_of_lt hlt]
    omega
  · rw [Nat.mod_eq_sub_mod hge, Nat.mod_eq_of_lt (by omega)]
    omega

/-- What is due at the `m + 2`-nd QEXEC is due one cycle sooner once CURSOR has advanced. -/
theorem dueBucket_of_advanced {s t : State} (hcfg : t.cfg = s.cfg) (hcur : t.cursor = (s.cursor + 1) % s.cfg.horizon) (m : Nat) :
    t.dueBucket (m + 1) = s.dueBucket (m + 2) := by
  unfold State.dueBucket
  rw [hcfg, hcur, Nat.add_sub_assoc (by omega), Nat.mod_add_mod]
  congr 1
  omega

theorem dueBucket_of_same {s t : State} (hcfg : t.cfg = s.cfg) (hcur : t.cursor = s.cursor) (m : Nat) :
    t.dueBucket m = s.dueBucket m := by
  rw [State.dueBucket, hcfg, hcur, State.dueBucket]

/-- An accepted push makes its entry due at the `d`-th QEXEC (R130). -/
theorem dueIn_of_exec_qpush_ok {s t : State} {a : BitVec 8} {v : Byte} {d : BitVec 8} (hq : QueueOk s)
    (h : exec (.qpush a v d) s = .next t) (hok : t.status = some .ok) : DueIn a v d.toNat t := by
  have hq' := exec_queueOk hq h
  obtain ⟨h1, hL, rfl⟩ := pushed_of_exec_qpush_ok h hok
  refine ⟨hq', by simpa using hL, fun k => ?_⟩
  have hdue : (pushed a v (s.targetBucket d) s).dueBucket d.toNat = s.targetBucket d :=
    dueBucket_of_same (by simp) (by simp) _
  refine (entriesFor_pushed_self hq a v (targetBucket_lt hq d) k).trans (if_congr ?_ rfl rfl)
  exact ⟨fun hk => ⟨h1, hk.trans hdue.symm⟩, fun hk => hk.2.trans hdue⟩

/-- A QEXEC brings what is pending one cycle nearer, and what is due next is gone after it. -/
theorem dueIn_exec_qexec {s t : State} {a : BitVec 8} {v : Byte} {m : Nat} (hdue : DueIn a v m s) (h : exec .qexec s = .next t) :
    DueIn a v (m - 1) t := by
  obtain ⟨hq, hL, hentries⟩ := hdue
  have hcfg := exec_cfg h
  have hcur : t.cursor = (s.cursor + 1) % s.cfg.horizon := (exec_cursor h).trans (if_pos rfl)
  refine ⟨exec_queueOk hq h, by rw [hcfg]; omega, fun k => ?_⟩
  rw [exec_entriesFor hq h rfl, hentries]
  rcases m with _ | _ | m
  · simp
  · have hnow := (cursor_eq_dueBucket_iff hq.cursorBelow le_rfl hL).mpr rfl
    simp [← hnow]
  · have hlater : s.cursor ≠ s.dueBucket (m + 2) := by
      rw [Ne, cursor_eq_dueBucket_iff hq.cursorBelow (by omega) hL]
      omega
    rw [Nat.add_sub_cancel, dueBucket_of_advanced hcfg hcur]
    by_cases hk : k = s.cursor
    · simp [hk, hlater]
    · simp [hk]

/-- Any other command that discards nothing for `a` leaves the cycles as they are. -/
theorem dueIn_exec_of_ne_qexec {s t : State} {i : Instr} {a : BitVec 8} {v : Byte} {m : Nat} (hdue : DueIn a v m s)
    (h : exec i s = .next t) (hkeep : cancels a i t = false) (hi : i ≠ .qexec) : DueIn a v m t := by
  obtain ⟨hq, hL, hentries⟩ := hdue
  have hcfg := exec_cfg h
  have hcur : t.cursor = s.cursor := (exec_cursor h).trans (if_neg hi)
  refine ⟨exec_queueOk hq h, by rwa [hcfg], fun k => ?_⟩
  rw [exec_entriesFor hq h hkeep, if_neg (fun hc => hi hc.1), hentries, dueBucket_of_same hcfg hcur]

/-! ## Runs of commands that discard nothing for an address -/

theorem runWithoutCancel_cons {a : BitVec 8} {i : Instr} {is : List Instr} {s u : State}
    (h : runWithoutCancel a (i :: is) s = some u) :
    ∃ t, exec i s = .next t ∧ cancels a i t = false ∧ runWithoutCancel a is t = some u := by
  rw [runWithoutCancel] at h
  split at h
  · rename_i t hexec
    split at h
    · cases h
    · rename_i hkeep
      exact ⟨t, hexec, by simpa using hkeep, h⟩
  · cases h
  · cases h

theorem cyclesIn_cons_qexec (is : List Instr) : cyclesIn (.qexec :: is) = cyclesIn is + 1 := by simp [cyclesIn]

theorem cyclesIn_cons_of_ne {i : Instr} (hi : i ≠ .qexec) (is : List Instr) : cyclesIn (i :: is) = cyclesIn is := by
  simp [cyclesIn, hi]

/-- Along such a run an entry comes nearer by the cycles that pass, whatever else is executed. -/
theorem dueIn_of_run {a : BitVec 8} {v : Byte} {is : List Instr} {s u : State} {m : Nat} (hdue : DueIn a v m s)
    (h : runWithoutCancel a is s = some u) : DueIn a v (m - cyclesIn is) u := by
  induction is generalizing s m with
  | nil =>
    obtain rfl := Option.some.inj h
    exact hdue
  | cons i is ih =>
    obtain ⟨t, hexec, hkeep, hrest⟩ := runWithoutCancel_cons h
    by_cases hi : i = .qexec
    · subst hi
      rw [cyclesIn_cons_qexec, Nat.add_comm, ← Nat.sub_sub]
      exact ih (dueIn_exec_qexec hdue hexec) hrest
    · rw [cyclesIn_cons_of_ne hi]
      exact ih (dueIn_exec_of_ne_qexec hdue hexec hkeep hi) hrest

/-! ## What a QEXEC fires for one address -/

/-- The FIREs for an address are those of the entries with that address, in order. -/
theorem filter_isFireOf_fireEvents (a : BitVec 8) (b : List Entry) :
    (fireEvents b).filter (Event.isFireOf a) = fireEvents (b.filter (fun e => e.addr = a)) := by
  rw [fireEvents, List.filter_map]
  rfl

/-- A QEXEC fires the entry when it is due next, and nothing for its address otherwise. -/
theorem events_qexec_of_dueIn {u w : State} {a : BitVec 8} {v : Byte} {m : Nat} (hdue : DueIn a v m u) (h : exec .qexec u = .next w) :
    w.events.filter (Event.isFireOf a) = if m = 1 then [.fire a v] else [] := by
  obtain ⟨hq, hL, hentries⟩ := hdue
  obtain rfl := Host.Outcome.next.inj ((exec_qexec u).symm.trans h)
  have hfired : (u.bucket u.cursor).filter (fun e => e.addr = a) = if m = 1 then [⟨a, v⟩] else [] := by
    refine (hentries u.cursor).trans (if_congr ?_ rfl rfl)
    constructor
    · rintro ⟨h1, hnow⟩
      exact (cursor_eq_dueBucket_iff hq.cursorBelow h1 hL).mp hnow
    · rintro rfl
      exact ⟨le_rfl, (cursor_eq_dueBucket_iff hq.cursorBelow le_rfl hL).mpr rfl⟩
  refine (filter_isFireOf_fireEvents a _).trans ?_
  rw [hfired]
  split <;> rfl

/-! ## The obligations on the queue -/

/-- Settles O57: along the run the entry stays the only one for its address, `d` less the cycles passed from firing. -/
theorem entryFiresAtItsCycleOnly : Obligations.EntryFiresAtItsCycleOnly := by
  intro s t u w a v d between hq hpush hok hrun hexec
  have hdue : DueIn a v (d.toNat - cyclesIn between) u := dueIn_of_run (dueIn_of_exec_qpush_ok hq hpush hok) hrun
  have hfires := events_qexec_of_dueIn hdue hexec
  refine ⟨fun hnow => ?_, fun hnot v' hmem => ?_⟩
  · rwa [if_pos (by omega)] at hfires
  · rw [if_neg (by omega), List.filter_eq_nil_iff] at hfires
    exact hfires _ hmem (decide_eq_true rfl)

/-- Settles O37: with room in the bucket the push takes its third branch. -/
theorem qpushSchedulesAndReplaces : Obligations.QpushSchedulesAndReplaces := by
  intro s a v d hq h1 hL j hroom
  have hbucket := pushed_bucket hq a v (targetBucket_lt hq d)
  have hslot := pushed_slot s a v (s.targetBucket d)
  exact ⟨_, exec_qpush_accepted h1 hL hroom, rfl, (hbucket j).trans (if_pos rfl), fun k hk => (hbucket k).trans (if_neg hk),
    (hslot a).trans (if_pos rfl), fun a' ha => (hslot a').trans (if_neg ha),
    unchangedBut_respond _ _ (unchangedBut_pushed a v _ s)⟩

/-- Settles O38: each of the two checks that fails rejects the command. -/
theorem qpushRejectsOutOfRangeAndFull : Obligations.QpushRejectsOutOfRangeAndFull := by
  intro s a v d j
  refine ⟨fun hd => ?_, fun h1 hL hfull => ?_⟩
  · exact ⟨_, exec_qpush_outOfRange (by omega), rfl, unchangedBut_reject s _, rfl⟩
  · exact ⟨_, exec_qpush_full h1 hL hfull, rfl, unchangedBut_reject s _, rfl⟩

/-- Settles O39: the delivery empties the bucket at CURSOR and clears the slots of its addresses. -/
theorem qexecDeliversTheCurrentBucket : Obligations.QexecDeliversTheCurrentBucket := by
  intro s
  have hbucket := drain_bucket s
  have hslot := drain_slot s
  exact ⟨_, exec_qexec s, rfl, (hbucket s.cursor).trans (if_pos rfl), fun k hk => (hbucket k).trans (if_neg hk),
    fun a ha => (hslot a).trans (if_pos ha), fun a ha => (hslot a).trans (if_neg ha), rfl,
    unchangedBut_respond _ _ (unchangedBut_drain s)⟩

/-- Settles O40: every bucket and slot of a cleared queue reads empty. -/
theorem qrstClearsTheQueue : Obligations.QrstClearsTheQueue := by
  intro s
  exact ⟨_, exec_qrst s, rfl, cleared_bucket s, cleared_buckets_length s, cleared_slot s,
    unchangedBut_respond _ _ (unchangedBut_cleared s)⟩

/-- Settles O56: the new entry stands in its bucket, and the queue invariants allow one entry for its address. -/
theorem acceptedPushIsTheOnlyPendingEntry : Obligations.AcceptedPushIsTheOnlyPendingEntry := by
  intro s t a v d hq h hok
  have hone := (exec_queueOk hq h).onePending a
  obtain ⟨-, -, rfl⟩ := pushed_of_exec_qpush_ok h hok
  have hnew : (⟨a, v⟩ : Entry) ∈ (pushed a v (s.targetBucket d) s).bucket (s.targetBucket d) := by
    rw [pushed_bucket hq a v (targetBucket_lt hq d), if_pos rfl]
    simp
  have hpending := List.mem_flatten_of_mem (bucketOf_mem_of_lt (lt_of_mem_bucketOf hnew)) hnew
  have hfound : (⟨a, v⟩ : Entry) ∈ (pushed a v (s.targetBucket d) s).buckets.flatten.filter (fun e => e.addr = a) :=
    List.mem_filter.mpr ⟨hpending, decide_eq_true rfl⟩
  obtain ⟨e, he⟩ := List.length_eq_one_iff.mp (le_antisymm hone (List.length_pos_of_mem hfound))
  obtain rfl : ⟨a, v⟩ = e := List.mem_singleton.mp (he ▸ hfound)
  exact he

end Sys2Proof.Machine

/-! The obligations of 60_exceptions.md: every command answers (R138), a rejection is precise (R146), and what the model records of
it (R145). -/

namespace Sys2Proof.Machine

/-! ## Every command answers a next state (R138) -/

section Answers

variable {s : State}

/-- Every next state of a command holds its response (R70). -/
theorem exec_response {t : State} {i : Instr} (h : exec i s = .next t) : ∃ r, t.response = some r := by
  cases exec_ending h with
  | ok hr => exact ⟨_, hr⟩
  | _ => exact ⟨_, rfl⟩

/-- An address of the page that a reference serves lies in the buffer of the reference (R26). -/
theorem RefInside.byte_inside {c : Config} {ref : DirectRef} (h : RefInside c ref) (a : Addr) :
    ref.base + inPage c a < bufSize c ref.buf := by
  have hpage := inPage_lt c a
  unfold RefInside at h
  omega

/-- The read handler answers (R105). -/
theorem exec_crd_answers (hs : s.Inv) (a : Addr) : ∃ t, exec (.crd a) s = .next t := by
  obtain ⟨v, u, hread⟩ := cartRead_answers (addr := a) hs.params hs.sel
  refine ⟨u.respond (v.setWidth 16) [], ?_⟩
  simp only [exec, execCrd, cartReadResponse, hread, settle]

/-- A bus read goes through the reference, which stays in its buffer, or to the device of the page (R96). -/
theorem exec_brd_answers (hs : s.Inv) (a : Addr) : ∃ t, exec (.brd a) s = .next t := by
  cases hrd : (s.page (pageOf s.cfg a)).rd with
  | some ref => exact ⟨_, exec_brd_direct hrd (((descriptorOk_page hs.pages _).readInside ref hrd).byte_inside a)⟩
  | none =>
    cases hdev : (s.page (pageOf s.cfg a)).dev with
    | none => exact ⟨_, exec_brd_unmapped hrd hdev⟩
    | cart =>
      rw [exec_brd_cart hrd hdev]
      exact exec_crd_answers hs a
    | ext k => exact ⟨_, exec_brd_ext hrd hdev⟩

/-- A bus write goes through the reference, which stays in its buffer, or to the device of the page (R97). -/
theorem exec_bwr_answers (hs : s.Inv) (a : Addr) (v : Byte) : ∃ t, exec (.bwr a v) s = .next t := by
  cases hwr : (s.page (pageOf s.cfg a)).wr with
  | some ref => exact ⟨_, exec_bwr_direct hwr (((descriptorOk_page hs.pages _).writeInside ref hwr).byte_inside a)⟩
  | none =>
    cases hdev : (s.page (pageOf s.cfg a)).dev with
    | none => exact ⟨_, exec_bwr_unmapped v hwr hdev⟩
    | cart => exact ⟨_, exec_bwr_cart v hwr hdev⟩
    | ext k => exact ⟨_, exec_bwr_ext v hwr hdev⟩

theorem exec_ptset_answers (s : State) (q : BitVec 16) (d : Descriptor) : ∃ t, exec (.ptset q d) s = .next t := by
  by_cases hill : descriptorIllFormed s.cfg d = true
  · exact ⟨_, exec_ptset_illFormed q hill⟩
  · exact ⟨_, exec_ptset_accepted q hill⟩

/-- A stream lacks the tag, or is a whole saved state, or fails after the tag (R122, R123). -/
theorem exec_cload_answers (s : State) (stream : List SerItem) : ∃ t, exec (.cload stream) s = .next t := by
  by_cases htag : ∃ items, stream = .field (.str s.cfg.tag) :: items
  · obtain ⟨items, rfl⟩ := htag
    by_cases hwhole : ∃ (n : Nat) (bytes : List Byte) (extra : List SerItem), bytes.length = ramSize ∧
        items = .field (.int n) :: .field (.int ramSize) :: (bytes.map (fun b => SerItem.field (.byte b)) ++ extra)
    · obtain ⟨n, bytes, extra, hlen, rfl⟩ := hwhole
      exact ⟨_, exec_cload_complete n extra hlen⟩
    · exact ⟨_, exec_cload_partial fun n bytes extra hlen heq => hwhole ⟨n, bytes, extra, hlen, heq⟩⟩
  · exact ⟨_, exec_cload_untagged fun items heq => htag ⟨items, heq⟩⟩

theorem exec_qpush_answers (s : State) (a : BitVec 8) (v : Byte) (d : BitVec 8) : ∃ t, exec (.qpush a v d) s = .next t := by
  by_cases hd : d.toNat < 1 ∨ s.cfg.horizon < d.toNat
  · exact ⟨_, exec_qpush_outOfRange hd⟩
  · have h1 : 1 ≤ d.toNat := by omega
    have hL : d.toNat ≤ s.cfg.horizon := by omega
    by_cases hfull : s.cfg.capacity < s.countBeside a (s.targetBucket d) + 1
    · exact ⟨_, exec_qpush_full h1 hL hfull⟩
    · exact ⟨_, exec_qpush_accepted h1 hL (Nat.le_of_not_lt hfull)⟩

/-- Only an access outside a buffer stops a command, and the invariant keeps every reference and the selected cells inside
(R26, R30, R138). -/
theorem exec_answers (hs : s.Inv) (i : Instr) : ∃ t, exec i s = .next t := by
  cases i with
  | brd a => exact exec_brd_answers hs a
  | bwr a v => exact exec_bwr_answers hs a v
  | crd a => exact exec_crd_answers hs a
  | ptset q d => exact exec_ptset_answers s q d
  | cpat a v => exact ⟨_, exec_cpat a v hs.params hs.sel⟩
  | cload stream => exact exec_cload_answers s stream
  | qpush a v d => exact exec_qpush_answers s a v d
  | cwr | cinst | crst | csel | csave | clock | cclr | cstat | qexec | qrst => exact ⟨_, rfl⟩

/-- A command ends with a status, whatever it is (R138). -/
theorem exec_ends (hs : s.Inv) (i : Instr) : ∃ t r, exec i s = .next t ∧ t.response = some r := by
  obtain ⟨t, hexec⟩ := exec_answers hs i
  obtain ⟨r, hr⟩ := exec_response hexec
  exact ⟨t, r, hexec, hr⟩

/-- A request ends with a status, also where the decoder rejects its word (R85, R138). -/
theorem runRequest_ends (hs : s.Inv) (w : Request) : ∃ t r, runRequest w s = .next t ∧ t.response = some r := by
  cases hdec : decode s.cfg w with
  | ok i =>
    rw [runRequest_decoded hdec]
    exact exec_ends hs i
  | error e => exact ⟨_, _, runRequest_rejected hdec, rfl⟩

end Answers

/-! ## The block after a status other than OK (R123, R146) -/

theorem sameBlock_reject (s : State) (st : Status) : SameBlock s (s.reject st) := (unchangedBut_reject s st).mono (by simp)

/-- A response and a draw are no pieces of the block. -/
theorem sameBlock_draws_response (s : State) (d : Draws) (r : Option Response) :
    SameBlock s { s with draws := d, response := r } :=
  unchangedBut_response r ((unchangedBut_draws s d).mono (by simp))

/-- A CLOAD fails partly only after its tag matched (R123): without the tag it is a rejection, which does not record FAILPARTIAL. -/
theorem tag_of_exec_cload_partial {s : State} {stream : List SerItem} (h : exec (.cload stream) s = .next (loadFailPartial s)) :
    ∃ items, stream = .field (.str s.cfg.tag) :: items := by
  by_contra htag
  have huntagged := exec_cload_untagged fun items heq => htag ⟨items, heq⟩
  have hsame : s.reject .fail = loadFailPartial s := Host.Outcome.next.inj (huntagged.symm.trans h)
  have hfaults : s.faults ++ [] = s.faults ++ [.failPartial] := congrArg State.faults hsame
  cases List.append_cancel_left hfaults

/-! ## The obligations -/

/-- Settles O12: no command faults under the invariant, and a word the decoder rejects is answered. -/
theorem everyCommandEndsWithAStatus : Obligations.EveryCommandEndsWithAStatus := by
  refine ⟨fun s i hs => exec_ends hs i, fun s w rest hs hin hlive => ?_⟩
  rw [step_command_live hin hlive]
  exact runRequest_ends (inv_withInbox hs rest) w

/-- Settles O48: of the rejections, only a CLOAD that fails after its tag changes the block, and only a CSAVE emits events. -/
theorem rejectionsArePrecise : Obligations.RejectionsArePrecise := by
  intro s t i r h hr hst
  cases exec_ending h with
  | ok hok =>
    obtain rfl := Option.some.inj (hok.symm.trans hr)
    exact absurd rfl hst
  | rejected =>
    obtain rfl := Option.some.inj hr
    exact ⟨.inl (sameBlock_reject s _), .inl rfl⟩
  | @saveFailed j d =>
    obtain rfl := Option.some.inj hr
    exact ⟨.inl (sameBlock_draws_response s d _), .inr ⟨rfl, j, by rw [saveFields_eq]⟩⟩
  | loadedPartly =>
    obtain rfl := Option.some.inj hr
    exact ⟨.inr ⟨(tag_of_exec_cload_partial h).imp fun _ => congrArg Instr.cload, rfl⟩, .inl rfl⟩

/-- Settles O49: each way a command ends has one status, and adds the faults that status stands for. -/
theorem commandFaultsAreRecorded : Obligations.CommandFaultsAreRecorded := by
  intro s t i r h hr
  cases exec_ending h with
  | ok hok hkept =>
    obtain rfl := Option.some.inj (hok.symm.trans hr)
    exact ⟨fun _ => hkept, nofun, nofun, nofun, nofun, nofun⟩
  | @rejected _ st hst =>
    obtain rfl := Option.some.inj hr
    have hadds : ∀ {st' : Status}, st = st' → (s.reject st).faults = s.faults ++ st'.commandFault := by
      rintro _ rfl
      rfl
    exact ⟨fun hok => absurd hok hst, hadds, hadds, hadds, hadds,
      fun hfail => .inl ⟨(hadds hfail).trans (List.append_nil _), sameBlock_reject s st⟩⟩
  | saveFailed =>
    obtain rfl := Option.some.inj hr
    exact ⟨nofun, nofun, nofun, nofun, nofun, fun _ => .inl ⟨rfl, sameBlock_draws_response s _ _⟩⟩
  | loadedPartly =>
    obtain rfl := Option.some.inj hr
    exact ⟨nofun, nofun, nofun, nofun, nofun, fun _ => .inr rfl⟩

end Sys2Proof.Machine

/-! The obligations of 70_reset_and_hazards.md: what construction leaves (R161), and that it meets the invariant, so that reset,
a construction with the parameters of log 2, does too. -/

namespace Sys2Proof.Machine

section Construction

variable (c : Config) (image0 ram0 : Memory) (startBank : Nat)

/-! ## The pieces of a constructed block (R161) -/

theorem construct_sel_toNat : (State.construct c image0 ram0 startBank).sel.toNat = norm c startBank := normSel_toNat c startBank

theorem construct_page (p : Nat) : (State.construct c image0 ram0 startBank).page p = Descriptor.unmapped := rfl

theorem construct_buckets_length : (State.construct c image0 ram0 startBank).buckets.length = c.horizon := List.length_replicate

/-- Every bucket of a constructed block is empty. -/
theorem eq_nil_of_mem_construct_buckets {b : List Entry} (hb : b ∈ (State.construct c image0 ram0 startBank).buckets) : b = [] :=
  List.eq_of_mem_replicate hb

/-- `BUCKET[j]` is empty also for a `j` past the last bucket. -/
theorem construct_bucket (j : Nat) : (State.construct c image0 ram0 startBank).bucket j = [] := by
  by_cases hj : j < (State.construct c image0 ram0 startBank).buckets.length
  · exact eq_nil_of_mem_construct_buckets c image0 ram0 startBank (bucketOf_mem_of_lt hj)
  · rw [bucket_eq, bucketOf, List.getElem?_eq_none (Nat.le_of_not_lt hj), Option.getD_none]

theorem construct_slot (a : BitVec 8) : (State.construct c image0 ram0 startBank).slot a = none := rfl

/-! ## The two parts of the invariant that speak of tables -/

theorem pageTableOk_nil : PageTableOk c [] :=
  ⟨List.Pairwise.nil, fun _ => nofun, fun _ => nofun, fun _ => nofun⟩

theorem construct_queueOk (hc : c.Valid) : QueueOk (State.construct c image0 ram0 startBank) := by
  obtain ⟨-, -, -, -, hL, -, -⟩ := hc
  exact queueOk_empty (construct_buckets_length c image0 ram0 startBank)
    (fun _ => eq_nil_of_mem_construct_buckets c image0 ram0 startBank) hL rfl

end Construction

/-! ## The obligations -/

/-- Settles O9: the parameters and both memories are legal by hypothesis, SEL is a normal form, and the page table and the queue
are empty. -/
theorem constructionMeetsTheInvariant : Obligations.ConstructionMeetsTheInvariant :=
  fun c image0 ram0 startBank hc himage hram =>
    { params := hc
      image := himage
      ram := hram
      sel := normSel_legal hc startBank
      pages := pageTableOk_nil c
      queue := construct_queueOk c image0 ram0 startBank hc }

/-- Settles O8: SEL is `norm(START_BANK)`, every page, bucket and slot is empty, and the remaining pieces are
fields of `State.construct` as it writes them. -/
theorem constructionLeavesTheStatedValues : Obligations.ConstructionLeavesTheStatedValues :=
  fun c image0 ram0 startBank =>
    ⟨rfl, rfl, rfl, rfl, construct_sel_toNat c image0 ram0 startBank, rfl, rfl, construct_page c image0 ram0 startBank,
      construct_buckets_length c image0 ram0 startBank, construct_bucket c image0 ram0 startBank, rfl,
      construct_slot c image0 ram0 startBank⟩

/-- Settles O10: reset is a construction with the default parameters, which are legal, and with empty memories, which are
canonical. -/
theorem resetMeetsTheInvariant : Obligations.ResetMeetsTheInvariant :=
  ⟨constructionMeetsTheInvariant Config.default [] [] 0 (by decide) (wf_nil _) (wf_nil _), rfl, rfl⟩

end Sys2Proof.Machine
